-- ==== Sys2Proof/Word.lean ====
section
/-! DEFINITION. The word types of CORE-v1 (00_scope R15): bytes, 32-bit register words, the bit patterns of IEEE-754
binary64 and binary32, and complex values held as a pair of binary64 (c64). -/

namespace Sys2Proof

/-- One byte of the local address space (20_memory R120). -/
abbrev Byte := BitVec 8

/-- A 32-bit register or command word (10_state R44, 30_encoding R160). -/
abbrev Word := BitVec 32

/-- The bit pattern of an IEEE-754 binary64 value (00_scope R15). -/
abbrev F64 := BitVec 64

/-- The bit pattern of an IEEE-754 binary32 value (00_scope R15). -/
abbrev F32 := BitVec 32

/-- A complex value as a pair of binary64 (00_scope R15). -/
structure C64 where
  re : F64
  im : F64
  deriving DecidableEq, Repr, Inhabited

end Sys2Proof
end

