-- ==== Sys2Proof/Config.lean ====
section
/-! DEFINITION. The parameters of CORE-v1 that the spec leaves open (92_eei_decisions, "Open parameters") and the free
values. Each free one is an `opaque` constant with no body: nothing in Lean can evaluate it, so a theorem about the model
holds for every value of it. -/

namespace Sys2Proof

/-- A code table of 44_ldpc R400 (10_state R75). `hRows` and `hCols` hold 1-based u16 indices padded with 0. -/
structure LdpcCode where
  n : Nat
  m : Nat
  maxRowWeight : Nat
  maxColWeight : Nat
  hRows : List (List (BitVec 16))
  hCols : List (List (BitVec 16))
  maxIter : Nat
  /-- Known padding bits: (position, value). -/
  pad : List (Nat × Bool)
  deriving DecidableEq, Repr, Inhabited

namespace Config

/-- `P_ID` (00_scope R14): the ID register, fixed in CORE-v1. -/
def pId : Word := 0x4F46444D#32

/-- `P_CODES` (00_scope R12): the raw table of a code slot. The machine reads it through `codeTable`, which keeps the
conditions of 44_ldpc R401 (log 5). -/
opaque pCodes : Nat → LdpcCode

/-- `P_MATH` (00_scope R13): the elementary functions, each a total function of its operands and nothing else (log 6). -/
opaque cos : F64 → F64
opaque sin : F64 → F64
/-- `atan2 y x`. -/
opaque atan2 : F64 → F64 → F64
opaque log10 : F64 → F64
opaque tanh : F64 → F64
opaque atanh : F64 → F64

/-- `P_POR_MEM` (70_reset R551): the byte an address of the CFG or buffer windows holds after a power-on reset, until it
is first written. The first argument counts power-on resets, since each draws anew (log 4). -/
opaque porMem : Nat → Nat → Byte

/-- The payload of a NaN an operation makes (93_implementation_defined S16): any value, depending on the operation and
its operands (log 7). -/
opaque nanPayload : Nat → F64 → F64 → F64

end Config
end Sys2Proof
end

