-- ==== Sys2Proof/Machine/Ieee.lean ====
section
/-! DEFINITION. IEEE-754 binary64 with round-to-nearest-even, subnormals kept, no flags (00_scope R13, 60_exceptions
R531), and the conversions between binary32 and binary64 (20_memory R124).

Every finite binary64 value is a whole number of units of 2^-1074. Each operation computes its exact result from these
whole numbers and rounds once, at the end. -/

namespace Sys2Proof.Fp

/-- Fraction bits of binary64 and binary32. -/
def frac64 : Nat := 52
def frac32 : Nat := 23

/-- Bit patterns of +infinity. -/
def inf64 : Nat := 0x7FF0000000000000
def inf32 : Nat := 0x7F800000

/-- The sign bit. -/
def isNeg (x : F64) : Bool := Nat.ble 0x8000000000000000 x.toNat

/-- The pattern without its sign bit. -/
def magBits (x : F64) : Nat := x.toNat % 0x8000000000000000

def isNaN (x : F64) : Bool := Nat.blt inf64 (magBits x)
def isInf (x : F64) : Bool := magBits x == inf64
def isFinite (x : F64) : Bool := Nat.blt (magBits x) inf64
def isZero (x : F64) : Bool := magBits x == 0

/-- The magnitude a sign-free pattern stands for, in units of the format's smallest subnormal. Exponent field 0 is
subnormal; otherwise the hidden bit is added. An infinity maps above every finite magnitude. -/
def unpackMag (t p : Nat) : Nat :=
  if p < 2 ^ t then p else (2 ^ t + p % 2 ^ t) * 2 ^ (p / 2 ^ t - 1)

/-- `n / d` rounded to the nearest whole number, ties to even. -/
def roundEven (n d : Nat) : Nat :=
  let q := n / d
  let r := n % d
  if 2 * r < d then q else if d < 2 * r then q + 1 else q + q % 2

/-- The sign-free pattern nearest to `n / d` units, ties to even, in the format with `t` fraction bits whose infinity
pattern is `inf`; a result above the range is infinity. -/
def roundMag (t inf n d : Nat) : Nat :=
  let s := (n / d).log2 - t
  min (roundEven n (d * 2 ^ s) + s * 2 ^ t) inf

/-- A pattern with its sign. -/
def make (neg : Bool) (p : Nat) : F64 :=
  BitVec.ofNat 64 (if neg then 0x8000000000000000 + p else p)

/-- A quiet NaN with a free sign and payload (93_implementation_defined S16, log 7): `op` tells the operation. -/
def nanResult (op : Nat) (x y : F64) : F64 :=
  Config.nanPayload op x y ||| 0x7FF8000000000000#64

/-- The exact value of a finite pattern in units of 2^-1074. -/
def toUnits (x : F64) : Int :=
  if isNeg x then -(unpackMag frac64 (magBits x) : Int) else (unpackMag frac64 (magBits x) : Int)

/-- 2^1074: one in units of 2^-1074. -/
def oneUnits : Nat := 2 ^ 1074

/-- The binary64 value nearest to `num / den` units; an exact zero is +0. -/
def ofUnits (num : Int) (den : Nat) : F64 :=
  make (decide (num < 0)) (roundMag frac64 inf64 num.natAbs den)

def zero : F64 := 0#64
def negZero : F64 := 0x8000000000000000#64
def one : F64 := 0x3FF0000000000000#64
def two : F64 := 0x4000000000000000#64
def half : F64 := 0x3FE0000000000000#64
def ten : F64 := 0x4024000000000000#64
def million : F64 := 0x412E848000000000#64
def negInf : F64 := 0xFFF0000000000000#64
/-- The binary64 value nearest to pi (log 10). -/
def pi : F64 := 0x400921FB54442D18#64

/-- Sign inversion, a bit operation also on NaN. -/
def neg (x : F64) : F64 := x ^^^ negZero

/-- Magnitude, a bit operation also on NaN. -/
def abs (x : F64) : F64 := BitVec.ofNat 64 (magBits x)

/-- The binary64 value nearest to an integer. -/
def ofInt (z : Int) : F64 := ofUnits (z * (oneUnits : Int)) 1
def ofNat (n : Nat) : F64 := ofInt n

def add (x y : F64) : F64 :=
  if isNaN x || isNaN y then nanResult 0 x y
  else if isInf x then (if isInf y && isNeg x != isNeg y then nanResult 0 x y else x)
  else if isInf y then y
  else
    let z := toUnits x + toUnits y
    if z = 0 then (if isNeg x && isNeg y then negZero else zero) else ofUnits z 1

def sub (x y : F64) : F64 := add x (neg y)

def mul (x y : F64) : F64 :=
  let s := isNeg x != isNeg y
  if isNaN x || isNaN y then nanResult 1 x y
  else if isInf x || isInf y then
    (if isZero x || isZero y then nanResult 1 x y else make s inf64)
  else make s (roundMag frac64 inf64
    (unpackMag frac64 (magBits x) * unpackMag frac64 (magBits y)) oneUnits)

def div (x y : F64) : F64 :=
  let s := isNeg x != isNeg y
  if isNaN x || isNaN y then nanResult 2 x y
  else if isInf x then (if isInf y then nanResult 2 x y else make s inf64)
  else if isInf y then make s 0
  else if isZero y then (if isZero x then nanResult 2 x y else make s inf64)
  else make s (roundMag frac64 inf64
    (unpackMag frac64 (magBits x) * oneUnits) (unpackMag frac64 (magBits y)))

/-- Newton's iteration for the whole square root: it falls until it stops falling. `fuel` bounds the number of steps. -/
def sqrtIter (n : Nat) : Nat → Nat → Nat
  | 0, g => g
  | fuel + 1, g =>
    let g' := (g + n / g) / 2
    if g' < g then sqrtIter n fuel g' else g

/-- The whole square root: the greatest `r` with `r * r <= n`. The first guess is a power of two not below it. -/
def natSqrt (n : Nat) : Nat :=
  let g := 2 ^ (n.log2 / 2 + 1)
  sqrtIter n g g

/-- Correctly rounded square root (90_conflicts C15). The square root of `m` units is that of `m * 2^1074` whole units;
one bit below it tells an inexact root. -/
def sqrt (x : F64) : F64 :=
  if isNaN x then nanResult 3 x x
  else if isZero x then x
  else if isNeg x then nanResult 3 x x
  else if isInf x then x
  else
    let n := unpackMag frac64 (magBits x) * oneUnits
    let r := natSqrt n
    make false (roundMag frac64 inf64 (2 * r + (if r * r = n then 0 else 1)) 2)

/-- The order of the patterns that are not NaN; the two zeros are equal. -/
def key (x : F64) : Int := if isNeg x then -(magBits x : Int) else (magBits x : Int)

/-- IEEE `<`: false on NaN. -/
def lt (x y : F64) : Bool := !(isNaN x || isNaN y) && decide (key x < key y)

/-- IEEE `<=`: false on NaN. -/
def le (x y : F64) : Bool := !(isNaN x || isNaN y) && decide (key x ≤ key y)

/-- The lesser of two values; a NaN propagates (60_exceptions R531, log 12). Of two zeros of opposite sign it is the
first: 00_scope R17 does not say which, so that is the model's choice (DESIGN CHOICE, log 28). -/
def min (x y : F64) : F64 :=
  if isNaN x || isNaN y then nanResult 4 x y else if lt y x then y else x

/-- The greater of two values; a NaN propagates (60_exceptions R531, log 12). Of two zeros of opposite sign it is the
first: 00_scope R17 does not say which, so that is the model's choice (DESIGN CHOICE, log 28). -/
def max (x y : F64) : F64 :=
  if isNaN x || isNaN y then nanResult 5 x y else if lt x y then y else x

/-- `clip(x, a) = max(-a, min(a, x))` (00_scope R17). Where `a` is a zero the sign of the result follows log 28. -/
def clip (x a : F64) : F64 := max (neg a) (min a x)

/-- `sgn` (00_scope R17): -1 below 0, else +1. -/
def sgn (x : F64) : F64 := if lt x zero then neg one else one

/-- A sum over an index set: left to right from the first term; an empty sum is 0 (00_scope R17). -/
def sum : List F64 → F64
  | [] => zero
  | x :: xs => xs.foldl add x

/-- A product over an index set: left to right from the first term; an empty product is 1 (00_scope R17). -/
def prod : List F64 → F64
  | [] => one
  | x :: xs => xs.foldl mul x

def twoPi : F64 := mul two pi

/-- `wrap` of 42_demodulator R309: the angle in `(-pi, pi]` that differs by a whole number of turns of `2*pi`, computed
exactly as the IEEE remainder is, but for the sign of a zero: a whole number of turns other than none gives +0, also of a
negative angle (DESIGN CHOICE, log 8). An infinite angle has none: invalid, a NaN. -/
def wrapAngle (t : F64) : F64 :=
  if isNaN t || isInf t then nanResult 6 t t
  else if lt (neg pi) t && le t pi then t
  else
    let turn := toUnits twoPi
    let r := toUnits t % turn
    ofUnits (if turn < 2 * r then r - turn else r) 1

/-! binary32 (20_memory R124). -/

def neg32 (x : F32) : Bool := Nat.ble 0x80000000 x.toNat
def magBits32 (x : F32) : Nat := x.toNat % 0x80000000
def isFinite32 (x : F32) : Bool := Nat.blt (magBits32 x) inf32

/-- binary32 to binary64, exact. One unit of binary32 (2^-149) is 2^925 units of binary64. A NaN keeps its payload in
the high fraction bits and is made quiet. -/
def ofF32 (x : F32) : F64 :=
  if Nat.blt inf32 (magBits32 x) then
    make (neg32 x) (0x7FF8000000000000 ||| magBits32 x % 0x800000 * 2 ^ 29)
  else if magBits32 x == inf32 then make (neg32 x) inf64
  else make (neg32 x) (roundMag frac64 inf64 (unpackMag frac32 (magBits32 x) * 2 ^ 925) 1)

/-- binary64 to binary32, rounded to nearest even; above the range, an infinity; a NaN becomes a quiet NaN with a free sign
and payload (log 7). -/
def toF32 (x : F64) : F32 :=
  if isNaN x then BitVec.ofNat 32 (Config.nanPayload 7 x x).toNat ||| 0x7FC00000#32
  else
    let p := if isInf x then inf32 else roundMag frac32 inf32 (unpackMag frac64 (magBits x)) (2 ^ 925)
    BitVec.ofNat 32 (if isNeg x then 0x80000000 + p else p)

end Sys2Proof.Fp
end

