-- ==== Sys2Proof/Machine/Complex.lean ====
section
/-! DEFINITION. Complex arithmetic on c64 with the exact componentwise formulas of 00_scope R17, and the twiddles of
41_modulator R254. -/

namespace Sys2Proof.Cx

def zero : C64 := ⟨Fp.zero, Fp.zero⟩
def one : C64 := ⟨Fp.one, Fp.zero⟩

def add (u w : C64) : C64 := ⟨Fp.add u.re w.re, Fp.add u.im w.im⟩

def sub (u w : C64) : C64 := ⟨Fp.sub u.re w.re, Fp.sub u.im w.im⟩

def mul (u w : C64) : C64 :=
  ⟨Fp.sub (Fp.mul u.re w.re) (Fp.mul u.im w.im), Fp.add (Fp.mul u.re w.im) (Fp.mul u.im w.re)⟩

def div (u w : C64) : C64 :=
  let den := Fp.add (Fp.mul w.re w.re) (Fp.mul w.im w.im)
  ⟨Fp.div (Fp.add (Fp.mul u.re w.re) (Fp.mul u.im w.im)) den,
    Fp.div (Fp.sub (Fp.mul u.im w.re) (Fp.mul u.re w.im)) den⟩

/-- A real times a complex (00_scope R17). -/
def smul (s : F64) (u : C64) : C64 := ⟨Fp.mul s u.re, Fp.mul s u.im⟩

/-- A complex over a real, component by component (log 9). -/
def divReal (u : C64) (s : F64) : C64 := ⟨Fp.div u.re s, Fp.div u.im s⟩

def conj (u : C64) : C64 := ⟨u.re, Fp.neg u.im⟩

/-- `|u|^2` (00_scope R17). -/
def normSq (u : C64) : F64 := Fp.add (Fp.mul u.re u.re) (Fp.mul u.im u.im)

/-- `|u|` (00_scope R17). -/
def abs (u : C64) : F64 := Fp.sqrt (normSq u)

/-- `arg` (00_scope R17): `arg(0) = 0`, else `atan2`. -/
def arg (u : C64) : F64 :=
  if Fp.isZero u.re && Fp.isZero u.im then Fp.zero else Config.atan2 u.im u.re

/-- `expj(t)` (00_scope R17), with `expj(0) = expj(-0) = 1` exactly (42_demodulator R302, log 6), whose zero component is +0
(log 29). -/
def expj (t : F64) : C64 :=
  if Fp.isZero t then one else ⟨Config.cos t, Config.sin t⟩

/-- A sum over an index set, left to right from the first term (00_scope R17). -/
def sum : List C64 → C64
  | [] => zero
  | u :: us => us.foldl add u

def isZero (u : C64) : Bool := Fp.isZero u.re && Fp.isZero u.im
def isFinite (u : C64) : Bool := Fp.isFinite u.re && Fp.isFinite u.im

/-- The twiddle `TW(k)` of a transform of length `m` (41_modulator R254), with its four exact quadrant values. R254 writes these
as 1, j, -1 and -j and does not say which zero their zero component is: it is +0 in all four (DESIGN CHOICE, log 29). -/
def twiddle (m k : Nat) : C64 :=
  let r := k % m
  if r = 0 then one
  else if 4 * r = m then ⟨Fp.zero, Fp.one⟩
  else if 2 * r = m then ⟨Fp.neg Fp.one, Fp.zero⟩
  else if 4 * r = 3 * m then ⟨Fp.zero, Fp.neg Fp.one⟩
  else expj (Fp.div (Fp.mul Fp.twoPi (Fp.ofNat r)) (Fp.ofNat m))

end Sys2Proof.Cx
end

