-- ==== Sys2Proof/Syntax.lean ====
section
/-! DEFINITION. The commands of CORE-v1 as syntax: one constructor of `Instr` per row of spec/opcode_table.json
(30_encoding R163), with the enumerations IMM8 encodes. -/

namespace Sys2Proof

/-- The sync policy (10_state R69, 40_control R210): IMM8 0, 1, 2. -/
inductive Policy where
  | unsynced
  | auto
  | manual
  deriving DecidableEq, Repr, Inhabited

/-- The phase estimator bandwidth (10_state R70, 40_control R212): IMM8 0, 1. -/
inductive PhaseBw where
  | low
  | high
  deriving DecidableEq, Repr, Inhabited

/-- Where RUN_SYNC_SM takes its event from (43_sync R360): IMM8 0 is ARG0, IMM8 1 is the last emitted frame. -/
inductive EventSource where
  | arg0
  | lastFrame
  deriving DecidableEq, Repr, Inhabited

/-- The 18 commands (30_encoding R163). -/
inductive Instr where
  | create
  | destroy
  | modulate
  | getNin
  | demodulate
  | syncSearch
  | runSyncSm (src : EventSource)
  | setSyncPolicy (p : Policy)
  | setPhaseBw (b : PhaseBw)
  | enableTiming (f : Bool)
  | enableFreq (f : Bool)
  | enablePhase (f : Bool)
  | setDpsk (f : Bool)
  | getStats
  | ldpcEncode (slot : BitVec 8)
  | ldpcDecode (slot : BitVec 8)
  | ilPush
  | berReset
  deriving DecidableEq, Repr

end Sys2Proof
end

