-- ==== Sys2Proof/WellFormed.lean ====
section
/-! DEFINITION. Which instruction terms are commands of CORE-v1: the code slot of LDPC_ENCODE and LDPC_DECODE is one of
0, 1, 2 (30_encoding R163). Every other operand is an enumeration whose values are all legal. -/

namespace Sys2Proof

/-- The legal code slots (30_encoding R163, `NCODES` of 00_scope R11). -/
def legalSlot (slot : BitVec 8) : Bool := decide (slot.toNat < 3)

/-- `i` is a command CORE-v1 has (30_encoding R163, column "legal IMM8"). -/
def Instr.wellFormed : Instr → Bool
  | .ldpcEncode slot => legalSlot slot
  | .ldpcDecode slot => legalSlot slot
  | .create | .destroy | .modulate | .getNin | .demodulate | .syncSearch => true
  | .runSyncSm _ | .setSyncPolicy _ | .setPhaseBw _ => true
  | .enableTiming _ | .enableFreq _ | .enablePhase _ | .setDpsk _ => true
  | .getStats | .ilPush | .berReset => true

end Sys2Proof
end

