-- ==== Sys2Proof/Decode.lean ====
section
/-! DEFINITION. Decoding of a command word (30_encoding R160 to R166), total on every word and every byte sequence and
rejecting by name, and the encoder written from the same table. -/

namespace Sys2Proof

/-- Why a command word is no command (30_encoding R162 steps 1 to 3, R165). Every one raises IllegalCommand. -/
inductive Reject where
  /-- fewer than the four bytes every command word has (30_encoding R166) -/
  | truncated
  /-- `w[31:16]` is not 0 -/
  | reservedNonzero
  /-- `w[7:0]` is not an opcode of R163 -/
  | unknownOpcode
  /-- `w[15:8]` is outside the opcode's legal set -/
  | illegalImm8
  deriving DecidableEq, Repr

/-- OPC, bits 7:0 (30_encoding R160). -/
def opcField (w : Word) : Nat := w.toNat % 0x100

/-- IMM8, bits 15:8 (30_encoding R160). -/
def immField (w : Word) : Nat := w.toNat / 0x100 % 0x100

/-- RSV, bits 31:16 (30_encoding R160). -/
def rsvField (w : Word) : Nat := w.toNat / 0x10000

/-- An opcode whose legal IMM8 set is 0 alone. -/
def decodeZero (imm : Nat) (i : Instr) : Except Reject Instr :=
  if imm = 0 then .ok i else .error .illegalImm8

/-- An opcode whose IMM8 is a flag, 0 or 1 (30_encoding R163). -/
def decodeFlag (imm : Nat) (i : Bool → Instr) : Except Reject Instr :=
  match imm with
  | 0 => .ok (i false)
  | 1 => .ok (i true)
  | _ => .error .illegalImm8

/-- IMM8 of RUN_SYNC_SM (30_encoding R163). -/
def decodeSource (imm : Nat) : Except Reject Instr :=
  match imm with
  | 0 => .ok (.runSyncSm .arg0)
  | 1 => .ok (.runSyncSm .lastFrame)
  | _ => .error .illegalImm8

/-- IMM8 of SET_SYNC_POLICY (30_encoding R163). -/
def decodePolicy (imm : Nat) : Except Reject Instr :=
  match imm with
  | 0 => .ok (.setSyncPolicy .unsynced)
  | 1 => .ok (.setSyncPolicy .auto)
  | 2 => .ok (.setSyncPolicy .manual)
  | _ => .error .illegalImm8

/-- IMM8 of SET_PHASE_BW (30_encoding R163). -/
def decodeBw (imm : Nat) : Except Reject Instr :=
  match imm with
  | 0 => .ok (.setPhaseBw .low)
  | 1 => .ok (.setPhaseBw .high)
  | _ => .error .illegalImm8

/-- IMM8 of the LDPC commands, a code slot (30_encoding R163). -/
def decodeSlot (imm : Nat) (i : BitVec 8 → Instr) : Except Reject Instr :=
  if imm < 3 then .ok (i (BitVec.ofNat 8 imm)) else .error .illegalImm8

/-- The opcode map (30_encoding R163). -/
def decodeOpc (opc imm : Nat) : Except Reject Instr :=
  match opc with
  | 0x01 => decodeZero imm .create
  | 0x02 => decodeZero imm .destroy
  | 0x03 => decodeZero imm .modulate
  | 0x04 => decodeZero imm .getNin
  | 0x05 => decodeZero imm .demodulate
  | 0x06 => decodeZero imm .syncSearch
  | 0x07 => decodeSource imm
  | 0x08 => decodePolicy imm
  | 0x09 => decodeBw imm
  | 0x0A => decodeFlag imm .enableTiming
  | 0x0B => decodeFlag imm .enableFreq
  | 0x0C => decodeFlag imm .enablePhase
  | 0x0D => decodeFlag imm .setDpsk
  | 0x0E => decodeZero imm .getStats
  | 0x10 => decodeSlot imm .ldpcEncode
  | 0x11 => decodeSlot imm .ldpcDecode
  | 0x20 => decodeZero imm .ilPush
  | 0x21 => decodeZero imm .berReset
  | _ => .error .unknownOpcode

/-- Steps 1 to 3 of 30_encoding R162: RSV, then OPC, then IMM8. -/
def decode (w : Word) : Except Reject Instr :=
  if rsvField w = 0 then decodeOpc (opcField w) (immField w) else .error .reservedNonzero

/-- The command word that four bytes at rising addresses make, little-endian (20_memory R123). -/
def wordOfBytes (b0 b1 b2 b3 : Byte) : Word :=
  BitVec.ofNat 32 (b0.toNat + 0x100 * b1.toNat + 0x10000 * b2.toNat + 0x1000000 * b3.toNat)

/-- Decoding from a byte sequence: every command is four bytes long (30_encoding R160, R166). The rest of the sequence
comes back with the instruction. -/
def decodeBytes : List Byte → Except Reject (Instr × List Byte)
  | b0 :: b1 :: b2 :: b3 :: rest =>
    match decode (wordOfBytes b0 b1 b2 b3) with
    | .ok i => .ok (i, rest)
    | .error r => .error r
  | _ => .error .truncated

/-- The four bytes of a word as the hardware stores it, lowest address first (20_memory R123). -/
def bytesOfWord (w : Word) : List Byte :=
  [BitVec.ofNat 8 w.toNat, BitVec.ofNat 8 (w.toNat / 0x100), BitVec.ofNat 8 (w.toNat / 0x10000),
    BitVec.ofNat 8 (w.toNat / 0x1000000)]

/-- The host's table word: bits numbered as spec/opcode_table.json numbers them, the bits above `nbits` being 0. -/
def tableWord (nbits w : Nat) : Word := BitVec.ofNat 32 (w % 2 ^ nbits)

/-- The instruction the decoder reads from a table word laid out as the hardware stores it. -/
def decodeTableWord (nbits w : Nat) : Option Instr :=
  match decodeBytes (bytesOfWord (tableWord nbits w)) with
  | .ok (i, _) => some i
  | .error _ => none

/-! The encoder (30_encoding R160, R163). -/

/-- OPC of an instruction (30_encoding R163). -/
def Instr.opc : Instr → Nat
  | .create => 0x01
  | .destroy => 0x02
  | .modulate => 0x03
  | .getNin => 0x04
  | .demodulate => 0x05
  | .syncSearch => 0x06
  | .runSyncSm _ => 0x07
  | .setSyncPolicy _ => 0x08
  | .setPhaseBw _ => 0x09
  | .enableTiming _ => 0x0A
  | .enableFreq _ => 0x0B
  | .enablePhase _ => 0x0C
  | .setDpsk _ => 0x0D
  | .getStats => 0x0E
  | .ldpcEncode _ => 0x10
  | .ldpcDecode _ => 0x11
  | .ilPush => 0x20
  | .berReset => 0x21

/-- The number of a policy (40_control R210, 10_state R48). -/
def Policy.code : Policy → Nat
  | .unsynced => 0
  | .auto => 1
  | .manual => 2

/-- The number of a bandwidth (40_control R212, 10_state R49). -/
def PhaseBw.code : PhaseBw → Nat
  | .low => 0
  | .high => 1

/-- The number of an event source (30_encoding R163). -/
def EventSource.code : EventSource → Nat
  | .arg0 => 0
  | .lastFrame => 1

/-- IMM8 of an instruction (30_encoding R163). -/
def Instr.imm8 : Instr → Nat
  | .runSyncSm src => src.code
  | .setSyncPolicy p => p.code
  | .setPhaseBw b => b.code
  | .enableTiming f => f.toNat
  | .enableFreq f => f.toNat
  | .enablePhase f => f.toNat
  | .setDpsk f => f.toNat
  | .ldpcEncode slot => slot.toNat
  | .ldpcDecode slot => slot.toNat
  | .create | .destroy | .modulate | .getNin | .demodulate | .syncSearch => 0
  | .getStats | .ilPush | .berReset => 0

/-- The command word of an instruction (30_encoding R160): RSV is 0. -/
def encode (i : Instr) : Word := BitVec.ofNat 32 (0x100 * i.imm8 + i.opc)

end Sys2Proof
end

