-- ==== Sys2Proof/Machine/State.lean ====
section
/-! DEFINITION. The state of CORE-v1 as plain data (10_state), the reasons a step can stop, and the state after a
power-on reset (70_reset R550). -/

namespace Sys2Proof.Machine

/-- Why the machine stops (60_exceptions R510). A first bad access does not stop the run: it RECORDS its reason in
`faultReason`. The outcome `fault` is raised by a later host access to the faulted machine, about which the spec claims
nothing (log 2); safe: no claim can be made past it. No command raises a fault. -/
inductive Fault where
  /-- Raised by the host's access step, for an unmapped address, a register access that is not an aligned 32-bit word,
  or a window access that is misaligned or not 8, 16 or 32 bits wide (20_memory R122, R127). Safe. -/
  | busError
  /-- Raised by the host's access step while BUSY = 1 (20_memory R141). Safe. -/
  | hostRace
  deriving DecidableEq, Repr

/-- Why the model has no meaning for an instruction. -/
inductive Refusal where
  /-- Raised by an arm of `exec` whose instruction has no meaning yet; safe. No arm of this model raises it. -/
  | notModelled (mnemonic : String)
  deriving DecidableEq, Repr

/-- The frame synchronization state (10_state R69). -/
inductive SyncState where
  | searching
  | trial
  | synced
  deriving DecidableEq, Repr, Inhabited

/-- The interleaver synchronization state (10_state R72). -/
inductive IlState where
  | search
  | trial
  | synced
  deriving DecidableEq, Repr, Inhabited

/-- The error codes a command can report (60_exceptions R502). Code 5 (Busy) and 7..255 are never written. -/
inductive ErrCode where
  | none
  | configError
  | contractViolation
  | illegalCommand
  | notConfigured
  | badArgument
  deriving DecidableEq, Repr, Inhabited

/-- The latched configuration `st.cfg` (10_state R60, 20_memory R128). Integer fields are unbounded integers. -/
structure ModemConfig where
  nc : Nat
  ns : Nat
  bps : Nat
  m : Nat
  ncp : Nat
  nuwbits : Nat
  ntxtbits : Nat
  ilFrames : Nat
  trialFrames : Nat
  falloutFrames : Nat
  uwThresh : Nat
  ftWin : Nat
  codeId : Nat
  ilPassMin : Nat
  ilTrialBlocks : Nat
  ilFalloutBlocks : Nat
  decType : Nat
  txFiltLen : Nat
  fs : F64
  timingMxThresh : F64
  foffEstGain : F64
  timingGain : F64
  txScale : F64
  msScale : F64
  llrMax : F64
  sigma2Min : F64
  carrierBins : List Nat
  pilots : List C64
  uwBits : List Bool
  uwPos : List Nat
  txtPos : List Nat
  txFilt : List F64
  testPattern : List Bool
  ilPerm : List Nat
  deriving DecidableEq, Repr

/-- One frame record of the interleaver ring (10_state R72). -/
structure IlRecord where
  z : List C64
  a : List F64
  sigma2 : F64
  deriving DecidableEq, Repr

/-- The modem and interleaver state that exists while CONFIGURED = 1 (10_state R60 to R74). -/
structure Modem where
  cfg : ModemConfig
  -- stream (R62)
  tAbs : Nat
  /-- the last RXBUF_LEN samples, oldest first -/
  rx : List C64
  /-- `st.F` -/
  frameStart : Int
  nin : Nat
  -- frequency (R63)
  foffEst : F64
  foffPhase : F64
  -- timing (R64)
  driftAcc : F64
  timingMx : F64
  -- phase estimator history (R65)
  prevPilot : List C64
  prevValid : Bool
  -- last frame output (R66)
  outValid : Bool
  outZ : List C64
  outA : List F64
  outPhi : List F64
  outBits : List Bool
  outSigma2 : F64
  uwErrs : Nat
  snrDb : F64
  frameCount : Nat
  -- clock offset (R67)
  clkAdjSum : Int
  clkSamples : Int
  clockPpm : F64
  -- acquisition candidate (R68)
  candValid : Bool
  candPos : Int
  candFoff : F64
  -- sync machine (R69)
  syncState : SyncState
  good : Nat
  bad : Nat
  policy : Policy
  -- mode (R70)
  phaseBw : PhaseBw
  timingEn : Bool
  foffEn : Bool
  phaseEn : Bool
  dpsk : Bool
  -- modulator (R71): most recent first
  filtHist : List C64
  -- interleaver (R72)
  ilRing : List IlRecord
  ilState : IlState
  ilSince : Nat
  ilGood : Nat
  ilBad : Nat
  ilLast : Nat
  -- interleaver results (R73)
  ilDecBits : List Bool
  ilIter : Nat
  ilPass : Nat
  ilValid : Bool
  ilConv : Bool
  -- BER counters (R74)
  berBits : Nat
  berErrs : Nat
  deriving DecidableEq, Repr

/-- One access of the host port (20_memory R120, R127). `width` is in bytes; only 1, 2 and 4 can be legal. A write of
1 or 2 bytes takes the low bits of `value`. -/
inductive HostOp where
  | read (width : Nat) (addr : BitVec 24)
  | write (width : Nat) (addr : BitVec 24) (value : Word)
  deriving DecidableEq, Repr

/-- One step of a run (60_exceptions R540): a host access, a core step, or a power-on reset (log 1). -/
inductive Turn where
  | host (op : HostOp)
  | core
  | powerOn
  deriving DecidableEq, Repr

/-- The whole machine. -/
structure State where
  -- registers (10_state R44 to R50)
  ctrl : Word
  done : Bool
  err : Bool
  nonconv : Bool
  errcode : ErrCode
  arg0 : Word
  arg1 : Word
  arg2 : Word
  arg3 : Word
  res0 : Word
  res1 : Word
  res2 : Word
  res3 : Word
  irqEn : Word
  irqPend : Word
  -- core bookkeeping (10_state R77)
  busy : Bool
  cmd : Word
  cmdCtrl : Word
  faulted : Bool
  faultReason : Option Fault
  /-- the bytes of the CFG and buffer windows written since power-on (20_memory R121, log 4) -/
  mem : List Host.Cell
  /-- the modem state, `none` while it is unset (70_reset R550, 40_control R205, log 22) -/
  modem : Option Modem
  /-- the model's own: what moves next, in order (60_exceptions R540, log 1) -/
  turns : List Turn
  /-- the model's own: the data the last host read returned (log 3) -/
  busData : Word
  /-- the model's own: how many power-on resets came since the first (log 3) -/
  porCount : Nat
  deriving DecidableEq, Repr

/-- The machine after a power-on reset (70_reset R550 to R552, 10_state R44, R77). `turns`, `busData` and `porCount` are
the model's own (DESIGN CHOICE, log 1 and log 3). -/
def State.reset : State where
  ctrl := 0
  done := false
  err := false
  nonconv := false
  errcode := .none
  arg0 := 0
  arg1 := 0
  arg2 := 0
  arg3 := 0
  res0 := 0
  res1 := 0
  res2 := 0
  res3 := 0
  irqEn := 0
  irqPend := 0
  busy := false
  cmd := 0
  cmdCtrl := 0
  faulted := false
  faultReason := none
  mem := []
  modem := none
  turns := []
  busData := 0
  porCount := 0

end Sys2Proof.Machine
end

