-- ==== Sys2Proof/Machine/Flags.lean ====
section
/-! DEFINITION. The status, mode and interrupt words as views of the state (10_state R46 to R51), and the interrupt
pending bits (60_exceptions R520). -/

namespace Sys2Proof.Machine

/-- A 32-bit word from a list of bits, least significant first. -/
def bitsWord : List Bool → Nat
  | [] => 0
  | b :: bs => b.toNat + 2 * bitsWord bs

/-- STATUS.CONFIGURED (10_state R46): the modem state exists (log 22). -/
def State.configured (s : State) : Bool := s.modem.isSome

/-- A value of the modem, 0 (or false) while it is unset (40_control R205, 10_state R48, R49). -/
def State.view {α : Type} (s : State) (default : α) (f : Modem → α) : α :=
  match s.modem with
  | some m => f m
  | none => default

/-- STATUS (10_state R46). -/
def State.status (s : State) : Word :=
  BitVec.ofNat 32 (bitsWord [s.busy, s.done, s.err, s.configured, s.view false Modem.outValid,
    s.view false Modem.candValid, s.nonconv, s.view false Modem.ilValid, s.view false Modem.ilConv])

/-- The numbers of the sync states (10_state R48). -/
def SyncState.code : SyncState → Nat
  | .searching => 0
  | .trial => 1
  | .synced => 2

/-- The numbers of the interleaver states (10_state R48). -/
def IlState.code : IlState → Nat
  | .search => 0
  | .trial => 1
  | .synced => 2

/-- SYNC while configured (10_state R48). GOOD and BAD saturate at 255. -/
def Modem.syncWord (m : Modem) : Word :=
  BitVec.ofNat 32 (m.syncState.code + 4 * m.ilState.code + 16 * m.policy.code + 0x100 * min m.good 255
    + 0x10000 * min m.bad 255)

/-- MODE while configured (10_state R49). -/
def Modem.modeWord (m : Modem) : Word :=
  BitVec.ofNat 32 (bitsWord [decide (m.phaseBw = .high), m.timingEn, m.foffEn, m.phaseEn, m.dpsk])

/-- The number of an error code (60_exceptions R502). -/
def ErrCode.code : ErrCode → Nat
  | .none => 0
  | .configError => 1
  | .contractViolation => 2
  | .illegalCommand => 3
  | .notConfigured => 4
  | .badArgument => 6

/-- The bits of IRQ_EN, IRQ_PEND (10_state R50) and CTRL (10_state R45) that exist; the others read 0. -/
def lowFour (w : Word) : Word := w &&& 0xF#32

def irqDone : Word := 0x1#32
def irqErr : Word := 0x2#32
def irqSyncChange : Word := 0x4#32
def irqIlBlock : Word := 0x8#32

/-- Set pending bits, whatever IRQ_EN holds (60_exceptions R520). -/
def State.raiseIrq (bits : Word) (s : State) : State := { s with irqPend := s.irqPend ||| bits }

/-- Set pending bits where a condition holds. -/
def State.raiseIrqIf (c : Bool) (bits : Word) (s : State) : State := if c then s.raiseIrq bits else s

/-- The interrupt line: the OR over the bits of pending and enabled (60_exceptions R520). -/
def State.irqLine (s : State) : Bool := decide (s.irqPend &&& s.irqEn ≠ 0#32)

/-- The fields of the CTRL value latched at acceptance (10_state R45, 60_exceptions R500). -/
def State.realIn (s : State) : Bool := s.cmdCtrl.getLsbD 0
def State.discardOnLoss (s : State) : Bool := s.cmdCtrl.getLsbD 1
def State.berTestEn (s : State) : Bool := s.cmdCtrl.getLsbD 2
def State.txFiltEn (s : State) : Bool := s.cmdCtrl.getLsbD 3

end Sys2Proof.Machine
end

