-- ==== Sys2Proof/Machine/Ops.lean ====
section
/-! DEFINITION. The operations over memory and registers that the commands and the host port share: bytes and
little-endian values (20_memory R123), the completion of a command (60_exceptions R501, R503), the acceptance of a command
word (60_exceptions R500) and the recording of a fault (60_exceptions R510). -/

namespace Sys2Proof.Machine

/-! ## Memory: written bytes at strictly rising addresses -/

namespace Memory

/-- Every address of the list is at least `lo`, and they rise strictly. -/
def rising : Nat → List Host.Cell → Bool
  | _, [] => true
  | lo, (a, _) :: rest => Nat.ble lo a && rising (a + 1) rest

/-- The canonical form: addresses rise strictly. An unlisted address holds no byte of its own, so no entry can equal
what it holds (log 4). -/
def wf (mem : List Host.Cell) : Bool := rising 0 mem

/-- The byte written at an address since power-on, if there is one. -/
def get? : List Host.Cell → Nat → Option Byte
  | [], _ => none
  | (a, b) :: rest, x => if x = a then some b else if x < a then none else get? rest x

/-- Write one byte, keeping the canonical form. -/
def set : List Host.Cell → Nat → Byte → List Host.Cell
  | [], x, v => [(x, v)]
  | (a, b) :: rest, x, v =>
    if x = a then (a, v) :: rest
    else if x < a then (x, v) :: (a, b) :: rest
    else (a, b) :: set rest x v

/-- Write bytes at rising addresses from `x` on. -/
def setBytes (mem : List Host.Cell) (x : Nat) : List Byte → List Host.Cell
  | [] => mem
  | v :: vs => setBytes (set mem x v) (x + 1) vs

end Memory

/-- What a byte of a window that nothing has written since power-on reads as: the draw `P_POR_MEM` (70_reset R551). -/
def State.unwritten (s : State) (a : Nat) : Byte := Config.porMem s.porCount a

/-- The byte at an address of the CFG or buffer windows. -/
def State.readByte (s : State) (a : Nat) : Byte := (Memory.get? s.mem a).getD (s.unwritten a)

/-- `MemRead(a, n)` (00_scope R16): `n` bytes as an unsigned integer, little-endian (20_memory R123). -/
def State.readLE (s : State) (a : Nat) : Nat → Nat
  | 0 => 0
  | n + 1 => (s.readByte a).toNat + 0x100 * s.readLE (a + 1) n

/-- The `n` bytes of an integer, least significant first (20_memory R123). -/
def bytesLE : Nat → Nat → List Byte
  | 0, _ => []
  | n + 1, v => BitVec.ofNat 8 v :: bytesLE n (v / 0x100)

/-- Write bytes from an address on. -/
def State.writeBytes (a : Nat) (bs : List Byte) (s : State) : State :=
  { s with mem := Memory.setBytes s.mem a bs }

/-! ## Completion (60_exceptions R501, R503) -/

/-- Success completion (60_exceptions R501). -/
def State.completeOk (s : State) : State :=
  { s with busy := false, done := true, err := false, errcode := .none, irqPend := s.irqPend ||| irqDone }

/-- Error completion (60_exceptions R503): CORE's form of taking an exception. Nothing but the status, the code and the
pending bits changes; there is no trap entry and no return (60_exceptions R525, R526). -/
def State.completeError (code : ErrCode) (s : State) : State :=
  { s with busy := false, done := true, err := true, errcode := code,
           irqPend := s.irqPend ||| irqDone ||| irqErr }

/-- Run a command that needs CONFIGURED = 1 (30_encoding R162 step 4). -/
def State.needModem (s : State) (f : Modem → State) : State :=
  match s.modem with
  | some m => f m
  | none => s.completeError .notConfigured

/-! ## Acceptance and faults -/

/-- An accepted CMD write (60_exceptions R500). -/
def State.acceptCommand (w : Word) (s : State) : State :=
  { s with cmd := w, cmdCtrl := s.ctrl, busy := true, done := false, err := false }

/-- `fault r` (60_exceptions R510): the model state is marked faulted and nothing else changes. -/
def State.recordFault (r : Fault) (s : State) : State :=
  { s with faulted := true, faultReason := some r }

/-- A power-on reset (70_reset R550): everything at its PoR value, the memory drawn anew. What is still to come of the
environment stays. -/
def State.powerOn (s : State) : State :=
  { State.reset with turns := s.turns, porCount := s.porCount + 1 }

end Sys2Proof.Machine
end

