-- ==== Sys2Proof/Machine/Operands.lean ====
section
/-! DEFINITION. The operand forms of the commands: the windows and their element formats (20_memory R121, R124), input
samples (42_demodulator R290), bits, LLRs, and the CFG block (20_memory R128). -/

namespace Sys2Proof.Machine

/-! ## Window bases (20_memory R121) -/

def cfgBase : Nat := 0x010000
def sampleInBase : Nat := 0x020000
def sampleOutBase : Nat := 0x030000
def symOutBase : Nat := 0x040000
def bitInBase : Nat := 0x050000
def bitOutBase : Nat := 0x060000
def decOutBase : Nat := 0x070000
def llrInBase : Nat := 0x080000
/-- The first address after the last window. -/
def windowEnd : Nat := 0x0C0000

/-! ## Reading elements -/

/-- A bit element: bit 0 of its byte (20_memory R124). -/
def State.readBit (s : State) (base i : Nat) : Bool := (s.readByte (base + i)).getLsbD 0

/-- Bit elements `start .. start + n - 1` of a bit window. -/
def State.readBits (s : State) (base start n : Nat) : List Bool :=
  (List.range n).map fun i => s.readBit base (start + i)

def State.readU32 (s : State) (a : Nat) : Nat := s.readLE a 4

def State.readF64 (s : State) (a : Nat) : F64 := BitVec.ofNat 64 (s.readLE a 8)

def State.readF32 (s : State) (a : Nat) : F32 := BitVec.ofNat 32 (s.readLE a 4)

/-- The stored components of SAMPLE_IN element `i` (20_memory R124). -/
def State.sampleRe (s : State) (i : Nat) : F32 := s.readF32 (sampleInBase + 8 * i)
def State.sampleIm (s : State) (i : Nat) : F32 := s.readF32 (sampleInBase + 8 * i + 4)

/-- `x_in[i]` (42_demodulator R290): with REAL_IN the imaginary part is +0.0. -/
def State.inputSample (s : State) (i : Nat) : C64 :=
  ⟨Fp.ofF32 (s.sampleRe i), if s.realIn then Fp.zero else Fp.ofF32 (s.sampleIm i)⟩

def State.inputSamples (s : State) (n : Nat) : List C64 := (List.range n).map s.inputSample

/-- Every component of the first `n` input samples that the conversion keeps is finite (42_demodulator R290). -/
def State.inputFinite (s : State) (n : Nat) : Bool :=
  (List.range n).all fun i =>
    Fp.isFinite32 (s.sampleRe i) && (s.realIn || Fp.isFinite32 (s.sampleIm i))

/-- LLR_IN elements 0 .. n-1 (20_memory R124). -/
def State.readLlrs (s : State) (n : Nat) : List F64 :=
  (List.range n).map fun v => s.readF64 (llrInBase + 8 * v)

/-! ## Writing elements -/

/-- A bit element is written as 0 or 1 (20_memory R124). -/
def bitByte (b : Bool) : Byte := if b then 1#8 else 0#8

def f32Bytes (x : F64) : List Byte := bytesLE 4 (Fp.toF32 x).toNat

/-- A complex sample: re then im, each binary32 (20_memory R124). -/
def sampleBytes (u : C64) : List Byte := f32Bytes u.re ++ f32Bytes u.im

/-- A symbol record: re, im, amplitude, phase (20_memory R124). -/
def symbolBytes (z : C64) (a phi : F64) : List Byte :=
  f32Bytes z.re ++ f32Bytes z.im ++ f32Bytes a ++ f32Bytes phi

def State.writeBits (base : Nat) (bs : List Bool) (s : State) : State :=
  s.writeBytes base (bs.map bitByte)

def State.writeSamples (base : Nat) (us : List C64) (s : State) : State :=
  s.writeBytes base (us.flatMap sampleBytes)

/-! ## The LDPC code tables (44_ldpc R400, R401) -/

/-- The real entries of a row or column: those before the first padding 0, made 0-based (44_ldpc R400). -/
def entries (l : List (BitVec 16)) : List Nat :=
  (l.takeWhile fun x => decide (x ≠ 0#16)).map fun x => x.toNat - 1

/-- `row(m)`: the variable nodes of a check. -/
def row (c : LdpcCode) (m : Nat) : List Nat := entries (c.hRows.getD m [])

/-- `col(v)`: the check nodes of a variable. -/
def col (c : LdpcCode) (v : Nat) : List Nat := entries (c.hCols.getD v [])

/-- `K = N - M` (10_state R75). -/
def codeK (c : LdpcCode) : Nat := c.n - c.m

/-- One row or column has the form of 44_ldpc R400: `weight` entries, each at most `limit`, and after the first 0 only
0; and by R401 item 1 it names no node twice. -/
def lineOk (weight limit : Nat) (l : List (BitVec 16)) : Bool :=
  decide (l.length = weight) && l.all (fun x => decide (x.toNat ≤ limit)) &&
  (l.dropWhile fun x => decide (x ≠ 0#16)).all (fun x => decide (x = 0#16)) && decide (entries l).Nodup

/-- R401 item 4 for check `m`: `K + m` is in the row and no later parity column is. -/
def triangular (c : LdpcCode) (m : Nat) : Bool :=
  (row c m).contains (codeK c + m) && (row c m).all fun v => decide (v ≤ codeK c + m)

/-- 44_ldpc R400 and R401: the conditions every table of `P_CODES` satisfies. -/
def codeWf (c : LdpcCode) : Bool :=
  decide (1 ≤ c.n) && decide (c.n ≤ 32768) && decide (1 ≤ c.m) && decide (c.m ≤ c.n) &&
  decide (c.n - c.m ≤ 4096) && decide (1 ≤ c.maxRowWeight) && decide (1 ≤ c.maxColWeight) &&
  decide (1 ≤ c.maxIter) && decide (c.maxIter ≤ 65535) &&
  decide (c.hRows.length = c.m) && decide (c.hCols.length = c.n) &&
  c.hRows.all (lineOk c.maxRowWeight c.n) && c.hCols.all (lineOk c.maxColWeight c.m) &&
  (List.range c.m).all (fun m => (row c m).all fun v => (col c v).contains m) &&
  (List.range c.n).all (fun v => (col c v).all fun m => (row c m).contains v) &&
  (List.range c.m).all (triangular c) &&
  c.pad.all (fun p => decide (p.1 < codeK c)) && decide (c.pad.map Prod.fst).Nodup

/-- A well-formed table with `N = 224`, `M = 112` and `H = [0 | I]`. It only stands in for a parameter value that the
spec rules out (log 5). -/
def stockCode : LdpcCode where
  n := 224
  m := 112
  maxRowWeight := 1
  maxColWeight := 1
  hRows := (List.range 112).map fun m => [BitVec.ofNat 16 (113 + m)]
  hCols := (List.replicate 112 [0#16]) ++ (List.range 112).map fun m => [BitVec.ofNat 16 (m + 1)]
  maxIter := 1
  pad := []

/-- A slot of `P_CODES` (00_scope R12): any table that satisfies R401, with `N = 224` and `M = 112` in slot 0. The set
of its values is exactly the set the spec allows (log 5). -/
def codeTable (slot : Nat) : LdpcCode :=
  let c := Config.pCodes slot
  if codeWf c && (decide (slot ≠ 0) || (decide (c.n = 224) && decide (c.m = 112))) then c else stockCode

/-! ## The CFG block (20_memory R128) -/

/-- `NPAY` from its parts (00_scope R10). -/
def npayOf (nc ns nuwbits ntxtbits : Nat) : Nat := nc * (ns - 1) - (nuwbits + ntxtbits) / 2

/-- CREATE's reading of the CFG block. A table longer than its limit is read up to the limit, since the validity checks
refuse it whatever it holds (40_control R201, log 21). -/
def State.readCfg (s : State) : ModemConfig :=
  let u (off : Nat) : Nat := s.readU32 (cfgBase + off)
  let f (off : Nat) : F64 := s.readF64 (cfgBase + off)
  let us (off n : Nat) : List Nat := (List.range n).map fun i => u (off + 4 * i)
  let fs (off n : Nat) : List F64 := (List.range n).map fun i => f (off + 8 * i)
  let nc := u 0x0000
  let ns := u 0x0004
  let nuwbits := u 0x0014
  let ntxtbits := u 0x0018
  let ilFrames := u 0x001C
  let codeId := u 0x0030
  let txFiltLen := u 0x0044
  { nc := nc
    ns := ns
    bps := u 0x0008
    m := u 0x000C
    ncp := u 0x0010
    nuwbits := nuwbits
    ntxtbits := ntxtbits
    ilFrames := ilFrames
    trialFrames := u 0x0020
    falloutFrames := u 0x0024
    uwThresh := u 0x0028
    ftWin := u 0x002C
    codeId := codeId
    ilPassMin := u 0x0034
    ilTrialBlocks := u 0x0038
    ilFalloutBlocks := u 0x003C
    decType := u 0x0040
    txFiltLen := txFiltLen
    fs := f 0x0080
    timingMxThresh := f 0x0088
    foffEstGain := f 0x0090
    timingGain := f 0x0098
    txScale := f 0x00A0
    msScale := f 0x00A8
    llrMax := f 0x00B0
    sigma2Min := f 0x00B8
    carrierBins := us 0x0100 (min nc 64)
    pilots := (List.range (min nc 64)).map fun i => ⟨f (0x0200 + 16 * i), f (0x0208 + 16 * i)⟩
    uwBits := s.readBits (cfgBase + 0x0600) 0 (min nuwbits 256)
    uwPos := us 0x0700 (min nuwbits 256)
    txtPos := us 0x0B00 (min ntxtbits 256)
    txFilt := fs 0x0F00 (min txFiltLen 128)
    testPattern := s.readBits (cfgBase + 0x1300) 0 (min (codeK (codeTable codeId)) 4096)
    ilPerm := us 0x2300 (min (ilFrames * npayOf nc ns nuwbits ntxtbits) 14144) }

/-! ## Derived quantities (00_scope R10) -/

namespace ModemConfig

/-- `SYM_LEN`. -/
def symLen (c : ModemConfig) : Nat := c.m + c.ncp
/-- `SPF`. -/
def spf (c : ModemConfig) : Nat := c.ns * c.symLen
/-- `NDS`. -/
def nds (c : ModemConfig) : Nat := c.nc * (c.ns - 1)
/-- `BPF`. -/
def bpf (c : ModemConfig) : Nat := c.nc * (c.ns - 1) * c.bps
/-- `LOOKAHEAD`. -/
def lookahead (c : ModemConfig) : Nat := c.symLen + c.ftWin
/-- `RXBUF_LEN`. -/
def rxbufLen (c : ModemConfig) : Nat := 3 * c.spf
/-- `Rs`, the symbol rate in Hz: `Fs / M`, without the prefix. -/
def rs (c : ModemConfig) : F64 := Fp.div c.fs (Fp.ofNat c.m)
/-- `Tcp`, the prefix duration in seconds: `NCP / Fs`. -/
def tcp (c : ModemConfig) : F64 := Fp.div (Fp.ofNat c.ncp) c.fs
/-- `NPAY`. -/
def npay (c : ModemConfig) : Nat := npayOf c.nc c.ns c.nuwbits c.ntxtbits
/-- The code of `CODE_ID`. -/
def code (c : ModemConfig) : LdpcCode := codeTable c.codeId

/-- A position list is symbol-closed (40_control R201 check 13). -/
def symbolClosed (l : List Nat) : Bool := l.all fun p => l.contains (Nat.xor p 1)

/-- Check 20 of 40_control R201, for `IL_FRAMES >= 1`. -/
def ilValidCfg (c : ModemConfig) : Bool :=
  decide (c.npay * 2 = c.code.n) && decide (c.ilFrames * c.npay ≤ 14144) &&
  decide (c.ilPerm.length = c.ilFrames * c.npay) &&
  c.ilPerm.all (fun i => decide (i < c.ilFrames * c.npay)) && decide c.ilPerm.Nodup &&
  decide (c.ilPassMin ≤ c.code.m) && decide (1 ≤ c.ilTrialBlocks) && decide (1 ≤ c.ilFalloutBlocks)

/-- The twenty checks of 40_control R201, in its order. -/
def checks (c : ModemConfig) : List Bool :=
  [ decide (1 ≤ c.nc) && decide (c.nc ≤ 64),
    decide (2 ≤ c.ns),
    decide (c.nds ≤ 4096),
    decide (c.bps = 2),
    decide (1 ≤ c.m),
    decide (c.ncp ≤ c.m),
    decide (c.spf ≤ 8191),
    decide (c.lookahead ≤ c.spf - 1),
    c.carrierBins.all (fun b => decide (b < c.m)) && decide c.carrierBins.Nodup,
    c.pilots.all (fun p => Cx.isFinite p && !Cx.isZero p),
    Fp.isFinite c.fs && Fp.lt Fp.zero c.fs,
    decide (c.nuwbits ≤ 256) && decide (c.ntxtbits ≤ 256) && decide (c.nuwbits % 2 = 0) &&
      decide (c.ntxtbits % 2 = 0),
    (c.uwPos ++ c.txtPos).all (fun p => decide (p < c.bpf)) && decide (c.uwPos ++ c.txtPos).Nodup &&
      symbolClosed c.uwPos && symbolClosed c.txtPos,
    decide (1 ≤ c.trialFrames) && decide (1 ≤ c.falloutFrames),
    decide (c.codeId ≤ 2) && decide (c.decType ≤ 1),
    decide (c.txFiltLen ≤ 128) && c.txFilt.all Fp.isFinite,
    Fp.isFinite c.timingMxThresh && Fp.le Fp.zero c.timingMxThresh && Fp.le c.timingMxThresh Fp.one,
    Fp.isFinite c.foffEstGain && Fp.le Fp.zero c.foffEstGain && Fp.isFinite c.timingGain &&
      Fp.le Fp.zero c.timingGain,
    [c.txScale, c.msScale, c.llrMax, c.sigma2Min].all fun x => Fp.isFinite x && Fp.lt Fp.zero x,
    decide (c.ilFrames = 0) || c.ilValidCfg ]

/-- `valid(cfg)` (40_control R201). -/
def valid (c : ModemConfig) : Bool := c.checks.all id

end ModemConfig

end Sys2Proof.Machine
end

