-- ==== Sys2Proof/Machine/SyncMachine.lean ====
section
/-! DEFINITION. The frame synchronization state machine (43_sync): the transition table of R361, `enter_searching` (R368)
and RUN_SYNC_SM (R360). -/

namespace Sys2Proof.Machine

/-- The event of RUN_SYNC_SM (43_sync R360). -/
inductive SyncEvent where
  | frame (e : Nat)
  | noFrame
  deriving DecidableEq, Repr

/-- The rows of the table of 43_sync R361. -/
inductive SyncRow where
  | row1 | row2 | row3 | row4 | row5 | row6 | row7 | row8 | row9 | row10 | row11 | row12
  deriving DecidableEq, Repr

/-- The row that applies (43_sync R361): a frame event `e` is good when `e < UW_THRESH` and bad otherwise. -/
def syncRow (state : SyncState) (policy : Policy) (cand : Bool) (good bad : Nat)
    (uwThresh trialFrames falloutFrames : Nat) (ev : SyncEvent) : SyncRow :=
  match policy, state, ev with
  | .unsynced, _, _ => .row1
  | _, .searching, _ => if cand then .row2 else .row3
  | _, .trial, .noFrame => .row4
  | _, .trial, .frame e =>
    if e < uwThresh then (if trialFrames ≤ good + 1 then .row5 else .row6) else .row7
  | _, .synced, .noFrame => .row8
  | .auto, .synced, .frame e =>
    if e < uwThresh then .row9 else if falloutFrames ≤ bad + 1 then .row10 else .row11
  | .manual, .synced, .frame e => if e < uwThresh then .row9 else .row12

/-- `enter_searching()` (43_sync R368). `discard` is CTRL.DISCARD_ON_LOSS. -/
def Modem.enterSearching (discard : Bool) (m : Modem) : Modem :=
  { m with
    syncState := .searching
    good := 0
    bad := 0
    candValid := false
    prevValid := false
    ilState := .search
    ilRing := []
    ilSince := 0
    ilGood := 0
    ilBad := 0
    berBits := if discard then 0 else m.berBits
    berErrs := if discard then 0 else m.berErrs }

/-- The action and next state of a row (43_sync R361). -/
def Modem.applySyncRow (discard : Bool) (m : Modem) : SyncRow → Modem
  | .row1 => m.enterSearching discard
  | .row2 => { m with candValid := false, good := 0, bad := 0, syncState := .trial }
  | .row3 => m
  | .row4 => m
  | .row5 => { m with good := 0, bad := 0, syncState := .synced }
  | .row6 => { m with good := m.good + 1 }
  | .row7 => m.enterSearching discard
  | .row8 => m
  | .row9 => { m with good := m.good + 1, bad := 0 }
  | .row10 => m.enterSearching discard
  | .row11 => { m with bad := m.bad + 1, good := 0 }
  | .row12 => { m with bad := m.bad + 1, good := 0 }

/-- One transition of the machine on an event (43_sync R361). -/
def Modem.syncStep (discard : Bool) (ev : SyncEvent) (m : Modem) : Modem :=
  m.applySyncRow discard (syncRow m.syncState m.policy m.candValid m.good m.bad m.cfg.uwThresh
    m.cfg.trialFrames m.cfg.falloutFrames ev)

/-- The event of RUN_SYNC_SM (43_sync R360): ARG0, or the last emitted frame. -/
def syncEvent (src : EventSource) (s : State) (m : Modem) : SyncEvent :=
  match src with
  | .arg0 => .frame s.arg0.toNat
  | .lastFrame => if m.outValid then .frame m.uwErrs else .noFrame

/-- RUN_SYNC_SM (43_sync R360): RES0 is the state's number, RES1 the SyncLoss indicator. -/
def execRunSyncSm (src : EventSource) (s : State) : Host.Outcome State Fault Refusal :=
  .next (s.needModem fun m =>
    let m' := m.syncStep s.discardOnLoss (syncEvent src s m)
    let loss := decide (m.syncState ≠ .searching ∧ m'.syncState = .searching)
    ({ s with modem := some m', res0 := BitVec.ofNat 32 m'.syncState.code,
              res1 := BitVec.ofNat 32 loss.toNat }.raiseIrqIf
        (decide (m'.syncState ≠ m.syncState)) irqSyncChange).completeOk)

end Sys2Proof.Machine
end

