-- ==== Sys2Proof/Machine/Control.lean ====
section
/-! DEFINITION. The lifecycle and control commands (40_control): CREATE, DESTROY, GET_NIN, the setters, GET_STATS. -/

namespace Sys2Proof.Machine

/-- The modem state right after CREATE (10_state R62 to R74, 40_control R202). -/
def Modem.fresh (c : ModemConfig) : Modem where
  cfg := c
  tAbs := 0
  rx := List.replicate c.rxbufLen Cx.zero
  frameStart := 0
  nin := c.spf
  foffEst := Fp.zero
  foffPhase := Fp.zero
  driftAcc := Fp.zero
  timingMx := Fp.zero
  prevPilot := List.replicate c.nc Cx.zero
  prevValid := false
  outValid := false
  outZ := List.replicate c.nds Cx.zero
  outA := List.replicate c.nds Fp.zero
  outPhi := List.replicate c.nds Fp.zero
  outBits := List.replicate c.bpf false
  outSigma2 := c.sigma2Min
  uwErrs := 0
  snrDb := Fp.zero
  frameCount := 0
  clkAdjSum := 0
  clkSamples := 0
  clockPpm := Fp.zero
  candValid := false
  candPos := 0
  candFoff := Fp.zero
  syncState := .searching
  good := 0
  bad := 0
  policy := .auto
  phaseBw := .high
  timingEn := true
  foffEn := true
  phaseEn := true
  dpsk := false
  filtHist := List.replicate 127 Cx.zero
  ilRing := []
  ilState := .search
  ilSince := 0
  ilGood := 0
  ilBad := 0
  ilLast := 0
  ilDecBits := List.replicate (c.ilFrames * codeK c.code) false
  ilIter := 0
  ilPass := 0
  ilValid := false
  ilConv := false
  berBits := 0
  berErrs := 0

/-- The body of DESTROY (40_control R205): the modem fields become unset, so every view of them reads 0. It sets no pending
bit: CREATE and DESTROY are no writers of the sync state (43_sync R362, log 14). -/
def State.destroyBody (s : State) : State :=
  if s.configured then { s with modem := none, nonconv := false } else s

/-- CREATE's effect on a valid configuration (40_control R200). RES1..RES3 read 0 after CREATE (10_state R44, log 13). -/
def State.install (c : ModemConfig) (s : State) : State :=
  { s with modem := some (Modem.fresh c), nonconv := false,
           res0 := BitVec.ofNat 32 c.spf, res1 := 0, res2 := 0, res3 := 0 }

/-- CREATE (40_control R200): destroy the old instance, then latch the CFG block if it is valid. Of IRQ_PEND it sets the bits of
its completion only (10_state R44, 70_reset R553, log 14). -/
def State.create (s : State) : State :=
  if s.readCfg.valid then (s.destroyBody.install s.readCfg).completeOk
  else s.destroyBody.completeError .configError

/-- CREATE (40_control R200 to R202). -/
def execCreate (s : State) : Host.Outcome State Fault Refusal := .next s.create

/-- DESTROY (40_control R205). -/
def execDestroy (s : State) : Host.Outcome State Fault Refusal := .next s.destroyBody.completeOk

/-- GET_NIN (40_control R207). -/
def execGetNin (s : State) : Host.Outcome State Fault Refusal :=
  .next (s.needModem fun m => { s with res0 := BitVec.ofNat 32 m.nin }.completeOk)

/-- A command that only changes the modem fields. -/
def State.updateModem (s : State) (f : Modem → Modem) : State :=
  s.needModem fun m => { s with modem := some (f m) }.completeOk

/-- `st.policy <- p`, and Unsynced enters Searching (40_control R210). -/
def Modem.setPolicy (p : Policy) (discard : Bool) (m : Modem) : Modem :=
  let m' := { m with policy := p }
  if p = .unsynced then m'.enterSearching discard else m'

/-- SET_SYNC_POLICY (40_control R210): SYNC_CHANGE where the sync state changed (43_sync R369). -/
def execSetSyncPolicy (p : Policy) (s : State) : Host.Outcome State Fault Refusal :=
  .next (s.needModem fun m =>
    let m' := m.setPolicy p s.discardOnLoss
    ({ s with modem := some m' }.raiseIrqIf (decide (m'.syncState ≠ m.syncState)) irqSyncChange).completeOk)

/-- SET_PHASE_BW (40_control R212). -/
def execSetPhaseBw (b : PhaseBw) (s : State) : Host.Outcome State Fault Refusal :=
  .next (s.updateModem fun m => { m with phaseBw := b })

/-- ENABLE_TIMING (40_control R214). -/
def execEnableTiming (f : Bool) (s : State) : Host.Outcome State Fault Refusal :=
  .next (s.updateModem fun m => { m with timingEn := f })

/-- ENABLE_FREQ (40_control R215). -/
def execEnableFreq (f : Bool) (s : State) : Host.Outcome State Fault Refusal :=
  .next (s.updateModem fun m => { m with foffEn := f })

/-- ENABLE_PHASE (40_control R216). -/
def execEnablePhase (f : Bool) (s : State) : Host.Outcome State Fault Refusal :=
  .next (s.updateModem fun m => { m with phaseEn := f })

/-- SET_DPSK (40_control R217). -/
def execSetDpsk (f : Bool) (s : State) : Host.Outcome State Fault Refusal :=
  .next (s.updateModem fun m => { m with dpsk := f })

/-- GET_STATS (40_control R220). -/
def execGetStats (s : State) : Host.Outcome State Fault Refusal :=
  .next (s.needModem fun m =>
    { s with res0 := BitVec.ofNat 32 m.syncState.code, res1 := Fp.toF32 m.snrDb,
             res2 := Fp.toF32 m.clockPpm, res3 := Fp.toF32 m.timingMx }.completeOk)

end Sys2Proof.Machine
end

