-- ==== Sys2Proof/Machine/Modulator.lean ====
section
/-! DEFINITION. The OFDM modulator (41_modulator) and the frame layout shared with the demodulator. -/

namespace Sys2Proof.Machine

/-- `r = sqrt(0.5)` (41_modulator R252). -/
def rootHalf : F64 := Fp.sqrt Fp.half

/-- `s(b) * r` (41_modulator R252). -/
def axisPoint (b : Bool) : F64 := Fp.mul (if b then Fp.neg Fp.one else Fp.one) rootHalf

/-- The QPSK map (41_modulator R252): the first bit signs the real axis, the second the imaginary one. -/
def qpsk (b0 b1 : Bool) : C64 := ⟨axisPoint b0, axisPoint b1⟩

/-- One symbol row on the wire (41_modulator R255): the inverse transform of the carrier values, preceded by its last
`NCP` samples. -/
def symbolRow (c : ModemConfig) (x : List C64) : List C64 :=
  let u := (List.range c.m).map fun n =>
    Cx.smul (Fp.div Fp.one (Fp.ofNat c.m))
      (Cx.sum (List.zipWith (fun v b => Cx.mul v (Cx.twiddle c.m (b * n))) x c.carrierBins))
  u.drop (c.m - c.ncp) ++ u

/-- Write `bits[k]` at frame position `pos[k]` for every `k` (41_modulator R250). -/
def placeBits (b : List Bool) (pos : List Nat) (bits : List Bool) : List Bool :=
  (List.zip pos bits).foldl (fun acc p => acc.set p.1 p.2) b

/-- The bits of a frame (41_modulator R250, R251): the caller's, with the unique word forced, and the text bits where
they are supplied. -/
def frameBits (c : ModemConfig) (caller : List Bool) (text : Option (List Bool)) : List Bool :=
  let b := placeBits caller c.uwPos c.uwBits
  match text with
  | some t => placeBits b c.txtPos t
  | none => b

/-- The mapped points of data row `r` (41_modulator R251): symbols `(r - 1) * NC ..`, carrier by carrier. -/
def rowPoints (c : ModemConfig) (b : List Bool) (r : Nat) : List C64 :=
  (List.range c.nc).map fun k =>
    let i := (r - 1) * c.nc + k
    qpsk (b.getD (2 * i) false) (b.getD (2 * i + 1) false)

/-- The carrier values of rows `r, r + 1, ..` after the row `prev` (41_modulator R250, R253): with DPSK each point
multiplies the value of the row before on its carrier. -/
def dataRows (c : ModemConfig) (dpsk : Bool) (b : List Bool) : Nat → Nat → List C64 → List (List C64)
  | 0, _, _ => []
  | count + 1, r, prev =>
    let pts := rowPoints c b r
    let x := if dpsk then List.zipWith Cx.mul pts prev else pts
    x :: dataRows c dpsk b count (r + 1) x

/-- The unfiltered frame `v` (41_modulator R250): the pilot row, then the data rows. -/
def frameSamples (c : ModemConfig) (dpsk : Bool) (b : List Bool) : List C64 :=
  (c.pilots :: dataRows c dpsk b (c.ns - 1) 1 c.pilots).flatMap (symbolRow c)

/-- `v'[n - k]` of the transmit filter (41_modulator R256): history before the frame's first sample. -/
def delayed (v hist : List C64) (n k : Nat) : C64 :=
  if k ≤ n then v.getD (n - k) Cx.zero else hist.getD (k - n - 1) Cx.zero

/-- The transmit filter (41_modulator R256). -/
def txFilter (c : ModemConfig) (enabled : Bool) (hist v : List C64) : List C64 :=
  if enabled && decide (1 ≤ c.txFiltLen) then
    (List.range v.length).map fun n =>
      Cx.sum ((List.range c.txFiltLen).map fun k => Cx.smul (c.txFilt.getD k Fp.zero) (delayed v hist n k))
  else v

/-- The filter history after a frame (41_modulator R256): the last samples, most recent first. -/
def nextHist (hist v : List C64) : List C64 := (v.reverse ++ hist).take 127

/-- MODULATE on a configured modem after its checks (41_modulator R250). -/
def State.modulateFrame (s : State) (m : Modem) : State :=
  let c := m.cfg
  let caller := s.readBits bitInBase 0 c.bpf
  let text := if s.arg1.toNat = c.ntxtbits then some (s.readBits bitInBase 0x8000 c.ntxtbits) else none
  let v := frameSamples c m.dpsk (frameBits c caller text)
  let w := txFilter c s.txFiltEn m.filtHist v
  { (s.writeSamples sampleOutBase (w.map (Cx.smul c.txScale))) with
    modem := some { m with filtHist := nextHist m.filtHist v }
    res0 := BitVec.ofNat 32 c.spf }.completeOk

/-- MODULATE (41_modulator R250). -/
def execModulate (s : State) : Host.Outcome State Fault Refusal :=
  .next (s.needModem fun m =>
    if s.arg0.toNat ≠ m.cfg.bpf then s.completeError .contractViolation
    else if s.arg1.toNat ≠ 0 ∧ s.arg1.toNat ≠ m.cfg.ntxtbits then s.completeError .contractViolation
    else s.modulateFrame m)

end Sys2Proof.Machine
end

