-- ==== Sys2Proof/Machine/Demodulator.lean ====
section
/-! DEFINITION. The OFDM demodulator and its estimators, and SYNC_SEARCH (42_demodulator). Every function takes the modem
and gives the value its rule defines; `Modem.emit` puts them together in the order of R300. -/

namespace Sys2Proof.Machine

/-! ## The sample stream (R291, 00_scope R18) -/

/-- Append samples, keeping the last `RXBUF_LEN` (R291). -/
def Modem.append (xs : List C64) (m : Modem) : Modem :=
  let all := m.rx ++ xs
  { m with rx := all.drop (all.length - m.cfg.rxbufLen), tAbs := m.tAbs + xs.length }

/-- `x[i]`, by absolute index (00_scope R18). No rule reads outside the buffer; such a read would give 0 (log 24). -/
def Modem.sample (m : Modem) (i : Int) : C64 :=
  let k := i - ((m.tAbs : Int) - (m.cfg.rxbufLen : Int))
  if 0 ≤ k then m.rx.getD k.toNat Cx.zero else Cx.zero

/-- Samples `t .. t + n - 1`. -/
def Modem.window (m : Modem) (t : Int) (n : Nat) : List C64 :=
  (List.range n).map fun (i : Nat) => m.sample (t + (i : Int))

/-! ## The timing metric (R304) -/

/-- The pilot row waveform (R304). -/
def pilotWave (c : ModemConfig) : List C64 := symbolRow c c.pilots

/-- The normalized correlation of a window with the pilot waveform (R304). -/
def correlation (p xs : List C64) : F64 :=
  let corr := Cx.sum (List.zipWith (fun x q => Cx.mul x (Cx.conj q)) xs p)
  let energy := Fp.mul (Fp.sum (xs.map Cx.normSq)) (Fp.sum (p.map Cx.normSq))
  if Fp.lt Fp.zero energy then Fp.div (Cx.normSq corr) energy else Fp.zero

/-- `mx(t)` (R304). -/
def Modem.mx (m : Modem) (t : Int) : F64 := correlation (pilotWave m.cfg) (m.window t m.cfg.symLen)

/-- Go through candidates in order, keeping the first with the greatest metric (R301, R320). -/
def Modem.bestOf (m : Modem) (base : Int) (start : Int × F64) (cands : List Int) : Int × F64 :=
  cands.foldl (fun best tau => if Fp.lt best.2 (m.mx (base + tau)) then (tau, m.mx (base + tau)) else best) start

/-- The offsets fine timing tries after 0: -1, +1, -2, +2, .. (R301). -/
def fineOffsets (ftWin : Nat) : List Int :=
  (List.range ftWin).flatMap fun (k : Nat) => [-((k : Int) + 1), (k : Int) + 1]

/-! ## Fine timing (R301) -/

/-- The step `adj` the accumulated drift calls for, and the drift left (R301). -/
def driftStep (drift : F64) : Int × F64 :=
  if Fp.le Fp.one drift then (1, Fp.sub drift Fp.one)
  else if Fp.le drift (Fp.neg Fp.one) then (-1, Fp.add drift Fp.one)
  else (0, drift)

/-- `fine_timing()` (R301): the step, and the modem with its timing state updated. -/
def Modem.fineTiming (m : Modem) : Int × Modem :=
  if m.timingEn then
    let base := m.frameStart + (m.cfg.spf : Int)
    let best := m.bestOf base (0, m.mx base) (fineOffsets m.cfg.ftWin)
    let step := driftStep (Fp.add m.driftAcc (Fp.mul m.cfg.timingGain (Fp.ofInt best.1)))
    (step.1, { m with timingMx := best.2, driftAcc := step.2 })
  else (0, m)

/-! ## De-rotation and transform (R302, R303) -/

/-- The de-rotation angle of sample `F + n` (R302). -/
def Modem.rotation (m : Modem) (n : Nat) : F64 :=
  Fp.neg (Fp.add m.foffPhase
    (Fp.div (Fp.mul (Fp.mul Fp.twoPi m.foffEst) (Fp.ofNat n)) m.cfg.fs))

/-- `derotate(F, L)` (R302). With a zero estimate and phase the samples pass exactly (log 6). -/
def Modem.derotate (m : Modem) (len : Nat) : List C64 :=
  if Fp.isZero m.foffEst && Fp.isZero m.foffPhase then m.window m.frameStart len
  else (List.range len).map fun (n : Nat) =>
    Cx.mul (m.sample (m.frameStart + (n : Int))) (Cx.expj (m.rotation n))

/-- `dft(xd, s, c)` for one carrier bin, `off` counting from the start of `xd` (R303). -/
def dftBin (mLen : Nat) (xd : List C64) (off bin : Nat) : C64 :=
  Cx.sum ((List.range mLen).map fun n =>
    Cx.mul (xd.getD (off + n) Cx.zero) (Cx.conj (Cx.twiddle mLen (bin * n))))

/-- The carrier values of a symbol row whose body starts at `off`. -/
def dftRow (c : ModemConfig) (xd : List C64) (off : Nat) : List C64 :=
  c.carrierBins.map (dftBin c.m xd off)

/-! ## Channel estimation (R305) -/

/-- The pilot sets of the averaging window, in the order of R305: `o` ascending. -/
def Modem.pilotSets (m : Modem) (ht hn : List C64) : List (List C64) :=
  (if m.phaseBw = .low && m.prevValid then [m.prevPilot] else []) ++ [ht, hn]

/-- The terms of carrier `c` in one pilot set: `d` ascending over -1, 0, +1 within the carriers (R305). -/
def neighbours (nc : Nat) (h : List C64) (c : Nat) : List C64 :=
  ((if 1 ≤ c then [c - 1] else []) ++ [c] ++ (if c + 1 < nc then [c + 1] else [])).map fun k => h.getD k Cx.zero

/-- The terms of carrier `c` (R305). -/
def Modem.channelTerms (m : Modem) (ht hn : List C64) (c : Nat) : List C64 :=
  (m.pilotSets ht hn).flatMap fun h => neighbours m.cfg.nc h c

/-- `phi[c]` (R305). -/
def Modem.channelPhase (m : Modem) (ht hn : List C64) (c : Nat) : F64 :=
  Cx.arg (Cx.sum (m.channelTerms ht hn c))

/-- `A[c]` (R305). -/
def Modem.channelAmp (m : Modem) (ht hn : List C64) (c : Nat) : F64 :=
  let terms := m.channelTerms ht hn c
  Fp.div (Fp.sum (terms.map Cx.abs)) (Fp.ofNat terms.length)

/-! ## Symbol correction and demapping (R306, R307) -/

/-- `correct(Y, phi, A, i)` on the carrier values `y` and `yPrev` of the symbol's row and the row before (R306). -/
def Modem.correct (m : Modem) (phi a : F64) (pilot y yPrev : C64) : C64 :=
  if m.dpsk then
    if Fp.lt Fp.zero a then
      Cx.divReal (Cx.mul y (Cx.conj yPrev)) (Fp.mul a (Cx.normSq pilot))
    else Cx.zero
  else if m.phaseEn then Cx.mul y (Cx.expj (Fp.neg phi))
  else y

/-- The hard bits of the symbols (R307): a negative axis is 1. -/
def demapBits (z : List C64) : List Bool :=
  z.flatMap fun u => [Fp.lt u.re Fp.zero, Fp.lt u.im Fp.zero]

/-- The unique-word error count (R307). -/
def uwErrors (c : ModemConfig) (bits : List Bool) : Nat :=
  (List.zip c.uwPos c.uwBits).countP fun p => bits.getD p.1 false != p.2

/-! ## Noise, frequency and clock (R308, R309, R311, R312) -/

/-- `sigma2` (R311). -/
def noiseVar (c : ModemConfig) (ht hn : List C64) : F64 :=
  Fp.max c.sigma2Min
    (Fp.mul (Fp.div Fp.one (Fp.ofNat (2 * c.nc)))
      (Fp.sum (List.zipWith (fun a b => Cx.normSq (Cx.sub b a)) ht hn)))

/-- The pilot power `S` (R311). -/
def pilotPower (c : ModemConfig) (ht : List C64) : F64 :=
  Fp.mul (Fp.div Fp.one (Fp.ofNat c.nc)) (Fp.sum (ht.map Cx.normSq))

/-- `snr_db` (R311): minus infinity where `S = 0`. -/
def snrOf (power sigma2 : F64) : F64 :=
  if Fp.isZero power then Fp.negInf else Fp.mul Fp.ten (Config.log10 (Fp.div power sigma2))

/-- The pilot-to-pilot phase step `delta` (R308). -/
def phaseStep (ht hn : List C64) : F64 :=
  Cx.arg (Cx.sum (List.zipWith (fun a b => Cx.mul b (Cx.conj a)) ht hn))

/-- The fine frequency update over a frame of `len` samples (R308). -/
def Modem.fineFreq (m : Modem) (ht hn : List C64) (len : Int) : F64 :=
  if m.foffEn then
    Fp.add m.foffEst
      (Fp.div (Fp.mul (Fp.mul m.cfg.foffEstGain (phaseStep ht hn)) m.cfg.fs) (Fp.mul Fp.twoPi (Fp.ofInt len)))
  else m.foffEst

/-- The de-rotation phase at the next frame (R309). -/
def Modem.nextPhase (m : Modem) (len : Int) : F64 :=
  Fp.wrapAngle (Fp.add m.foffPhase
    (Fp.div (Fp.mul (Fp.mul Fp.twoPi m.foffEst) (Fp.ofInt len)) m.cfg.fs))

/-- `clock_ppm` (R312). -/
def clockPpmOf (adjSum samples : Int) : F64 :=
  Fp.div (Fp.mul Fp.million (Fp.ofInt adjSum)) (Fp.ofInt samples)

/-! ## The emitted frame (R300, R313) -/

/-- What an emission computes, before it is written anywhere. -/
structure Emission where
  z : List C64
  a : List F64
  phi : List F64
  bits : List Bool
  deriving DecidableEq, Repr

/-- The corrected symbols and their metadata, data rows in time order, carrier by carrier (R306, R313). `rows` are the
carrier values of rows 0 .. NS-1. -/
def Modem.symbols (m : Modem) (rows : List (List C64)) (ht hn : List C64) : Emission :=
  let c := m.cfg
  let phis := (List.range c.nc).map (m.channelPhase ht hn)
  let amps := (List.range c.nc).map (m.channelAmp ht hn)
  let idx := (List.range c.nds).map fun i => (1 + i / c.nc, i % c.nc)
  let z := idx.map fun rc =>
    m.correct (phis.getD rc.2 Fp.zero) (amps.getD rc.2 Fp.zero) (c.pilots.getD rc.2 Cx.zero)
      ((rows.getD rc.1 []).getD rc.2 Cx.zero) ((rows.getD (rc.1 - 1) []).getD rc.2 Cx.zero)
  { z := z
    a := idx.map fun rc => amps.getD rc.2 Fp.zero
    phi := idx.map fun rc => phis.getD rc.2 Fp.zero
    bits := demapBits z }

/-- Pilot removal (R300). -/
def pilotRemoved (c : ModemConfig) (y : List C64) : List C64 := List.zipWith Cx.div y c.pilots

/-- The frame an emission reads and what the modem becomes (R300 to R313). `m` is the modem after the append. -/
def Modem.emit (m : Modem) : Emission × Modem :=
  let c := m.cfg
  let ft := m.fineTiming
  let len : Int := (c.spf : Int) + ft.1
  let m1 := ft.2
  let xd := m1.derotate (len.toNat + c.symLen)
  let rows := (List.range c.ns).map fun r => dftRow c xd (r * c.symLen + c.ncp)
  let ht := pilotRemoved c (rows.getD 0 [])
  let hn := pilotRemoved c (dftRow c xd (len.toNat + c.ncp))
  let e := m1.symbols rows ht hn
  let sigma2 := noiseVar c ht hn
  (e,
    { m1 with
      outSigma2 := sigma2
      snrDb := snrOf (pilotPower c ht) sigma2
      foffEst := m1.fineFreq ht hn len
      foffPhase := m1.nextPhase len
      prevPilot := ht
      prevValid := true
      frameStart := m1.frameStart + len
      nin := len.toNat
      clkAdjSum := m1.clkAdjSum + ft.1
      clkSamples := m1.clkSamples + len
      clockPpm := clockPpmOf (m1.clkAdjSum + ft.1) (m1.clkSamples + len)
      outZ := e.z
      outA := e.a
      outPhi := e.phi
      outBits := e.bits
      uwErrs := uwErrors c e.bits
      outValid := true
      frameCount := m1.frameCount + 1 })

/-- The emission condition (R292). -/
def Modem.emits (m : Modem) : Bool :=
  decide ((m.cfg.spf : Int) + (m.cfg.lookahead : Int) ≤ (m.tAbs : Int) - m.frameStart)

/-- The symbol records of an emission, in order (20_memory R124, R313). -/
def Emission.symBytes (e : Emission) : List Byte :=
  (List.zip e.z (List.zip e.a e.phi)).flatMap fun p => symbolBytes p.1 p.2.1 p.2.2

/-- DEMODULATE after its checks; `m` is the modem after the append (R300). -/
def State.demodulateFrame (s : State) (m : Modem) : State :=
  if m.emits then
    let em := m.emit
    { ((s.writeBytes symOutBase em.1.symBytes).writeBits bitOutBase em.1.bits) with
      modem := some em.2, res0 := BitVec.ofNat 32 em.2.nin, res1 := 1 }.completeOk
  else
    { s with modem := some { m with outValid := false, nin := m.cfg.spf },
             res0 := BitVec.ofNat 32 m.cfg.spf, res1 := 0 }.completeOk

/-- The checks and the append that DEMODULATE and SYNC_SEARCH share (R290, R291). -/
def State.withStream (s : State) (f : Modem → State) : State :=
  s.needModem fun m =>
    if s.arg0.toNat ≠ m.nin then s.completeError .contractViolation
    else if !s.inputFinite m.nin then s.completeError .contractViolation
    else f (m.append (s.inputSamples m.nin))

/-- DEMODULATE (R300). -/
def execDemodulate (s : State) : Host.Outcome State Fault Refusal :=
  .next (s.withStream s.demodulateFrame)

/-! ## SYNC_SEARCH (R320 to R323) -/

/-- `coarse_foff(t)` (R322). -/
def Modem.coarseFoff (m : Modem) (t : Int) : F64 :=
  let c := m.cfg
  let corr := Cx.sum ((List.range c.ncp).map fun (n : Nat) =>
    Cx.mul (m.sample (t + (c.m : Int) + (n : Int))) (Cx.conj (m.sample (t + (n : Int)))))
  Fp.div (Fp.mul (Cx.arg corr) c.fs) (Fp.mul Fp.twoPi (Fp.ofNat c.m))

/-- `t_lo` (R320). -/
def Modem.searchLo (m : Modem) : Int :=
  (m.tAbs : Int) - (m.cfg.spf : Int) - (m.cfg.lookahead : Int) + 1

/-- The earliest best start in the window, as an offset from `t_lo`, and its metric (R320). -/
def Modem.searchBest (m : Modem) : Int × F64 :=
  m.bestOf m.searchLo (0, m.mx m.searchLo) ((List.range (m.cfg.spf - 1)).map fun (k : Nat) => ((k : Int) + 1))

/-- The modem after a search that found a candidate at `best` (R320). -/
def Modem.latchCandidate (m : Modem) (best : Int) : Modem :=
  let foff := m.coarseFoff best
  { m with
    candValid := true
    candPos := best
    candFoff := foff
    frameStart := best
    foffPhase := Fp.zero
    driftAcc := Fp.zero
    foffEst := if m.foffEn then foff else m.foffEst
    prevValid := false
    clkAdjSum := 0
    clkSamples := 0 }

/-- SYNC_SEARCH after its checks; `m` is the modem after the append (R320, R323). -/
def State.searchStream (s : State) (m : Modem) : State :=
  let best := m.searchBest
  let found := Fp.lt m.cfg.timingMxThresh best.2
  let m' := if found then m.latchCandidate (m.searchLo + best.1)
    else { m with frameStart := (m.tAbs : Int) - (m.cfg.spf : Int) }
  { s with
    modem := some { m' with timingMx := best.2, nin := m.cfg.spf, outValid := false }
    res0 := BitVec.ofNat 32 found.toNat
    res1 := BitVec.ofInt 32 best.1
    res2 := Fp.toF32 best.2 }.completeOk

/-- SYNC_SEARCH (R320). -/
def execSyncSearch (s : State) : Host.Outcome State Fault Refusal :=
  .next (s.withStream s.searchStream)

end Sys2Proof.Machine
end

