-- ==== Sys2Proof/Machine/Ldpc.lean ====
section
/-! DEFINITION. The LDPC codec (44_ldpc): encoding by back-substitution (R410, R411) and belief propagation (R420 to
R426). The messages of a decode are local to it (10_state R76). -/

namespace Sys2Proof.Machine

/-! ## Parity (R403) -/

/-- The XOR of a list of bits. -/
def xorBits (l : List Bool) : Bool := l.foldl Bool.xor false

/-- Check `m` is satisfied by a bit vector (R403). -/
def checkHolds (c : LdpcCode) (bits : List Bool) (m : Nat) : Bool :=
  !xorBits ((row c m).map fun v => bits.getD v false)

/-- The parity pass count (R403). -/
def passCount (c : LdpcCode) (bits : List Bool) : Nat := (List.range c.m).countP (checkHolds c bits)

/-! ## LDPC_ENCODE (R410, R411) -/

/-- Parity bit `m` from the data bits and the parity bits before it (R410). -/
def parityBit (c : LdpcCode) (d p : List Bool) (m : Nat) : Bool :=
  xorBits (((row c m).filter fun v => decide (v ≠ codeK c + m)).map fun v =>
    if v < codeK c then d.getD v false else p.getD (v - codeK c) false)

/-- The parity bits, solved in increasing check order (R410). -/
def encodeParity (c : LdpcCode) (d : List Bool) : List Bool :=
  (List.range c.m).foldl (fun p m => p ++ [parityBit c d p m]) []

/-- LDPC_ENCODE (R410). The decoder admits slots 0 to 2 only; any other raises IllegalCommand here too. -/
def execLdpcEncode (slot : BitVec 8) (s : State) : Host.Outcome State Fault Refusal :=
  .next (
    if legalSlot slot then
      let c := codeTable slot.toNat
      { (s.writeBits bitOutBase (encodeParity c (s.readBits bitInBase 0 (codeK c)))) with
        res0 := BitVec.ofNat 32 c.m }.completeOk
    else s.completeError .illegalCommand)

/-! ## Messages: per check, its variables in row order with their messages -/

/-- A message per edge, indexed by check: (variable, message) in row order (10_state R76). -/
abbrev Messages := List (List (Nat × F64))

/-- The message of edge `(m, v)`. -/
def message (r : Messages) (m v : Nat) : F64 := ((r.getD m []).lookup v).getD Fp.zero

/-- What the update formulas read besides the messages (R421 to R423). -/
structure BpParams where
  minSum : Bool
  llrMax : F64
  msScale : F64
  deriving DecidableEq, Repr

/-- `hd(x)` (R404): 1 where `x < 0`. -/
def hd (x : F64) : Bool := Fp.lt x Fp.zero

/-- `Q[m→v] <- L[v]` (R421). -/
def initialQ (c : LdpcCode) (l : List F64) : Messages :=
  (List.range c.m).map fun m => (row c m).map fun v => (v, l.getD v Fp.zero)

/-- The sum-product message from the other incoming ones (R422). -/
def sumProduct (p : BpParams) (others : List F64) : F64 :=
  let t := Config.tanh (Fp.div p.llrMax Fp.two)
  let pr := Fp.prod (others.map fun q => Config.tanh (Fp.div q Fp.two))
  Fp.mul Fp.two (Config.atanh (Fp.clip pr t))

/-- The min-sum message from the other incoming ones (R423). -/
def minSumMsg (p : BpParams) (others : List F64) : F64 :=
  let sg := Fp.prod (others.map Fp.sgn)
  let mn := others.foldl (fun acc q => Fp.min acc (Fp.abs q)) p.llrMax
  Fp.mul (Fp.mul p.msScale sg) mn

/-- The check-node update of one check: for each variable, from the messages of the others in row order (R422, R423). -/
def checkUpdate (p : BpParams) (q : List (Nat × F64)) : List (Nat × F64) :=
  q.map fun vq =>
    let others := (q.filter fun x => decide (x.1 ≠ vq.1)).map Prod.snd
    (vq.1, if p.minSum then minSumMsg p others else sumProduct p others)

/-- `post[v]` (R424): the channel LLR plus the sum of the check messages in column order (log 11). -/
def posterior (c : LdpcCode) (l : List F64) (r : Messages) (v : Nat) : F64 :=
  Fp.add (l.getD v Fp.zero) (Fp.sum ((col c v).map fun m => message r m v))

/-- `Q[m→v]` (R424): the same without check `m`, clipped. -/
def variableMsg (c : LdpcCode) (p : BpParams) (l : List F64) (r : Messages) (m v : Nat) : F64 :=
  Fp.clip (Fp.add (l.getD v Fp.zero)
    (Fp.sum (((col c v).filter fun m' => decide (m' ≠ m)).map fun m' => message r m' v))) p.llrMax

/-- The variable-node update (R424). -/
def nextQ (c : LdpcCode) (p : BpParams) (l : List F64) (r : Messages) : Messages :=
  (List.range c.m).map fun m => (row c m).map fun v => (v, variableMsg c p l r m v)

/-- The hard decisions of a round (R424). -/
def hardBits (c : LdpcCode) (l : List F64) (r : Messages) : List Bool :=
  (List.range c.n).map fun v => hd (posterior c l r v)

/-- What a decode returns (R425). -/
structure Decoded where
  hard : List Bool
  iters : Nat
  pass : Nat
  deriving DecidableEq, Repr

/-- The rounds of the flooding schedule (R425): `fuel` is the number of rounds still allowed. -/
def bpRounds (c : LdpcCode) (p : BpParams) (l : List F64) : Nat → Messages → Decoded → Decoded
  | 0, _, d => d
  | fuel + 1, q, d =>
    let r := q.map (checkUpdate p)
    let hard := hardBits c l r
    let d' : Decoded := { hard := hard, iters := d.iters + 1, pass := passCount c hard }
    if d'.pass = c.m then d' else bpRounds c p l fuel (nextQ c p l r) d'

/-- `bp_decode` (R425) on LLRs not yet clipped (R421). -/
def bpDecode (c : LdpcCode) (p : BpParams) (llrs : List F64) (maxIter : Nat) : Decoded :=
  let l := llrs.map fun x => Fp.clip x p.llrMax
  let hard := (List.range c.n).map fun v => hd (l.getD v Fp.zero)
  bpRounds c p l maxIter (initialQ c l) { hard := hard, iters := 0, pass := passCount c hard }

/-! ## LDPC_DECODE (R420) -/

/-- The decoder's parameters: `dec_type` 0 is sum-product, 1 min-sum (30_encoding R164). -/
def bpParams (cfg : ModemConfig) (decType : Nat) : BpParams where
  minSum := decide (decType ≠ 0)
  llrMax := cfg.llrMax
  msScale := cfg.msScale

/-- LDPC_DECODE after its checks (R420, R426). -/
def State.decodeLlrs (s : State) (m : Modem) (c : LdpcCode) : State :=
  let d := bpDecode c (bpParams m.cfg s.arg1.toNat) (s.readLlrs c.n) s.arg0.toNat
  { (s.writeBits bitOutBase d.hard) with
    res0 := BitVec.ofNat 32 d.iters
    res1 := BitVec.ofNat 32 d.pass
    res2 := BitVec.ofNat 32 (decide (d.pass = c.m)).toNat
    nonconv := decide (d.pass < c.m) }.completeOk

/-- LDPC_DECODE (R420): the checks in the order of its pseudocode, the first failure deciding the error. -/
def execLdpcDecode (slot : BitVec 8) (s : State) : Host.Outcome State Fault Refusal :=
  .next (
    if legalSlot slot then
      s.needModem fun m =>
        let c := codeTable slot.toNat
        if s.arg2.toNat ≠ c.n then s.completeError .contractViolation
        else if 1 < s.arg1.toNat then s.completeError .badArgument
        else if 65535 < s.arg0.toNat then s.completeError .badArgument
        else if (s.readLlrs c.n).any Fp.isNaN then s.completeError .contractViolation
        else s.decodeLlrs m c
    else s.completeError .illegalCommand)

end Sys2Proof.Machine
end

