-- ==== Sys2Proof/Machine/Interleaver.lean ====
section
/-! DEFINITION. The interleaver glue and the BER counters (45_interleaver): IL_PUSH and BER_RESET. -/

namespace Sys2Proof.Machine

/-! ## Payload symbols and LLRs (R450 to R452) -/

/-- The data-symbol indices of the payload symbols, in increasing order: `psym` (R450). -/
def payloadSymbols (c : ModemConfig) : List Nat :=
  (List.range c.nds).filter fun i => !(c.uwPos.contains (2 * i) || c.txtPos.contains (2 * i))

/-- The frame record of the last emitted frame (R460). -/
def Modem.frameRecord (m : Modem) : IlRecord where
  z := (payloadSymbols m.cfg).map fun i => m.outZ.getD i Cx.zero
  a := (payloadSymbols m.cfg).map fun i => m.outA.getD i Fp.zero
  sigma2 := m.outSigma2

/-- A block symbol: value, amplitude and its frame's noise (R453). -/
abbrev BlockSymbol := C64 × F64 × F64

/-- The symbols a record contributes (R451, R453). -/
def IlRecord.symbols (r : IlRecord) : List BlockSymbol :=
  (List.zip r.z r.a).map fun p => (p.1, p.2, r.sigma2)

/-- `S`: the block symbols, oldest record first (R453). -/
def Modem.blockSymbols (m : Modem) : List BlockSymbol := m.ilRing.flatMap IlRecord.symbols

/-- The LLR of one axis (R452). -/
def axisLlr (llrMax comp a sigma2 : F64) : F64 :=
  Fp.clip (Fp.div (Fp.mul (Fp.mul (Fp.mul Fp.two rootHalf) a) comp) sigma2) llrMax

/-- The two LLRs of a symbol, real axis first (R451, R452). -/
def symbolLlrs (llrMax : F64) (x : BlockSymbol) : List F64 :=
  [axisLlr llrMax x.1.re x.2.1 x.2.2, axisLlr llrMax x.1.im x.2.1 x.2.2]

/-- The LLRs of the known padding bits (R452). -/
def forcePad (llrMax : F64) (pad : List (Nat × Bool)) (l : List F64) : List F64 :=
  pad.foldl (fun acc p => acc.set p.1 (if p.2 then Fp.neg llrMax else llrMax)) l

/-- The LLRs of codeword `j` (R451, R452): symbols `D[j * NPAY ..]` with `D[i] = S[IL_PERM[i]]`. -/
def codewordLlrs (c : ModemConfig) (syms : List BlockSymbol) (j : Nat) : List F64 :=
  forcePad c.llrMax c.code.pad ((List.range c.npay).flatMap fun t =>
    symbolLlrs c.llrMax (syms.getD (c.ilPerm.getD (j * c.npay + t) 0) (Cx.zero, Fp.zero, Fp.one)))

/-! ## A block attempt (R453) -/

/-- The decodes of the block's codewords (R453). -/
def Modem.blockDecodes (m : Modem) : List Decoded :=
  (List.range m.cfg.ilFrames).map fun j =>
    bpDecode m.cfg.code (bpParams m.cfg m.cfg.decType) (codewordLlrs m.cfg m.blockSymbols j) m.cfg.code.maxIter

/-- The greatest of a list of counts, 0 for none. -/
def maxOf (l : List Nat) : Nat := l.foldl max 0

/-- The least of a list of counts, 0 for none. -/
def minOf : List Nat → Nat
  | [] => 0
  | x :: xs => xs.foldl min x

/-- The modem after an attempt with the given decodes (R453). -/
def Modem.storeAttempt (m : Modem) (ds : List Decoded) : Modem :=
  { m with
    ilDecBits := ds.flatMap fun d => d.hard.take (codeK m.cfg.code)
    ilIter := maxOf (ds.map Decoded.iters)
    ilPass := minOf (ds.map Decoded.pass)
    ilConv := ds.all fun d => decide (d.pass = m.cfg.code.m)
    ilValid := true }

/-- A block is good when every codeword's pass count reaches `IL_PASS_MIN` (R453). -/
def goodBlock (c : ModemConfig) (ds : List Decoded) : Bool := ds.all fun d => decide (c.ilPassMin ≤ d.pass)

/-! ## The interleaver state machine (R461, R462) -/

/-- The rows of the table of R461. `none` stands for the one case the table leaves out, a bad attempt in `synced` under
Unsynced, which cannot arise (R461, log 23). -/
inductive IlRow where
  | row1 | row2 | row3 | row4 | row5 | row6 | row7 | row8 | row9 | none
  deriving DecidableEq, Repr

/-- The row that applies (R461). -/
def ilRow (state : IlState) (policy : Policy) (good : Bool) (ilGood ilBad trialBlocks falloutBlocks : Nat) : IlRow :=
  match state, good, policy with
  | .search, true, _ => .row1
  | .search, false, _ => .row2
  | .trial, true, _ => if trialBlocks ≤ ilGood + 1 then .row3 else .row4
  | .trial, false, _ => .row5
  | .synced, true, _ => .row6
  | .synced, false, .auto => if falloutBlocks ≤ ilBad + 1 then .row7 else .row8
  | .synced, false, .manual => .row9
  | .synced, false, .unsynced => .none

/-- The action and next state of a row, and `il_since` (R461, R462). -/
def Modem.applyIlRow (m : Modem) : IlRow → Modem
  | .row1 => { m with ilGood := 0, ilBad := 0, ilSince := 0, ilState := .trial }
  | .row2 => m
  | .row3 => { m with ilGood := 0, ilBad := 0, ilSince := 0, ilState := .synced }
  | .row4 => { m with ilGood := m.ilGood + 1, ilSince := 0 }
  | .row5 => { m with ilGood := 0, ilBad := 0, ilSince := 0, ilState := .search }
  | .row6 => { m with ilGood := m.ilGood + 1, ilBad := 0, ilSince := 0 }
  | .row7 => { m with ilGood := 0, ilBad := 0, ilSince := 0, ilState := .search }
  | .row8 => { m with ilBad := m.ilBad + 1, ilGood := 0, ilSince := 0 }
  | .row9 => { m with ilBad := m.ilBad + 1, ilGood := 0, ilSince := 0 }
  | .none => m

/-- `il_step(good)` (R461). -/
def Modem.ilStep (good : Bool) (m : Modem) : Modem :=
  m.applyIlRow (ilRow m.ilState m.policy good m.ilGood m.ilBad m.cfg.ilTrialBlocks m.cfg.ilFalloutBlocks)

/-! ## BER counters (R470) -/

/-- The decoded bits that differ from the test pattern (R470). -/
def berErrors (k : Nat) (pattern bits : List Bool) : Nat :=
  (List.range bits.length).countP fun n => bits.getD n false != pattern.getD (n % k) false

/-- `ber_count()` (R470). -/
def Modem.berCount (m : Modem) : Modem :=
  { m with
    berBits := m.berBits + m.cfg.ilFrames * codeK m.cfg.code
    berErrs := m.berErrs + berErrors (codeK m.cfg.code) m.cfg.testPattern m.ilDecBits }

/-! ## IL_PUSH (R460) -/

/-- The push gate (R460): synchronized or in trial, with an emitted frame not pushed before. -/
def Modem.mayPush (m : Modem) : Bool :=
  decide (m.syncState ≠ .searching) && m.outValid && decide (m.frameCount ≠ m.ilLast)

/-- The modem with the last frame appended to the ring (R460). -/
def Modem.pushFrame (m : Modem) : Modem :=
  let ring := m.ilRing ++ [m.frameRecord]
  { m with
    ilLast := m.frameCount
    ilRing := if m.cfg.ilFrames < ring.length then ring.drop 1 else ring
    ilSince := m.ilSince + 1 }

/-- Whether a push attempts a decode (R460). -/
def Modem.attempts (m : Modem) : Bool :=
  (decide (m.ilState = .search) && decide (m.ilRing.length = m.cfg.ilFrames)) ||
  (decide (m.ilState ≠ .search) && decide (m.ilSince = m.cfg.ilFrames))

/-- The modem after an attempt, the state machine and the BER count (R453, R460). -/
def Modem.afterAttempt (berTest : Bool) (m : Modem) : Modem :=
  let m' := (m.storeAttempt m.blockDecodes).ilStep (goodBlock m.cfg m.blockDecodes)
  if berTest && decide (m.ilState = .synced) then m'.berCount else m'

/-- The result registers of IL_PUSH (R460). -/
def State.pushResults (pushed attempted : Bool) (m : Modem) (s : State) : State :=
  { s with
    modem := some m
    res0 := BitVec.ofNat 32 pushed.toNat
    res1 := BitVec.ofNat 32 attempted.toNat
    res2 := BitVec.ofNat 32 m.ilState.code
    res3 := if attempted then BitVec.ofNat 32 m.ilPass else 0 }

/-- IL_PUSH (R460). -/
def execIlPush (s : State) : Host.Outcome State Fault Refusal :=
  .next (s.needModem fun m =>
    if m.cfg.ilFrames = 0 then s.completeError .contractViolation
    else if m.mayPush then
      let m1 := m.pushFrame
      if m1.attempts then
        let m2 := m1.afterAttempt s.berTestEn
        ((({ s with nonconv := !m2.ilConv }.writeBits decOutBase m2.ilDecBits).raiseIrq irqIlBlock).pushResults
          true true m2).completeOk
      else (s.pushResults true false m1).completeOk
    else (s.pushResults false false m).completeOk)

/-- BER_RESET (R472). -/
def execBerReset (s : State) : Host.Outcome State Fault Refusal :=
  .next (s.needModem fun m => { s with modem := some { m with berBits := 0, berErrs := 0 } }.completeOk)

end Sys2Proof.Machine
end

