-- ==== Sys2Proof/Machine/Dispatch.lean ====
section
/-! DEFINITION. The meaning of every command, one arm per constructor of `Instr`. -/

namespace Sys2Proof.Machine

/-- Run a command (30_encoding R162 steps 4 and 5). -/
def exec (i : Instr) (s : State) : Host.Outcome State Fault Refusal :=
  match i with
  | .create => Sys2Proof.Machine.execCreate s
  | .destroy => Sys2Proof.Machine.execDestroy s
  | .modulate => Sys2Proof.Machine.execModulate s
  | .getNin => Sys2Proof.Machine.execGetNin s
  | .demodulate => Sys2Proof.Machine.execDemodulate s
  | .syncSearch => Sys2Proof.Machine.execSyncSearch s
  | .runSyncSm src => Sys2Proof.Machine.execRunSyncSm src s
  | .setSyncPolicy p => Sys2Proof.Machine.execSetSyncPolicy p s
  | .setPhaseBw b => Sys2Proof.Machine.execSetPhaseBw b s
  | .enableTiming f => Sys2Proof.Machine.execEnableTiming f s
  | .enableFreq f => Sys2Proof.Machine.execEnableFreq f s
  | .enablePhase f => Sys2Proof.Machine.execEnablePhase f s
  | .setDpsk f => Sys2Proof.Machine.execSetDpsk f s
  | .getStats => Sys2Proof.Machine.execGetStats s
  | .ldpcEncode slot => Sys2Proof.Machine.execLdpcEncode slot s
  | .ldpcDecode slot => Sys2Proof.Machine.execLdpcDecode slot s
  | .ilPush => Sys2Proof.Machine.execIlPush s
  | .berReset => Sys2Proof.Machine.execBerReset s

end Sys2Proof.Machine
end

