-- ==== Sys2Proof/Machine/HostPort.lean ====
section
/-! DEFINITION. The host port: the register map (10_state R44), legal accesses (20_memory R121, R122, R127), what a host
access does (20_memory R129), and what it does while the core is busy or faulted (20_memory R141, 60_exceptions R500,
R510). -/

namespace Sys2Proof.Machine

/-! ## The address map (20_memory R121) -/

/-- What an address of the local space belongs to. -/
inductive Region where
  | reg
  | cfg
  | buffer
  | unmapped
  deriving DecidableEq, Repr

/-- The address map (20_memory R121). -/
def region (a : Nat) : Region :=
  if a < 0x100 then .reg
  else if a < cfgBase then .unmapped
  else if a < sampleInBase then .cfg
  else if a < windowEnd then .buffer
  else .unmapped

/-- The widths and alignment a region accepts (20_memory R127); the CFG window is a window like the buffers (log 19). -/
def legalAccess (width a : Nat) : Bool :=
  match region a with
  | .reg => decide (width = 4) && decide (a % 4 = 0)
  | .cfg | .buffer => (decide (width = 1) || decide (width = 2) || decide (width = 4)) && decide (a % width = 0)
  | .unmapped => false

/-! ## Registers (10_state R44) -/

/-- A u32 view of an unbounded integer: mod 2^32 (10_state R51). -/
def viewU32 (n : Nat) : Word := BitVec.ofNat 32 n

/-- The value a register offset reads as (10_state R44 to R51). CMD and the reserved offsets read 0. -/
def State.readReg (s : State) (off : Nat) : Word :=
  match off with
  | 0x000 => Config.pId
  | 0x004 => s.ctrl
  | 0x00C => s.status
  | 0x010 => BitVec.ofNat 32 s.errcode.code
  | 0x014 => s.arg0
  | 0x018 => s.arg1
  | 0x01C => s.arg2
  | 0x020 => s.arg3
  | 0x024 => s.res0
  | 0x028 => s.res1
  | 0x02C => s.res2
  | 0x030 => s.res3
  | 0x034 => s.view 0 fun m => viewU32 m.nin
  | 0x038 => s.view 0 Modem.syncWord
  | 0x03C => s.view 0 Modem.modeWord
  | 0x040 => s.irqEn
  | 0x044 => s.irqPend
  | 0x048 => s.view 0 fun m => Fp.toF32 m.foffEst
  | 0x04C => s.view 0 fun m => Fp.toF32 m.driftAcc
  | 0x050 => s.view 0 fun m => viewU32 m.uwErrs
  | 0x054 => s.view 0 fun m => viewU32 m.frameCount
  | 0x058 => s.view 0 fun m => viewU32 m.ilSince
  | 0x05C => s.view 0 fun m => viewU32 m.ilIter
  | 0x060 => s.view 0 fun m => viewU32 m.ilPass
  | 0x064 => s.view 0 fun m => viewU32 m.berBits
  | 0x068 => s.view 0 fun m => viewU32 m.berErrs
  | 0x06C => s.view 0 fun m => Fp.toF32 m.snrDb
  | 0x070 => s.view 0 fun m => Fp.toF32 m.clockPpm
  | 0x074 => s.view 0 fun m => Fp.toF32 m.timingMx
  | _ => 0

/-- A host write to a register offset (10_state R44, 20_memory R129): CTRL, IRQ_EN and ARG0..ARG3 store, IRQ_PEND clears
the bits written as 1, CMD starts a command, and every other write is ignored. -/
def State.writeReg (s : State) (off : Nat) (v : Word) : State :=
  match off with
  | 0x004 => { s with ctrl := lowFour v }
  | 0x008 => s.acceptCommand v
  | 0x014 => { s with arg0 := v }
  | 0x018 => { s with arg1 := v }
  | 0x01C => { s with arg2 := v }
  | 0x020 => { s with arg3 := v }
  | 0x040 => { s with irqEn := lowFour v }
  | 0x044 => { s with irqPend := s.irqPend &&& ~~~v }
  | _ => s

/-! ## Accesses -/

/-- The address of an access. -/
def HostOp.addr : HostOp → Nat
  | .read _ a => a.toNat
  | .write _ a _ => a.toNat

/-- The width of an access in bytes. -/
def HostOp.width : HostOp → Nat
  | .read w _ => w
  | .write w _ _ => w

/-- An access the port accepts (20_memory R122, R127). -/
def HostOp.legal (op : HostOp) : Bool := legalAccess op.width op.addr

/-- A 32-bit write to CMD (10_state R44). -/
def HostOp.isCmdWrite : HostOp → Bool
  | .write w a _ => decide (w = 4) && decide (a.toNat = 0x008)
  | .read _ _ => false

/-- What the host may do while BUSY = 1 (20_memory R141, 70_reset R570): read any register, and write CTRL, IRQ_EN and
IRQ_PEND. Any other access is a race (log 17). -/
def HostOp.allowedBusy : HostOp → Bool
  | .read _ a => decide (region a.toNat = .reg)
  | .write _ a _ => decide (a.toNat = 0x004) || decide (a.toNat = 0x040) || decide (a.toNat = 0x044)

/-- A legal access on a machine it does not race with (20_memory R123, R129). -/
def State.access (s : State) : HostOp → State
  | .read w a =>
    if region a.toNat = .reg then { s with busData := s.readReg a.toNat }
    else { s with busData := BitVec.ofNat 32 (s.readLE a.toNat w) }
  | .write w a v =>
    if region a.toNat = .reg then s.writeReg a.toNat v
    else s.writeBytes a.toNat (bytesLE w v.toNat)

/-- One host step (60_exceptions R540). On a faulted machine a CMD write is ignored and the spec claims nothing of any
other access (60_exceptions R500, R510, log 2). A bad access records BusError, whether or not the core is busy
(log 18); a race records HostRace. -/
def State.hostStep (op : HostOp) (s : State) : Host.Outcome State Fault Refusal :=
  if s.faulted then
    if op.isCmdWrite then .next s else .fault (s.faultReason.getD .busError)
  else if !op.legal then .next (s.recordFault .busError)
  else if s.busy && !op.allowedBusy then .next (s.recordFault .hostRace)
  else .next (s.access op)

end Sys2Proof.Machine
end

