-- ==== Sys2Proof/Machine/Fetch.lean ====
section
/-! DEFINITION. Where a core step takes its command from: the accepted word in `cmd` (60_exceptions R500), and the
completion of a word that is no command (30_encoding R165). -/

namespace Sys2Proof.Machine

/-- A core step is enabled (60_exceptions R500, R540): a command is pending and no fault is recorded. -/
def State.coreEnabled (s : State) : Bool := s.busy && !s.faulted

/-- The command of the next core step, decoded from the accepted word (30_encoding R162). -/
def State.fetch (s : State) : Except Reject Instr := decode s.cmd

/-- A word that is no command raises IllegalCommand (30_encoding R162, R165). -/
def State.rejectCommand (s : State) : State := s.completeError .illegalCommand

/-- `s` with a command word accepted and the core moving next. -/
def State.placeCommand (w : Word) (s : State) : State :=
  { s.acceptCommand w with faulted := false, faultReason := none, turns := .core :: s.turns }

end Sys2Proof.Machine
end

