-- ==== Sys2Proof/Machine/Step.lean ====
section
/-! DEFINITION. One step of the machine (60_exceptions R540): a host access, a core step, or a power-on reset, in the
order the queue `turns` gives (log 1). -/

namespace Sys2Proof.Machine

/-- One core step (60_exceptions R500): decode the accepted word and run it. Where none is enabled nothing happens
(60_exceptions R529, R540). -/
def coreStep (s : State) : Host.Outcome State Fault Refusal :=
  if s.coreEnabled then
    match s.fetch with
    | .ok i => exec i s
    | .error _ => .next s.rejectCommand
  else .next s

/-- One step. With no turn left, the core moves if it is enabled. -/
def step (s : State) : Host.Outcome State Fault Refusal :=
  match s.turns with
  | [] => coreStep s
  | .core :: rest => coreStep { s with turns := rest }
  | .host op :: rest => State.hostStep op { s with turns := rest }
  | .powerOn :: rest => .next (State.powerOn { s with turns := rest })

/-- `s` with the table word accepted as the next command, the core moving next (log 20). -/
def State.withFetchWord (s : State) (nbits w : Nat) : State := s.placeCommand (tableWord nbits w)

end Sys2Proof.Machine
end

