-- ==== Sys2Proof/Safety.lean ====
section
/-! DEFINITION. The invariant of the machine: what the spec says holds of every state a run reaches, whatever the host
does. The statements about all states use it as a premise where they need it. -/

namespace Sys2Proof.Machine

/-- Every table of a latched configuration has its configured count (20_memory R128). -/
structure ModemConfig.Shaped (c : ModemConfig) : Prop where
  bins : c.carrierBins.length = c.nc
  pilots : c.pilots.length = c.nc
  uwBits : c.uwBits.length = c.nuwbits
  uwPos : c.uwPos.length = c.nuwbits
  txtPos : c.txtPos.length = c.ntxtbits
  txFilt : c.txFilt.length = c.txFiltLen
  testPattern : c.testPattern.length = codeK c.code

/-- `t_abs - F` plus the samples the next command brings (42_demodulator R292): right after CREATE it is `SPF`; from the
first DEMODULATE or SYNC_SEARCH on it lies in the range the emission needs. -/
def Modem.StreamOk (m : Modem) : Prop :=
  ((m.tAbs : Int) = m.frameStart ∧ m.nin = m.cfg.spf) ∨
  ((m.cfg.spf : Int) + m.cfg.lookahead ≤ (m.tAbs : Int) - m.frameStart + m.nin ∧
    (m.tAbs : Int) - m.frameStart + m.nin ≤ 2 * (m.cfg.spf : Int) + m.cfg.lookahead - 1)

/-- What holds of a configured modem. -/
structure Modem.Inv (m : Modem) : Prop where
  /-- only a valid configuration is latched (40_control R200, R201) -/
  cfgValid : m.cfg.valid = true
  cfgShaped : m.cfg.Shaped
  /-- 10_state R62 -/
  rxLen : m.rx.length = m.cfg.rxbufLen
  /-- 42_demodulator R310 -/
  ninNear : m.cfg.spf ≤ m.nin + 1 ∧ m.nin ≤ m.cfg.spf + 1
  /-- 42_demodulator R292 -/
  stream : m.StreamOk
  /-- 42_demodulator R301, last sentence -/
  noDrift : m.cfg.ftWin = 0 → Fp.isZero m.driftAcc = true
  pilotLen : m.prevPilot.length = m.cfg.nc
  /-- 10_state R66 -/
  outLen : m.outZ.length = m.cfg.nds ∧ m.outA.length = m.cfg.nds ∧ m.outPhi.length = m.cfg.nds ∧
    m.outBits.length = m.cfg.bpf
  /-- 10_state R71 -/
  histLen : m.filtHist.length = 127
  /-- 43_sync R361 row 1, 40_control R210 -/
  unsynced : m.policy = .unsynced → m.syncState = .searching
  /-- 43_sync R368 -/
  searching : m.syncState = .searching →
    m.good = 0 ∧ m.bad = 0 ∧ m.ilState = .search ∧ m.ilRing = [] ∧ m.ilSince = 0
  /-- 43_sync R361 rows 2, 5, 6, 7 -/
  trial : m.syncState = .trial → m.good < m.cfg.trialFrames ∧ m.bad = 0
  /-- 10_state R72 -/
  ringLen : m.ilRing.length ≤ m.cfg.ilFrames
  /-- 10_state R72: a record holds NPAY symbols and amplitudes -/
  ringShape : ∀ r ∈ m.ilRing, r.z.length = m.cfg.npay ∧ r.a.length = m.cfg.npay
  /-- 45_interleaver R460, R461: the first attempt needs a full ring, and the ring stays full until the machine is back in search -/
  ringFull : m.ilState ≠ .search → m.ilRing.length = m.cfg.ilFrames
  /-- 45_interleaver R460, R462: outside search an attempt comes before the count passes IL_FRAMES -/
  sinceLt : m.ilState ≠ .search → m.ilSince < m.cfg.ilFrames
  /-- 45_interleaver R461 rows 1, 3, 4, 5 -/
  ilTrial : m.ilState = .trial → m.ilGood < m.cfg.ilTrialBlocks ∧ m.ilBad = 0
  /-- 45_interleaver R460 -/
  lastLe : m.ilLast ≤ m.frameCount
  outCounted : m.outValid = true → 1 ≤ m.frameCount
  /-- 10_state R73 -/
  decLen : m.ilDecBits.length = m.cfg.ilFrames * codeK m.cfg.code
  passLe : m.ilPass ≤ m.cfg.code.m
  /-- 45_interleaver R453 -/
  convPass : m.ilConv = true → m.ilValid = true ∧ m.ilPass = m.cfg.code.m
  /-- 45_interleaver R470 -/
  berLe : m.berErrs ≤ m.berBits

/-- What holds of the machine. -/
structure State.Inv (s : State) : Prop where
  /-- the canonical form of memory (log 4) -/
  memWf : Memory.wf s.mem = true
  /-- only bytes of the CFG and buffer windows are ever written (20_memory R121, R131) -/
  memIn : ∀ p ∈ s.mem, cfgBase ≤ p.1 ∧ p.1 < windowEnd
  /-- 10_state R45, R50: bits 31:4 of CTRL, IRQ_EN and IRQ_PEND read 0 -/
  ctrlLow : lowFour s.ctrl = s.ctrl
  cmdCtrlLow : lowFour s.cmdCtrl = s.cmdCtrl
  irqEnLow : lowFour s.irqEn = s.irqEn
  irqPendLow : lowFour s.irqPend = s.irqPend
  /-- 10_state R77 -/
  faultKnown : s.faulted = s.faultReason.isSome
  /-- 60_exceptions R500: DONE and ERR are clear while a command is pending -/
  busyClear : s.busy = true → s.done = false ∧ s.err = false
  /-- 60_exceptions R503 -/
  errCoded : s.err = true → s.done = true ∧ s.errcode ≠ .none
  /-- 10_state R46, 40_control R205 -/
  nonconvConfigured : s.nonconv = true → s.configured = true
  modemInv : ∀ m, s.modem = some m → m.Inv

end Sys2Proof.Machine
end

