-- ==== Sys2Proof/Certificates/Slice0/Obligations.lean ====
section
/-! DEFINITION. The statements about CORE-v1, each named after what it says. Helpers that only restate a table of the spec
stand first, under `Sys2Proof.Spec`. Where a statement needs a premise beside the ones its rule gives, it is a part of the
invariant of Safety.lean, which statements of their own say holds at reset and is kept by every step. The queue `turns`, the
read data `busData` and the reset count `porCount` are the model's own fields, not the spec's (log 1, log 3). -/

open Sys2Proof Sys2Proof.Machine

namespace Sys2Proof.Spec

/-- Column "legal IMM8" of 30_encoding R163; a number that is no opcode has no legal IMM8. -/
def legalImm8 : Nat → List Nat
  | 0x01 | 0x02 | 0x03 | 0x04 | 0x05 | 0x06 | 0x0E | 0x20 | 0x21 => [0]
  | 0x07 | 0x09 | 0x0A | 0x0B | 0x0C | 0x0D => [0, 1]
  | 0x08 | 0x10 | 0x11 => [0, 1, 2]
  | _ => []

/-- Bits 7:0, 15:8 and 31:16 of a command word (30_encoding R160). -/
def opc (w : Word) : Nat := (w.extractLsb' 0 8).toNat
def imm8 (w : Word) : Nat := (w.extractLsb' 8 8).toNat
def rsv (w : Word) : Nat := (w.extractLsb' 16 16).toNat

/-- Column "cfg" of 30_encoding R163. -/
def needsConfigured : Instr → Bool
  | .create | .destroy | .ldpcEncode _ => false
  | _ => true

/-- `t` differs from `s` by nothing but an error completion (60_exceptions R503). -/
def errorOf (s : State) (code : ErrCode) : State :=
  { s with busy := false, done := true, err := true, errcode := code, irqPend := s.irqPend ||| 0x3#32 }

/-- The sync state, Searching where the modem is unset: what SYNC shows, which then reads 0 (10_state R48). -/
def syncOf (s : State) : SyncState :=
  match s.modem with
  | some m => m.syncState
  | none => .searching

/-- The commands that write the sync state (43_sync R362). They set SYNC_CHANGE pending where they change it (43_sync R369). That
CREATE and DESTROY, which end an instance, are not among them is the model's reading (log 14). -/
def writesSyncState : Instr → Bool
  | .runSyncSm _ | .setSyncPolicy _ => true
  | _ => false

/-- The body of DESTROY (40_control R205): the modem unset and NONCONV clear. No pending bit changes (log 14). -/
def destroyed (s : State) : State :=
  match s.modem with
  | some _ => { s with modem := none, nonconv := false }
  | none => s

/-- What no command changes: CTRL, ARG0 to ARG3, IRQ_EN, the accepted word, the fault record, and the model's own fields. -/
def SameHostSide (s t : State) : Prop :=
  t.ctrl = s.ctrl ∧ t.arg0 = s.arg0 ∧ t.arg1 = s.arg1 ∧ t.arg2 = s.arg2 ∧ t.arg3 = s.arg3 ∧ t.irqEn = s.irqEn ∧
  t.cmd = s.cmd ∧ t.cmdCtrl = s.cmdCtrl ∧ t.faulted = s.faulted ∧ t.faultReason = s.faultReason ∧
  t.turns = s.turns ∧ t.busData = s.busData ∧ t.porCount = s.porCount

/-- Every byte outside `[base, base + n)` reads as before. -/
def SameBytesOutside (s t : State) (base n : Nat) : Prop :=
  ∀ a, a < base ∨ base + n ≤ a → t.readByte a = s.readByte a

/-- The modem after `enter_searching()` (43_sync R368), field by field. -/
def searching (discard : Bool) (m : Modem) : Modem :=
  { m with
    syncState := .searching, good := 0, bad := 0, candValid := false, prevValid := false, ilState := .search,
    ilRing := [], ilSince := 0, ilGood := 0, ilBad := 0,
    berBits := if discard then 0 else m.berBits, berErrs := if discard then 0 else m.berErrs }

/-- The samples a stream command reads are finite where the conversion keeps them (42_demodulator R290). -/
def InputFinite (s : State) (n : Nat) : Prop :=
  ∀ i, i < n → Fp.isFinite32 (s.readF32 (0x020000 + 8 * i)) = true ∧
    (s.cmdCtrl.getLsbD 0 = true ∨ Fp.isFinite32 (s.readF32 (0x020004 + 8 * i)) = true)

/-- The converted input samples (42_demodulator R290). -/
def input (s : State) (n : Nat) : List C64 :=
  (List.range n).map fun i =>
    ⟨Fp.ofF32 (s.readF32 (0x020000 + 8 * i)),
      if s.cmdCtrl.getLsbD 0 then 0#64 else Fp.ofF32 (s.readF32 (0x020004 + 8 * i))⟩

/-- Sample `n` of the frame at F after de-rotation (42_demodulator R302). -/
def derotated (m : Modem) (n : Nat) : C64 :=
  let x := m.sample (m.frameStart + n)
  if Fp.isZero m.foffEst = true ∧ Fp.isZero m.foffPhase = true then x
  else Cx.mul x (Cx.expj (Fp.neg (Fp.add m.foffPhase
    (Fp.div (Fp.mul (Fp.mul Fp.twoPi m.foffEst) (Fp.ofNat n)) m.cfg.fs))))

/-- The DFT bin of carrier `k` over the `M` samples from sample `off` of the frame on (42_demodulator R303). -/
def carrier (m : Modem) (off k : Nat) : C64 :=
  Cx.sum ((List.range m.cfg.m).map fun n =>
    Cx.mul (derotated m (off + n)) (Cx.conj (Cx.twiddle m.cfg.m (m.cfg.carrierBins.getD k 0 * n))))

/-- The pilot-removed carriers of the pilot row whose body starts at sample `off` of the frame (42_demodulator R300): `Ht`
for `off = NCP`, `Hn` for `off = SPF + adj + NCP`. -/
def pilotRow (m : Modem) (off : Nat) : List C64 :=
  (List.range m.cfg.nc).map fun k => Cx.div (carrier m off k) (m.cfg.pilots.getD k Cx.zero)

/-- Offset `u` is tried before `tau` by fine timing, whose order is 0, -1, +1, -2, +2, .. (42_demodulator R301). -/
def TriedBefore (u tau : Int) : Prop := u.natAbs < tau.natAbs ∨ (u.natAbs = tau.natAbs ∧ u < tau)

/-- `n` bits of a bit window (20_memory R124). -/
def bitsAt (s : State) (base n : Nat) : List Bool := (List.range n).map fun i => (s.readByte (base + i)).getLsbD 0

/-- `n` LLRs of LLR_IN. -/
def llrsAt (s : State) (n : Nat) : List F64 := (List.range n).map fun v => s.readF64 (0x080000 + 8 * v)

/-- The conditions LDPC_DECODE checks (44_ldpc R420). -/
structure DecodeReady (s : State) (c : LdpcCode) : Prop where
  count : s.arg2.toNat = c.n
  decType : s.arg1.toNat ≤ 1
  maxIter : s.arg0.toNat ≤ 65535
  noNaN : ∀ x ∈ llrsAt s c.n, Fp.isNaN x = false

/-- The legal accesses of 20_memory R121, R122, R127. -/
def LegalAccess (width a : Nat) : Prop :=
  (a < 0x100 ∧ width = 4 ∧ a % 4 = 0) ∨
  (0x010000 ≤ a ∧ a < 0x0C0000 ∧ (width = 1 ∨ width = 2 ∨ width = 4) ∧ a % width = 0)

/-- What the host may do while BUSY = 1 (20_memory R141, 70_reset R570). -/
def AllowedWhileBusy : HostOp → Prop
  | .read _ a => a.toNat < 0x100
  | .write _ a _ => a.toNat = 0x004 ∨ a.toNat = 0x040 ∨ a.toNat = 0x044

/-- The constraints on a code table (44_ldpc R400, R401). -/
def CodeConstraints (c : LdpcCode) : Prop :=
  let k := c.n - c.m
  (∀ r ∈ c.hRows, r.length = c.maxRowWeight ∧ ∀ x ∈ r, x.toNat ≤ c.n) ∧
  (∀ q ∈ c.hCols, q.length = c.maxColWeight ∧ ∀ x ∈ q, x.toNat ≤ c.m) ∧
  (∀ l ∈ c.hRows ++ c.hCols, ∀ i j, i < j → j < l.length → l.getD i 1#16 = 0#16 → l.getD j 1#16 = 0#16) ∧
  (c.hRows.length = c.m ∧ c.hCols.length = c.n) ∧
  (∀ m, m < c.m → (row c m).Nodup) ∧ (∀ v, v < c.n → (col c v).Nodup) ∧
  (∀ m v, m < c.m → v < c.n → (v ∈ row c m ↔ m ∈ col c v)) ∧
  (∀ m, m < c.m → k + m ∈ row c m ∧ ∀ v ∈ row c m, v ≤ k + m) ∧
  (1 ≤ c.n ∧ c.n ≤ 32768 ∧ 1 ≤ c.m ∧ c.m ≤ c.n ∧ k ≤ 4096 ∧ 1 ≤ c.maxRowWeight ∧ 1 ≤ c.maxColWeight ∧
    1 ≤ c.maxIter ∧ c.maxIter ≤ 65535) ∧
  ((∀ p ∈ c.pad, p.1 < k) ∧ (c.pad.map Prod.fst).Nodup)

/-- What a decode reads besides the code and its LLRs (44_ldpc R420 to R424). -/
structure DecodeArgs where
  minSum : Bool
  llrMax : F64
  msScale : F64

/-- The check message `R[m→v]` of a round whose variable messages are `q` (44_ldpc R422, R423; the order of the products:
log 10). -/
def checkMsg (c : LdpcCode) (p : DecodeArgs) (q : Nat → Nat → F64) (m v : Nat) : F64 :=
  let others := ((row c m).filter fun u => decide (u ≠ v)).map (q m)
  if p.minSum then
    Fp.mul (Fp.mul p.msScale (Fp.prod (others.map Fp.sgn))) (others.foldl (fun acc x => Fp.min acc (Fp.abs x)) p.llrMax)
  else
    Fp.mul 0x4000000000000000#64 (Config.atanh (Fp.clip
      (Fp.prod (others.map fun x => Config.tanh (Fp.div x 0x4000000000000000#64)))
      (Config.tanh (Fp.div p.llrMax 0x4000000000000000#64))))

/-- The variable messages after `t` rounds, from the clipped LLRs `l` (44_ldpc R421, R424; the channel LLR is added to the finished
sum: log 11). -/
def variableMsgs (c : LdpcCode) (p : DecodeArgs) (l : Nat → F64) : Nat → Nat → Nat → F64
  | 0 => fun _ v => l v
  | t + 1 => fun m v => Fp.clip (Fp.add (l v)
      (Fp.sum (((col c v).filter fun m' => decide (m' ≠ m)).map fun m' => checkMsg c p (variableMsgs c p l t) m' v))) p.llrMax

/-- The hard decisions after `t` rounds: of the clipped LLRs, then of the posteriors (44_ldpc R404, R424, R425; log 11). -/
def hardAfter (c : LdpcCode) (p : DecodeArgs) (l : Nat → F64) : Nat → List Bool
  | 0 => (List.range c.n).map fun v => Fp.lt (l v) 0#64
  | t + 1 => (List.range c.n).map fun v =>
      Fp.lt (Fp.add (l v) (Fp.sum ((col c v).map fun m => checkMsg c p (variableMsgs c p l t) m v))) 0#64

/-- `L[v]` (44_ldpc R421). -/
def clipped (p : DecodeArgs) (llrs : List F64) (v : Nat) : F64 := (llrs.map fun x => Fp.clip x p.llrMax).getD v 0#64

/-- `(hard, iters, pass)` is the result of `bp_decode` (44_ldpc R421 to R425): the hard decisions of the first round that satisfies
every check, at least one round being run where any may be, or else of the last round allowed. -/
structure IsDecode (c : LdpcCode) (p : DecodeArgs) (llrs : List F64) (maxIter : Nat) (hard : List Bool) (iters pass : Nat) :
    Prop where
  bits : hard = hardAfter c p (clipped p llrs) iters
  count : pass = passCount c hard
  limit : iters ≤ maxIter
  atLeastOne : 1 ≤ maxIter → 1 ≤ iters
  firstPass : ∀ t, 1 ≤ t → t < iters → passCount c (hardAfter c p (clipped p llrs) t) ≠ c.m
  lastRound : pass ≠ c.m → iters = maxIter

/-- Run the sync machine over a list of frame events (43_sync R361). -/
def runEvents (discard : Bool) (m : Modem) (es : List Nat) : Modem :=
  es.foldl (fun m e => m.syncStep discard (.frame e)) m

end Sys2Proof.Spec

/-! ## Encoding (30_encoding) -/

/-- 30_encoding R160, R163: every command's word decodes to that command, also from its four bytes in memory order. -/
def Obligations.DecodeReadsBackEveryEncoding : Prop :=
  ∀ (i : Instr) (rest : List Byte), i.wellFormed = true →
    decode (encode i) = .ok i ∧ decodeBytes (bytesOfWord (encode i) ++ rest) = .ok (i, rest)

/-- 30_encoding R163: no word but a command's own encoding decodes to it, so no bit is ignored. -/
def Obligations.AcceptedWordsAreEncodings : Prop :=
  ∀ (w : Word) (i : Instr), decode w = .ok i →
    i.wellFormed = true ∧ encode i = w ∧ Spec.rsv w = 0 ∧ Spec.opc w = i.opc ∧ Spec.imm8 w = i.imm8

/-- 30_encoding R165: a word with RSV, OPC or IMM8 outside the table raises IllegalCommand and does nothing else; every
other word is a command. -/
def Obligations.IllegalWordsRaiseIllegalCommand : Prop :=
  (∀ (s : State) (rest : List Turn), s.turns = .core :: rest → s.busy = true → s.faulted = false →
    (Spec.rsv s.cmd ≠ 0 ∨ Spec.imm8 s.cmd ∉ Spec.legalImm8 (Spec.opc s.cmd)) →
    step s = .next (Spec.errorOf { s with turns := rest } .illegalCommand)) ∧
  (∀ w : Word, Spec.rsv w = 0 → Spec.imm8 w ∈ Spec.legalImm8 (Spec.opc w) →
    ∃ i, i.wellFormed = true ∧ decode w = .ok i)

/-- 30_encoding R168: command words of the pseudo-instruction table, one of each family (a sanity check). -/
def Obligations.SampleWordsDecode : Prop :=
  decode 0x00000001#32 = .ok .create ∧ decode 0x00000003#32 = .ok .modulate ∧
  decode 0x00000005#32 = .ok .demodulate ∧ decode 0x00000107#32 = .ok (.runSyncSm .lastFrame) ∧
  decode 0x00000208#32 = .ok (.setSyncPolicy .manual) ∧ decode 0x0000010D#32 = .ok (.setDpsk true) ∧
  decode 0x00000210#32 = .ok (.ldpcEncode 2) ∧ decode 0x00000111#32 = .ok (.ldpcDecode 1) ∧
  decode 0x00000020#32 = .ok .ilPush

/-! ## The core step and its completion (60_exceptions) -/

/-- 60_exceptions R500: the core step runs the command the accepted word decodes to. The queue of turns that says when the core
moves is the model's choice (log 1). -/
def Obligations.StepRunsTheAcceptedCommand : Prop :=
  ∀ (s : State) (i : Instr), s.busy = true → s.faulted = false → decode s.cmd = .ok i →
    (s.turns = [] → step s = exec i s) ∧
    (∀ rest, s.turns = .core :: rest → step s = exec i { s with turns := rest })

/-- 60_exceptions R501, R503, R510, R520: every command completes, by success or by an error, never by a fault; it clears no
pending bit and changes nothing on the host's side. The bits it sets pending are those of R520: DONE, ERR for an error,
SYNC_CHANGE where a command that writes the sync state changes it, and IL_BLOCK for an attempt of IL_PUSH. (That CREATE and DESTROY
do not set SYNC_CHANGE is the model's reading: log 14.) -/
def Obligations.EveryCommandCompletes : Prop :=
  ∀ (i : Instr) (s : State), ∃ t, exec i s = .next t ∧ t.busy = false ∧ t.done = true ∧
    (t.err = true ↔ t.errcode ≠ .none) ∧ t.irqPend.getLsbD 0 = true ∧
    (t.err = true → t.irqPend.getLsbD 1 = true) ∧ s.irqPend &&& t.irqPend = s.irqPend ∧ Spec.SameHostSide s t ∧
    ∀ b, t.irqPend.getLsbD b = true ↔ s.irqPend.getLsbD b = true ∨ b = 0 ∨ (b = 1 ∧ t.err = true) ∨
      (b = 2 ∧ Spec.syncOf t ≠ Spec.syncOf s ∧ Spec.writesSyncState i = true) ∨ (b = 3 ∧ i = .ilPush ∧ t.err = false ∧ t.res1 = 1)

/-- 60_exceptions R503, R504, 40_control R200: an error changes nothing but its completion, except that CREATE first destroys
the old instance. That this sets no pending bit, also where it ends Trial or Synced, is the model's reading (log 14). -/
def Obligations.ErrorsChangeNothingElse : Prop :=
  ∀ (i : Instr) (s t : State), exec i s = .next t → t.err = true →
    (i ≠ .create → t = Spec.errorOf s t.errcode) ∧
    (i = .create → t = Spec.errorOf (Spec.destroyed s) .configError)

/-- 30_encoding R162 step 4, R163: a command of "cfg yes" raises NotConfigured while CONFIGURED = 0. -/
def Obligations.UnconfiguredCommandsRaiseNotConfigured : Prop :=
  ∀ (i : Instr) (s : State), i.wellFormed = true → Spec.needsConfigured i = true → s.modem = none →
    exec i s = .next (Spec.errorOf s .notConfigured)

/-- 43_sync R362: of the commands on a running modem only RUN_SYNC_SM and SET_SYNC_POLICY with Unsynced write the sync
state (CREATE makes a new modem); no host access does. -/
def Obligations.OnlyTwoCommandsWriteTheSyncState : Prop :=
  (∀ (i : Instr) (s t : State) (m m' : Modem), exec i s = .next t → s.modem = some m → t.modem = some m' →
    i ≠ .create → m'.syncState ≠ m.syncState → (∃ src, i = .runSyncSm src) ∨ i = .setSyncPolicy .unsynced) ∧
  (∀ (op : HostOp) (s t : State), State.hostStep op s = .next t → t.modem = s.modem)

/-- 70_reset R575, 20_memory R128: the latched configuration changes by CREATE only; a CFG write never reaches it. -/
def Obligations.ConfigurationStaysLatched : Prop :=
  (∀ (i : Instr) (s t : State) (m m' : Modem), exec i s = .next t → i ≠ .create → s.modem = some m →
    t.modem = some m' → m'.cfg = m.cfg) ∧
  (∀ (op : HostOp) (s t : State), State.hostStep op s = .next t →
    t.modem.map Modem.cfg = s.modem.map Modem.cfg)

/-! ## Lifecycle and control commands (40_control) -/

/-- 40_control R201: the twenty checks. -/
def Obligations.ValidityIsTheTwentyChecks : Prop :=
  ∀ c : ModemConfig, c.valid = true ↔
    (1 ≤ c.nc ∧ c.nc ≤ 64) ∧
    2 ≤ c.ns ∧
    c.nc * (c.ns - 1) ≤ 4096 ∧
    c.bps = 2 ∧
    1 ≤ c.m ∧
    c.ncp ≤ c.m ∧
    c.ns * (c.m + c.ncp) ≤ 8191 ∧
    c.m + c.ncp + c.ftWin + 1 ≤ c.ns * (c.m + c.ncp) ∧
    ((∀ b ∈ c.carrierBins, b < c.m) ∧ c.carrierBins.Nodup) ∧
    (∀ p ∈ c.pilots, Fp.isFinite p.re = true ∧ Fp.isFinite p.im = true ∧
      ¬ (Fp.isZero p.re = true ∧ Fp.isZero p.im = true)) ∧
    (Fp.isFinite c.fs = true ∧ Fp.lt Fp.zero c.fs = true) ∧
    (c.nuwbits ≤ 256 ∧ c.ntxtbits ≤ 256 ∧ c.nuwbits % 2 = 0 ∧ c.ntxtbits % 2 = 0) ∧
    ((∀ p ∈ c.uwPos ++ c.txtPos, p < c.nc * (c.ns - 1) * c.bps) ∧ (c.uwPos ++ c.txtPos).Nodup ∧
      (∀ p ∈ c.uwPos, p ^^^ 1 ∈ c.uwPos) ∧ (∀ p ∈ c.txtPos, p ^^^ 1 ∈ c.txtPos)) ∧
    (1 ≤ c.trialFrames ∧ 1 ≤ c.falloutFrames) ∧
    (c.codeId ≤ 2 ∧ c.decType ≤ 1) ∧
    (c.txFiltLen ≤ 128 ∧ ∀ x ∈ c.txFilt, Fp.isFinite x = true) ∧
    (Fp.isFinite c.timingMxThresh = true ∧ Fp.le Fp.zero c.timingMxThresh = true ∧
      Fp.le c.timingMxThresh Fp.one = true) ∧
    (Fp.isFinite c.foffEstGain = true ∧ Fp.le Fp.zero c.foffEstGain = true ∧
      Fp.isFinite c.timingGain = true ∧ Fp.le Fp.zero c.timingGain = true) ∧
    (∀ x ∈ [c.txScale, c.msScale, c.llrMax, c.sigma2Min], Fp.isFinite x = true ∧ Fp.lt Fp.zero x = true) ∧
    (1 ≤ c.ilFrames →
      c.npay * 2 = (codeTable c.codeId).n ∧ c.ilFrames * c.npay ≤ 14144 ∧
      c.ilPerm.Perm (List.range (c.ilFrames * c.npay)) ∧
      c.ilPassMin ≤ (codeTable c.codeId).m ∧ 1 ≤ c.ilTrialBlocks ∧ 1 ≤ c.ilFalloutBlocks)

/-- 20_memory R128: CREATE reads each field of the CFG block at its offset, and each table up to its configured count (or up
to the hardware limit, log 21) and no further: entries beyond the count are ignored. -/
def Obligations.CreateReadsTheCfgBlock : Prop :=
  ∀ s : State,
    let c := s.readCfg
    (c.nc = s.readLE 0x010000 4 ∧ c.ns = s.readLE 0x010004 4 ∧ c.bps = s.readLE 0x010008 4 ∧
      c.m = s.readLE 0x01000C 4 ∧ c.ncp = s.readLE 0x010010 4 ∧ c.nuwbits = s.readLE 0x010014 4 ∧
      c.ntxtbits = s.readLE 0x010018 4 ∧ c.ilFrames = s.readLE 0x01001C 4 ∧ c.trialFrames = s.readLE 0x010020 4 ∧
      c.falloutFrames = s.readLE 0x010024 4 ∧ c.uwThresh = s.readLE 0x010028 4 ∧ c.ftWin = s.readLE 0x01002C 4 ∧
      c.codeId = s.readLE 0x010030 4 ∧ c.ilPassMin = s.readLE 0x010034 4 ∧ c.ilTrialBlocks = s.readLE 0x010038 4 ∧
      c.ilFalloutBlocks = s.readLE 0x01003C 4 ∧ c.decType = s.readLE 0x010040 4 ∧
      c.txFiltLen = s.readLE 0x010044 4) ∧
    (c.fs = s.readF64 0x010080 ∧ c.timingMxThresh = s.readF64 0x010088 ∧ c.foffEstGain = s.readF64 0x010090 ∧
      c.timingGain = s.readF64 0x010098 ∧ c.txScale = s.readF64 0x0100A0 ∧ c.msScale = s.readF64 0x0100A8 ∧
      c.llrMax = s.readF64 0x0100B0 ∧ c.sigma2Min = s.readF64 0x0100B8) ∧
    (∀ i, i < c.nc → i < 64 → c.carrierBins[i]? = some (s.readLE (0x010100 + 4 * i) 4) ∧
      c.pilots[i]? = some ⟨s.readF64 (0x010200 + 16 * i), s.readF64 (0x010208 + 16 * i)⟩) ∧
    (∀ i, i < c.nuwbits → i < 256 → c.uwBits[i]? = some ((s.readByte (0x010600 + i)).getLsbD 0) ∧
      c.uwPos[i]? = some (s.readLE (0x010700 + 4 * i) 4)) ∧
    (∀ i, i < c.ntxtbits → i < 256 → c.txtPos[i]? = some (s.readLE (0x010B00 + 4 * i) 4)) ∧
    (∀ i, i < c.txFiltLen → i < 128 → c.txFilt[i]? = some (s.readF64 (0x010F00 + 8 * i))) ∧
    (∀ i, i < (codeTable c.codeId).n - (codeTable c.codeId).m → i < 4096 →
      c.testPattern[i]? = some ((s.readByte (0x011300 + i)).getLsbD 0)) ∧
    (∀ i, i < c.ilFrames * c.npay → i < 14144 → c.ilPerm[i]? = some (s.readLE (0x012300 + 4 * i) 4)) ∧
    (c.carrierBins.length = min c.nc 64 ∧ c.pilots.length = min c.nc 64 ∧ c.uwBits.length = min c.nuwbits 256 ∧
      c.uwPos.length = min c.nuwbits 256 ∧ c.txtPos.length = min c.ntxtbits 256 ∧
      c.txFilt.length = min c.txFiltLen 128 ∧
      c.testPattern.length = min ((codeTable c.codeId).n - (codeTable c.codeId).m) 4096 ∧
      c.ilPerm.length = min (c.ilFrames * c.npay) 14144)

/-- 40_control R200, R202, 10_state R44, R62 to R74: CREATE with a valid CFG block latches it, gives every modem field its
"after CREATE" value, and the registers read as the table of R44 says (RES1 to RES3 read 0: log 13). With an invalid one it
raises ConfigError and leaves the core unconfigured. That it sets no SYNC_CHANGE, also where it ends the Trial or Synced of an old
instance, is the model's reading of 43_sync R369 (log 14). -/
def Obligations.CreateInstallsAValidConfiguration : Prop :=
  ∀ s : State,
    (s.readCfg.valid = true → ∃ m : Modem,
      exec .create s = .next { s with
        modem := some m, nonconv := false, res0 := BitVec.ofNat 32 s.readCfg.spf, res1 := 0, res2 := 0, res3 := 0,
        busy := false, done := true, err := false, errcode := .none,
        irqPend := s.irqPend ||| 0x1#32 } ∧
      m.cfg = s.readCfg ∧
      (m.tAbs = 0 ∧ m.frameStart = 0 ∧ m.nin = m.cfg.spf ∧ m.rx = List.replicate (3 * m.cfg.spf) ⟨0#64, 0#64⟩) ∧
      (m.foffEst = 0#64 ∧ m.foffPhase = 0#64 ∧ m.driftAcc = 0#64 ∧ m.timingMx = 0#64) ∧
      (m.prevPilot = List.replicate m.cfg.nc ⟨0#64, 0#64⟩ ∧ m.prevValid = false) ∧
      (m.outValid = false ∧ m.outZ = List.replicate m.cfg.nds ⟨0#64, 0#64⟩ ∧
        m.outA = List.replicate m.cfg.nds 0#64 ∧ m.outPhi = List.replicate m.cfg.nds 0#64 ∧
        m.outBits = List.replicate m.cfg.bpf false ∧ m.outSigma2 = m.cfg.sigma2Min ∧ m.uwErrs = 0 ∧
        m.snrDb = 0#64 ∧ m.frameCount = 0) ∧
      (m.clkAdjSum = 0 ∧ m.clkSamples = 0 ∧ m.clockPpm = 0#64) ∧
      (m.candValid = false ∧ m.candPos = 0 ∧ m.candFoff = 0#64) ∧
      (m.syncState = .searching ∧ m.good = 0 ∧ m.bad = 0 ∧ m.policy = .auto) ∧
      (m.phaseBw = .high ∧ m.timingEn = true ∧ m.foffEn = true ∧ m.phaseEn = true ∧ m.dpsk = false) ∧
      m.filtHist = List.replicate 127 ⟨0#64, 0#64⟩ ∧
      (m.ilRing = [] ∧ m.ilState = .search ∧ m.ilSince = 0 ∧ m.ilGood = 0 ∧ m.ilBad = 0 ∧ m.ilLast = 0) ∧
      (m.ilDecBits = List.replicate (m.cfg.ilFrames * ((codeTable m.cfg.codeId).n - (codeTable m.cfg.codeId).m)) false ∧
        m.ilIter = 0 ∧ m.ilPass = 0 ∧ m.ilValid = false ∧ m.ilConv = false) ∧
      (m.berBits = 0 ∧ m.berErrs = 0)) ∧
    (s.readCfg.valid = true → ∀ t, exec .create s = .next t →
      t.readReg 0x00C = 0x0A#32 ∧ t.readReg 0x010 = 0 ∧ t.readReg 0x034 = BitVec.ofNat 32 s.readCfg.spf ∧
      t.readReg 0x038 = 0x10#32 ∧ t.readReg 0x03C = 0x0F#32 ∧
      ∀ off ∈ [0x048, 0x04C, 0x050, 0x054, 0x058, 0x05C, 0x060, 0x064, 0x068, 0x06C, 0x070, 0x074],
        t.readReg off = 0) ∧
    (s.readCfg.valid = false → exec .create s = .next (Spec.errorOf (Spec.destroyed s) .configError))

/-- 40_control R205: DESTROY makes the modem unset, so its registers read 0 and STATUS shows DONE alone; nothing else
changes, and on an unconfigured core nothing at all but the completion. That DONE is the one pending bit set, also where it ends
Trial or Synced, is the model's reading (log 14). -/
def Obligations.DestroyUnsetsTheModem : Prop :=
  ∀ s : State,
    (s.configured = true → exec .destroy s = .next { s with
      modem := none, nonconv := false, busy := false, done := true, err := false, errcode := .none,
      irqPend := s.irqPend ||| 0x1#32 }) ∧
    (s.configured = false → exec .destroy s = .next { s with
      busy := false, done := true, err := false, errcode := .none, irqPend := s.irqPend ||| 0x1#32 }) ∧
    (s.configured = true → ∀ t, exec .destroy s = .next t →
      t.readReg 0x00C = 0x2#32 ∧
      ∀ off ∈ [0x034, 0x038, 0x03C, 0x048, 0x04C, 0x050, 0x054, 0x058, 0x05C, 0x060, 0x064, 0x068, 0x06C, 0x070,
        0x074], t.readReg off = 0)

/-- 40_control R207, R220: GET_NIN gives `st.nin` in RES0; GET_STATS writes RES0 to RES3, the sync state's number and three
statistics as binary32; neither changes anything else. -/
def Obligations.GetNinAndGetStatsOnlyReport : Prop :=
  ∀ (s : State) (m : Modem), s.modem = some m →
    exec .getNin s = .next { s with
      res0 := BitVec.ofNat 32 m.nin, busy := false, done := true, err := false, errcode := .none,
      irqPend := s.irqPend ||| 0x1#32 } ∧
    exec .getStats s = .next { s with
      res0 := (match m.syncState with | .searching => 0#32 | .trial => 1#32 | .synced => 2#32),
      res1 := Fp.toF32 m.snrDb, res2 := Fp.toF32 m.clockPpm, res3 := Fp.toF32 m.timingMx,
      busy := false, done := true, err := false, errcode := .none, irqPend := s.irqPend ||| 0x1#32 }

/-- 40_control R212, R214 to R217, 10_state R49: each setter writes its own mode field, the MODE register shows it in its
bit, and every other bit of MODE and every other field stay. -/
def Obligations.SettersWriteTheirModeField : Prop :=
  ∀ (s : State) (m : Modem) (b : PhaseBw) (f : Bool), s.modem = some m →
    let done (m' : Modem) : State :=
      { s with modem := some m', busy := false, done := true, err := false, errcode := .none,
               irqPend := s.irqPend ||| 0x1#32 }
    let onlyBit (t : State) (k : Nat) (v : Bool) : Prop :=
      ∀ j, (t.readReg 0x03C).getLsbD j = if j = k then v else (s.readReg 0x03C).getLsbD j
    (exec (.setPhaseBw b) s = .next (done { m with phaseBw := b }) ∧
      onlyBit (done { m with phaseBw := b }) 0 (decide (b = .high))) ∧
    (exec (.enableTiming f) s = .next (done { m with timingEn := f }) ∧
      onlyBit (done { m with timingEn := f }) 1 f) ∧
    (exec (.enableFreq f) s = .next (done { m with foffEn := f }) ∧ onlyBit (done { m with foffEn := f }) 2 f) ∧
    (exec (.enablePhase f) s = .next (done { m with phaseEn := f }) ∧ onlyBit (done { m with phaseEn := f }) 3 f) ∧
    (exec (.setDpsk f) s = .next (done { m with dpsk := f }) ∧ onlyBit (done { m with dpsk := f }) 4 f)

/-- 40_control R210, 43_sync R368, R369: SET_SYNC_POLICY writes the policy; Auto and Manual change nothing else, Unsynced
enters Searching, with SYNC_CHANGE pending where the state was another. -/
def Obligations.SetSyncPolicyEntersSearchingForUnsynced : Prop :=
  ∀ (s : State) (m : Modem) (p : Policy), s.modem = some m →
    (p ≠ .unsynced → exec (.setSyncPolicy p) s = .next { s with
      modem := some { m with policy := p }, busy := false, done := true, err := false, errcode := .none,
      irqPend := s.irqPend ||| 0x1#32 }) ∧
    exec (.setSyncPolicy .unsynced) s = .next { s with
      modem := some (Spec.searching (s.cmdCtrl.getLsbD 1) { m with policy := .unsynced }),
      busy := false, done := true, err := false, errcode := .none,
      irqPend := (if m.syncState = .searching then s.irqPend else s.irqPend ||| 0x4#32) ||| 0x1#32 }

/-- 45_interleaver R472: BER_RESET zeroes both counters and nothing else. -/
def Obligations.BerResetZeroesTheCounters : Prop :=
  ∀ (s : State) (m : Modem), s.modem = some m →
    exec .berReset s = .next { s with
      modem := some { m with berBits := 0, berErrs := 0 }, busy := false, done := true, err := false,
      errcode := .none, irqPend := s.irqPend ||| 0x1#32 }

/-! ## The modulator (41_modulator) -/

/-- 41_modulator R250, R256, R257, 20_memory R131: MODULATE with the right counts sends a frame: SAMPLE_OUT holds the scaled
filtered samples, every other byte is unchanged, only the filter history of the modem changes and RES0 is SPF. With a wrong
count it raises ContractViolation. -/
def Obligations.ModulateSendsAFrame : Prop :=
  ∀ (s : State) (m : Modem), s.modem = some m →
    (s.arg0.toNat ≠ m.cfg.bpf ∨ (s.arg1.toNat ≠ 0 ∧ s.arg1.toNat ≠ m.cfg.ntxtbits) →
      exec .modulate s = .next (Spec.errorOf s .contractViolation)) ∧
    (Memory.wf s.mem = true → m.cfg.valid = true → s.arg0.toNat = m.cfg.bpf →
      (s.arg1.toNat = 0 ∨ s.arg1.toNat = m.cfg.ntxtbits) →
      let bits := frameBits m.cfg (Spec.bitsAt s 0x050000 m.cfg.bpf)
        (if s.arg1.toNat = m.cfg.ntxtbits then some (Spec.bitsAt s 0x058000 m.cfg.ntxtbits) else none)
      let v := frameSamples m.cfg m.dpsk bits
      let w := txFilter m.cfg (s.cmdCtrl.getLsbD 3) m.filtHist v
      ∃ mem', v.length = m.cfg.spf ∧ w.length = m.cfg.spf ∧
        let t : State := { s with
          mem := mem', modem := some { m with filtHist := nextHist m.filtHist v },
          res0 := BitVec.ofNat 32 m.cfg.spf, busy := false, done := true, err := false, errcode := .none,
          irqPend := s.irqPend ||| 0x1#32 }
        exec .modulate s = .next t ∧
        (∀ n, n < m.cfg.spf →
          t.readF32 (0x030000 + 8 * n) = Fp.toF32 (Fp.mul m.cfg.txScale (w.getD n Cx.zero).re) ∧
          t.readF32 (0x030004 + 8 * n) = Fp.toF32 (Fp.mul m.cfg.txScale (w.getD n Cx.zero).im)) ∧
        Spec.SameBytesOutside s t 0x030000 (8 * m.cfg.spf))

/-- 41_modulator R250: the unique word is forced at its positions, the text bits at theirs where they are supplied, and every
other bit is the caller's. -/
def Obligations.UniqueWordAndTextAreForced : Prop :=
  ∀ (c : ModemConfig) (caller : List Bool) (text : List Bool), c.valid = true → c.Shaped →
    caller.length = c.bpf → text.length = c.ntxtbits →
    let plain := frameBits c caller none
    let full := frameBits c caller (some text)
    (∀ k, k < c.nuwbits → plain[c.uwPos.getD k 0]? = c.uwBits[k]? ∧ full[c.uwPos.getD k 0]? = c.uwBits[k]?) ∧
    (∀ k, k < c.ntxtbits → full[c.txtPos.getD k 0]? = text[k]? ∧
      plain[c.txtPos.getD k 0]? = caller[c.txtPos.getD k 0]?) ∧
    (∀ p, p ∉ c.uwPos → plain[p]? = caller[p]? ∧ (p ∉ c.txtPos → full[p]? = caller[p]?))

/-- 41_modulator R250 to R253: the frame is the pilot row followed by the data rows, each on the wire as its symbol row. Data row
`r` carries on carrier `k` the point of frame bits `2i` and `2i+1` for `i = (r-1)*NC + k`, where each bit signs one axis of
magnitude `sqrt(0.5)`; with DPSK that point times the row before, whose first is the pilot row. -/
def Obligations.DataRowsCarryTheMappedBits : Prop :=
  ∀ (c : ModemConfig) (b : List Bool) (r : Nat), r < c.ns →
    let axis (x : Bool) : F64 := Fp.mul (if x then 0xBFF0000000000000#64 else 0x3FF0000000000000#64)
      (Fp.sqrt 0x3FE0000000000000#64)
    let rows (dpsk : Bool) := c.pilots :: dataRows c dpsk b (c.ns - 1) 1 c.pilots
    (∀ k, 1 ≤ r → k < c.nc → c.pilots.length = c.nc →
      let i := (r - 1) * c.nc + k
      let point : C64 := ⟨axis (b.getD (2 * i) false), axis (b.getD (2 * i + 1) false)⟩
      ((rows false).getD r []).getD k Cx.zero = point ∧
      ((rows true).getD r []).getD k Cx.zero = Cx.mul point (((rows true).getD (r - 1) []).getD k Cx.zero)) ∧
    ∀ (dpsk : Bool) (n : Nat), 1 ≤ c.m → c.ncp ≤ c.m → n < c.m + c.ncp →
      (frameSamples c dpsk b).length = c.ns * (c.m + c.ncp) ∧
      (frameSamples c dpsk b).getD (r * (c.m + c.ncp) + n) Cx.zero =
        (symbolRow c ((rows dpsk).getD r [])).getD n Cx.zero

/-- 41_modulator R254, R255: a symbol row is the inverse transform `u` of its carrier values, preceded by its last NCP samples.
Its twiddles have the four exact quadrant values, whose zero component is +0 (log 29), and are `expj(2*pi*(k mod M)/M)` elsewhere
(the order of the multiplications: log 10). -/
def Obligations.SymbolRowIsThePrefixedInverseTransform : Prop :=
  ∀ (c : ModemConfig) (x : List C64), 1 ≤ c.m → c.ncp ≤ c.m → x.length = c.carrierBins.length →
    let u (n : Nat) : C64 := Cx.smul (Fp.div Fp.one (Fp.ofNat c.m))
      (Cx.sum ((List.range c.carrierBins.length).map fun k =>
        Cx.mul (x.getD k Cx.zero) (Cx.twiddle c.m (c.carrierBins.getD k 0 * n))))
    (symbolRow c x).length = c.m + c.ncp ∧
    (∀ n, n < c.m + c.ncp → (symbolRow c x).getD n Cx.zero = u ((n + c.m - c.ncp) % c.m)) ∧
    ∀ k, let r := k % c.m
      (r = 0 → Cx.twiddle c.m k = ⟨0x3FF0000000000000#64, 0#64⟩) ∧
      (r ≠ 0 → 4 * r = c.m → Cx.twiddle c.m k = ⟨0#64, 0x3FF0000000000000#64⟩) ∧
      (r ≠ 0 → 2 * r = c.m → Cx.twiddle c.m k = ⟨0xBFF0000000000000#64, 0#64⟩) ∧
      (r ≠ 0 → 4 * r = 3 * c.m → Cx.twiddle c.m k = ⟨0#64, 0xBFF0000000000000#64⟩) ∧
      (r ≠ 0 → 4 * r ≠ c.m → 2 * r ≠ c.m → 4 * r ≠ 3 * c.m →
        Cx.twiddle c.m k = Cx.expj (Fp.div (Fp.mul Fp.twoPi (Fp.ofNat r)) (Fp.ofNat c.m)))

/-- 41_modulator R256: the filter is the convolution of the taps with the stream, the history standing before the frame, and
off it passes the frame; afterwards the history holds the stream's last samples, most recent first. -/
def Obligations.TransmitFilterFollowsTheStream : Prop :=
  ∀ (c : ModemConfig) (hist v : List C64), hist.length = 127 → c.txFiltLen ≤ 128 →
    let before (n k : Nat) : C64 := if k ≤ n then v.getD (n - k) Cx.zero else hist.getD (k - n - 1) Cx.zero
    txFilter c false hist v = v ∧
    (c.txFiltLen = 0 → txFilter c true hist v = v) ∧
    (1 ≤ c.txFiltLen → (txFilter c true hist v).length = v.length ∧
      ∀ n, n < v.length → (txFilter c true hist v).getD n Cx.zero =
        Cx.sum ((List.range c.txFiltLen).map fun k => Cx.smul (c.txFilt.getD k Fp.zero) (before n k))) ∧
    (nextHist hist v).length = 127 ∧
    ∀ i, i < 127 → (nextHist hist v).getD i Cx.zero =
      if i < v.length then v.getD (v.length - 1 - i) Cx.zero else hist.getD (i - v.length) Cx.zero

/-! ## The demodulator and SYNC_SEARCH (42_demodulator) -/

/-- 42_demodulator R290, R291: DEMODULATE and SYNC_SEARCH raise ContractViolation when ARG0 is not `st.nin` or a sample the
conversion keeps is not finite; with CTRL.REAL_IN the imaginary part is not checked. -/
def Obligations.StreamCommandsCheckTheirInput : Prop :=
  ∀ (s : State) (m : Modem), s.modem = some m → (s.arg0.toNat ≠ m.nin ∨ ¬ Spec.InputFinite s m.nin) →
    exec .demodulate s = .next (Spec.errorOf s .contractViolation) ∧
    exec .syncSearch s = .next (Spec.errorOf s .contractViolation)

/-- 42_demodulator R291, 00_scope R18: the append gives the new samples the absolute indices from `t_abs` on and keeps the
older ones that fit in the buffer. -/
def Obligations.AppendedSamplesHaveTheirIndex : Prop :=
  ∀ (m : Modem) (xs : List C64), m.rx.length = m.cfg.rxbufLen → xs.length ≤ m.cfg.rxbufLen →
    let m' := m.append xs
    m'.tAbs = m.tAbs + xs.length ∧ m'.rx.length = m.cfg.rxbufLen ∧
    (∀ k, k < xs.length → m'.sample ((m.tAbs : Int) + k) = xs.getD k Cx.zero) ∧
    (∀ i : Int, (m'.tAbs : Int) - m.cfg.rxbufLen ≤ i → i < m.tAbs → m'.sample i = m.sample i) ∧
    m' = { m with rx := m'.rx, tAbs := m'.tAbs }

/-- 42_demodulator R292: when fewer than SPF + LOOKAHEAD samples from F have arrived, DEMODULATE emits nothing: only the
stream, OUT_VALID, `nin` = SPF, RES0 and RES1 change. -/
def Obligations.DemodulateWithoutAFrame : Prop :=
  ∀ (s : State) (m : Modem), s.modem = some m → s.arg0.toNat = m.nin → Spec.InputFinite s m.nin →
    let m1 := m.append (Spec.input s m.nin)
    (m1.tAbs : Int) - m.frameStart < (m.cfg.spf : Int) + m.cfg.lookahead →
    exec .demodulate s = .next { s with
      modem := some { m1 with outValid := false, nin := m.cfg.spf },
      res0 := BitVec.ofNat 32 m.cfg.spf, res1 := 0, busy := false, done := true, err := false, errcode := .none,
      irqPend := s.irqPend ||| 0x1#32 }

/-- 42_demodulator R292, R300, R313, 20_memory R124, R131: otherwise DEMODULATE emits the frame at F: SYM_OUT and BIT_OUT hold
it, every other byte is unchanged, RES0 is the new `nin` and RES1 is 1. -/
def Obligations.DemodulateEmitsAFrame : Prop :=
  ∀ (s : State) (m : Modem), s.modem = some m → Memory.wf s.mem = true → m.cfg.valid = true →
    s.arg0.toNat = m.nin → Spec.InputFinite s m.nin →
    let m1 := m.append (Spec.input s m.nin)
    (m.cfg.spf : Int) + m.cfg.lookahead ≤ (m1.tAbs : Int) - m.frameStart →
    ∃ mem', let m2 := m1.emit.2
      let t : State := { s with
        mem := mem', modem := some m2, res0 := BitVec.ofNat 32 m2.nin, res1 := 1,
        busy := false, done := true, err := false, errcode := .none, irqPend := s.irqPend ||| 0x1#32 }
      exec .demodulate s = .next t ∧
      (∀ i, i < m.cfg.nds →
        t.readF32 (0x040000 + 16 * i) = Fp.toF32 (m2.outZ.getD i Cx.zero).re ∧
        t.readF32 (0x040004 + 16 * i) = Fp.toF32 (m2.outZ.getD i Cx.zero).im ∧
        t.readF32 (0x040008 + 16 * i) = Fp.toF32 (m2.outA.getD i Fp.zero) ∧
        t.readF32 (0x04000C + 16 * i) = Fp.toF32 (m2.outPhi.getD i Fp.zero)) ∧
      (∀ b, b < m.cfg.bpf → t.readByte (0x060000 + b) = if m2.outBits.getD b false then 1 else 0) ∧
      (∀ a, (a < 0x040000 ∨ 0x040000 + 16 * m.cfg.nds ≤ a) → (a < 0x060000 ∨ 0x060000 + m.cfg.bpf ≤ a) →
        t.readByte a = s.readByte a)

/-- 42_demodulator R300 to R303, R308, R309, R311, R312, R313: what an emission changes in the modem. Fine timing picks the first
offset of its order with the greatest metric, and the accumulated drift gives the step `adj`: -1, 0 or 1, and 0 with fine
timing disabled, which then also keeps the timing state; F, `nin` and the clock sums advance by it. The de-rotated frame gives
the pilot rows `Ht` and `Hn`, and these the noise, the SNR and, unless ENABLE_FREQ is off, the frequency estimate. Candidate,
sync, mode, modulator, interleaver and BER fields are unchanged. The exact wrap and the order of the multiplications are the
model's choice (log 8, log 10), that `prev_pilot` is `Ht` is log 16. -/
def Obligations.AnEmissionAdvancesTheModem : Prop :=
  ∀ m : Modem, ∃ adj : Int, (adj = -1 ∨ adj = 0 ∨ adj = 1) ∧
    let m2 := m.emit.2
    let len : Int := (m.cfg.spf : Int) + adj
    (m.timingEn = false → adj = 0 ∧ m2.timingMx = m.timingMx ∧ m2.driftAcc = m.driftAcc) ∧
    (m.timingEn = true → ∃ tau : Int,
      let metric (u : Int) : F64 := m.mx (m.frameStart + (m.cfg.spf : Int) + u)
      let drift := Fp.add m.driftAcc (Fp.mul m.cfg.timingGain (Fp.ofInt tau))
      tau.natAbs ≤ m.cfg.ftWin ∧ m2.timingMx = metric tau ∧
      (∀ u : Int, u.natAbs ≤ m.cfg.ftWin → Fp.lt (metric tau) (metric u) = false ∧
        (Spec.TriedBefore u tau → Fp.le (metric tau) (metric u) = false)) ∧
      (Fp.le 0x3FF0000000000000#64 drift = true →
        adj = 1 ∧ m2.driftAcc = Fp.sub drift 0x3FF0000000000000#64) ∧
      (Fp.le 0x3FF0000000000000#64 drift = false → Fp.le drift 0xBFF0000000000000#64 = true →
        adj = -1 ∧ m2.driftAcc = Fp.add drift 0x3FF0000000000000#64) ∧
      (Fp.le 0x3FF0000000000000#64 drift = false → Fp.le drift 0xBFF0000000000000#64 = false →
        adj = 0 ∧ m2.driftAcc = drift)) ∧
    (m.cfg.valid = true → m.cfg.Shaped →
      let ht := Spec.pilotRow m m.cfg.ncp
      let hn := Spec.pilotRow m (len.toNat + m.cfg.ncp)
      let nc := m.cfg.nc
      let sigma2 := Fp.max m.cfg.sigma2Min (Fp.mul (Fp.div Fp.one (Fp.ofNat (2 * nc)))
        (Fp.sum ((List.range nc).map fun k => Cx.normSq (Cx.sub (hn.getD k Cx.zero) (ht.getD k Cx.zero)))))
      let power := Fp.mul (Fp.div Fp.one (Fp.ofNat nc))
        (Fp.sum ((List.range nc).map fun k => Cx.normSq (ht.getD k Cx.zero)))
      let delta := Cx.arg (Cx.sum ((List.range nc).map fun k =>
        Cx.mul (hn.getD k Cx.zero) (Cx.conj (ht.getD k Cx.zero))))
      m2.prevPilot = ht ∧ m2.outSigma2 = sigma2 ∧
      (Fp.isZero power = true → m2.snrDb = 0xFFF0000000000000#64) ∧
      (Fp.isZero power = false → m2.snrDb = Fp.mul 0x4024000000000000#64 (Config.log10 (Fp.div power sigma2))) ∧
      (m.foffEn = true → m2.foffEst = Fp.add m.foffEst
        (Fp.div (Fp.mul (Fp.mul m.cfg.foffEstGain delta) m.cfg.fs) (Fp.mul Fp.twoPi (Fp.ofInt len))))) ∧
    m2.frameStart = m.frameStart + len ∧ m2.nin = len.toNat ∧
    m2.clkAdjSum = m.clkAdjSum + adj ∧ m2.clkSamples = m.clkSamples + len ∧
    m2.clockPpm = Fp.div (Fp.mul 0x412E848000000000#64 (Fp.ofInt m2.clkAdjSum)) (Fp.ofInt m2.clkSamples) ∧
    m2.foffPhase = Fp.wrapAngle (Fp.add m.foffPhase
      (Fp.div (Fp.mul (Fp.mul Fp.twoPi m.foffEst) (Fp.ofInt len)) m.cfg.fs)) ∧
    (m.foffEn = false → m2.foffEst = m.foffEst) ∧
    m2.prevValid = true ∧ m2.outValid = true ∧ m2.frameCount = m.frameCount + 1 ∧
    Fp.lt m2.outSigma2 m.cfg.sigma2Min = false ∧
    m2 = { m with
      timingMx := m2.timingMx, driftAcc := m2.driftAcc, outSigma2 := m2.outSigma2, snrDb := m2.snrDb,
      foffEst := m2.foffEst, foffPhase := m2.foffPhase, prevPilot := m2.prevPilot, prevValid := m2.prevValid,
      frameStart := m2.frameStart, nin := m2.nin, clkAdjSum := m2.clkAdjSum, clkSamples := m2.clkSamples,
      clockPpm := m2.clockPpm, outZ := m2.outZ, outA := m2.outA, outPhi := m2.outPhi, outBits := m2.outBits,
      uwErrs := m2.uwErrs, outValid := m2.outValid, frameCount := m2.frameCount }

/-- 42_demodulator R307, R313: an emission stores NDS symbols and 2 * NDS bits; bit `2i` is 1 exactly when the real part of
symbol `i` is below 0, bit `2i+1` when the imaginary part is, and UW_ERRS counts the unique-word bits that differ. -/
def Obligations.HardBitsAreAxisSigns : Prop :=
  ∀ m : Modem, m.cfg.valid = true → m.cfg.Shaped →
    let m2 := m.emit.2
    m2.outZ.length = m.cfg.nds ∧ m2.outA.length = m.cfg.nds ∧ m2.outPhi.length = m.cfg.nds ∧
    m2.outBits.length = m.cfg.bpf ∧
    (∀ i, i < m.cfg.nds →
      m2.outBits[2 * i]? = some (Fp.lt (m2.outZ.getD i Cx.zero).re 0#64) ∧
      m2.outBits[2 * i + 1]? = some (Fp.lt (m2.outZ.getD i Cx.zero).im 0#64)) ∧
    m2.uwErrs = ((List.range m.cfg.nuwbits).filter fun k =>
      m2.outBits.getD (m.cfg.uwPos.getD k 0) false != m.cfg.uwBits.getD k false).length

/-- 42_demodulator R305: the averaging window of a carrier: its pilot sets with `o` ascending, in each the carriers `c-1`, `c`,
`c+1` that exist; the previous frame's set counts in low bandwidth and only once there is one. The phase estimate is the argument
of the sum of the window, the amplitude estimate the mean of its magnitudes. -/
def Obligations.ChannelWindowFollowsTheBandwidth : Prop :=
  ∀ (m : Modem) (ht hn : List C64) (c : Nat), c < m.cfg.nc →
    let window (h : List C64) : List C64 :=
      ((List.range 3).filter fun d => decide (1 ≤ c + d ∧ c + d - 1 < m.cfg.nc)).map
        fun d => h.getD (c + d - 1) Cx.zero
    (m.phaseBw = .high → m.channelTerms ht hn c = window ht ++ window hn) ∧
    (m.phaseBw = .low → m.prevValid = false → m.channelTerms ht hn c = window ht ++ window hn) ∧
    (m.phaseBw = .low → m.prevValid = true →
      m.channelTerms ht hn c = window m.prevPilot ++ (window ht ++ window hn)) ∧
    2 ≤ (m.channelTerms ht hn c).length ∧
    m.channelPhase ht hn c = Cx.arg (Cx.sum (m.channelTerms ht hn c)) ∧
    m.channelAmp ht hn c = Fp.div (Fp.sum ((m.channelTerms ht hn c).map fun u => Fp.sqrt (Cx.normSq u)))
      (Fp.ofNat (m.channelTerms ht hn c).length)

/-- 42_demodulator R306, R313: coherent symbols are rotated by the phase estimate, or passed raw with phase estimation off; DPSK
symbols take the product with the conjugate of the row before over `A * |pilot|^2`, or 0 where A is not positive. An emission
stores for data symbol `i` of row `r`, carrier `k`, the correction of that carrier of the row, with the estimates of its carrier
as metadata. The division of a complex by a real, component by component, is the model's choice (log 9), and so is the order of
the factors in `2*pi*foff_est*n/FS`, which the de-rotation of the carriers uses (log 10). -/
def Obligations.SymbolCorrectionFollowsTheMode : Prop :=
  (∀ (m : Modem) (phi a : F64) (pilot y yPrev : C64),
    (m.dpsk = false → m.phaseEn = true → m.correct phi a pilot y yPrev = Cx.mul y (Cx.expj (Fp.neg phi))) ∧
    (m.dpsk = false → m.phaseEn = false → m.correct phi a pilot y yPrev = y) ∧
    (m.dpsk = true → Fp.lt Fp.zero a = true → m.correct phi a pilot y yPrev =
      Cx.divReal (Cx.mul y (Cx.conj yPrev)) (Fp.mul a (Cx.normSq pilot))) ∧
    (m.dpsk = true → Fp.lt Fp.zero a = false → m.correct phi a pilot y yPrev = ⟨0#64, 0#64⟩)) ∧
  (∀ (m : Modem) (i : Nat), m.cfg.valid = true → m.cfg.Shaped → i < m.cfg.nds →
    let m2 := m.emit.2
    let ht := Spec.pilotRow m m.cfg.ncp
    let hn := Spec.pilotRow m (m2.nin + m.cfg.ncp)
    let r := 1 + i / m.cfg.nc
    let k := i % m.cfg.nc
    let body (row : Nat) : Nat := row * m.cfg.symLen + m.cfg.ncp
    m2.outA.getD i Fp.zero = m.channelAmp ht hn k ∧ m2.outPhi.getD i Fp.zero = m.channelPhase ht hn k ∧
    m2.outZ.getD i Cx.zero = m.correct (m.channelPhase ht hn k) (m.channelAmp ht hn k)
      (m.cfg.pilots.getD k Cx.zero) (Spec.carrier m (body r) k) (Spec.carrier m (body (r - 1)) k))

/-- 42_demodulator R310: `st.nin` is one of SPF - 1, SPF, SPF + 1 at every point after CREATE: every step keeps it so. -/
def Obligations.NinStaysWithinOneSample : Prop :=
  ∀ s t : State, step s = .next t →
    (∀ m, s.modem = some m → (m.nin + 1 = m.cfg.spf ∨ m.nin = m.cfg.spf ∨ m.nin = m.cfg.spf + 1) ∧ 1 ≤ m.cfg.spf) →
    ∀ m, t.modem = some m → (m.nin + 1 = m.cfg.spf ∨ m.nin = m.cfg.spf ∨ m.nin = m.cfg.spf + 1) ∧ 1 ≤ m.cfg.spf

/-- 42_demodulator R292: when a frame is emitted, `t_abs - F` lies in [SPF + LOOKAHEAD, 2*SPF + LOOKAHEAD - 1], so every index the
emission reads is in the sample buffer: the `SPF + adj + SYM_LEN` samples from F it de-rotates, where `adj` is what F advances by
beyond SPF, and the windows of SYM_LEN samples at `F + SPF + tau` that fine timing tries. -/
def Obligations.EmissionReadsOnlyBufferedSamples : Prop :=
  ∀ (m : Modem) (xs : List C64), m.Inv → xs.length = m.nin →
    let m1 := m.append xs
    m1.emits = true →
    (m.cfg.spf : Int) + m.cfg.lookahead ≤ m1.tAbs - m1.frameStart ∧
    (m1.tAbs : Int) - m1.frameStart ≤ 2 * (m.cfg.spf : Int) + m.cfg.lookahead - 1 ∧
    (∀ i : Int, m1.frameStart ≤ i → i < m1.frameStart + m.cfg.spf + m.cfg.lookahead →
      (m1.tAbs : Int) - m.cfg.rxbufLen ≤ i ∧ i < m1.tAbs) ∧
    (let adj := m1.emit.2.frameStart - m1.frameStart - m.cfg.spf
     adj + m.cfg.symLen ≤ m.cfg.lookahead ∧
     ∀ i : Int, m1.frameStart ≤ i → i < m1.frameStart + (m.cfg.spf + adj + m.cfg.symLen) →
      (m1.tAbs : Int) - m.cfg.rxbufLen ≤ i ∧ i < m1.tAbs) ∧
    ∀ tau ∈ 0 :: fineOffsets m.cfg.ftWin, ∀ n : Int, 0 ≤ n → n < m.cfg.symLen →
      let i : Int := m1.frameStart + m.cfg.spf + tau + n
      (m1.tAbs : Int) - m.cfg.rxbufLen ≤ i ∧ i < m1.tAbs

/-- 42_demodulator R304, R320: the candidate is in the window of SPF starts, no start of the window has a greater metric, and none
before it one as great. The metric is the normalized correlation of the SYM_LEN samples with the pilot row. -/
def Obligations.SearchPicksTheEarliestBest : Prop :=
  ∀ m : Modem, 1 ≤ m.cfg.spf →
    let lo : Int := (m.tAbs : Int) - m.cfg.spf - m.cfg.lookahead + 1
    let best := m.searchBest
    0 ≤ best.1 ∧ best.1 < m.cfg.spf ∧ best.2 = m.mx (lo + best.1) ∧
    (∀ k : Int, 0 ≤ k → k < m.cfg.spf → Fp.lt best.2 (m.mx (lo + k)) = false) ∧
    (∀ k : Int, 0 ≤ k → k < best.1 → Fp.le best.2 (m.mx (lo + k)) = false) ∧
    (m.cfg.ncp ≤ m.cfg.m → ∀ t : Int,
      let p (n : Nat) : C64 := (symbolRow m.cfg m.cfg.pilots).getD n Cx.zero
      let overRow {α : Type} (f : Nat → α) : List α := (List.range (m.cfg.m + m.cfg.ncp)).map f
      let corr := Cx.sum (overRow fun n => Cx.mul (m.sample (t + n)) (Cx.conj (p n)))
      let energy := Fp.mul (Fp.sum (overRow fun n => Cx.normSq (m.sample (t + n)))) (Fp.sum (overRow fun n => Cx.normSq (p n)))
      m.mx t = if Fp.lt 0#64 energy = true then Fp.div (Cx.normSq corr) energy else 0#64)

/-- 42_demodulator R320, R322, R323: SYNC_SEARCH reports the best start; above the threshold it latches the candidate, whose
frequency comes from the phase between the prefix there and its copy M samples later, and restarts the stream at it; otherwise it
sets F to `t_abs - SPF` and keeps the other estimators. (The order of the multiplications: log 10.) -/
def Obligations.SyncSearchLatchesOrRealigns : Prop :=
  ∀ (s : State) (m : Modem), s.modem = some m → s.arg0.toNat = m.nin → Spec.InputFinite s m.nin →
    let m1 := m.append (Spec.input s m.nin)
    let lo : Int := (m1.tAbs : Int) - m.cfg.spf - m.cfg.lookahead + 1
    let best := m1.searchBest
    let x (n : Nat) : C64 := m1.sample (lo + best.1 + (n : Int))
    let foff := Fp.div
      (Fp.mul (Cx.arg (Cx.sum ((List.range m.cfg.ncp).map fun n => Cx.mul (x (m.cfg.m + n)) (Cx.conj (x n))))) m.cfg.fs)
      (Fp.mul Fp.twoPi (Fp.ofNat m.cfg.m))
    let t (m' : Modem) (r0 : Word) : State := { s with
      modem := some m', res0 := r0, res1 := BitVec.ofInt 32 best.1, res2 := Fp.toF32 best.2,
      busy := false, done := true, err := false, errcode := .none, irqPend := s.irqPend ||| 0x1#32 }
    (Fp.lt m.cfg.timingMxThresh best.2 = true →
      exec .syncSearch s = .next (t { m1 with
        timingMx := best.2, candValid := true, candPos := lo + best.1, candFoff := foff, frameStart := lo + best.1,
        foffPhase := 0#64, driftAcc := 0#64, foffEst := if m.foffEn then foff else m.foffEst, prevValid := false,
        clkAdjSum := 0, clkSamples := 0, nin := m.cfg.spf, outValid := false } 1)) ∧
    (Fp.lt m.cfg.timingMxThresh best.2 = false →
      exec .syncSearch s = .next (t { m1 with
        timingMx := best.2, frameStart := (m1.tAbs : Int) - m.cfg.spf, nin := m.cfg.spf, outValid := false } 0))

/-! ## The sync machine (43_sync) -/

/-- 43_sync R361, R368: the twelve rows, in order. -/
def Obligations.SyncTransitionsFollowTheTable : Prop :=
  ∀ (m : Modem) (d : Bool) (e : Nat),
    let c := m.cfg
    let tracks : Prop := m.policy ≠ .unsynced
    (∀ ev, m.policy = .unsynced → m.syncStep d ev = Spec.searching d m) ∧
    (∀ ev, tracks → m.syncState = .searching → m.candValid = true →
      m.syncStep d ev = { m with candValid := false, good := 0, bad := 0, syncState := .trial }) ∧
    (∀ ev, tracks → m.syncState = .searching → m.candValid = false → m.syncStep d ev = m) ∧
    (tracks → m.syncState = .trial → m.syncStep d .noFrame = m) ∧
    (tracks → m.syncState = .trial → e < c.uwThresh → m.good + 1 ≥ c.trialFrames →
      m.syncStep d (.frame e) = { m with good := 0, bad := 0, syncState := .synced }) ∧
    (tracks → m.syncState = .trial → e < c.uwThresh → m.good + 1 < c.trialFrames →
      m.syncStep d (.frame e) = { m with good := m.good + 1 }) ∧
    (tracks → m.syncState = .trial → ¬ e < c.uwThresh → m.syncStep d (.frame e) = Spec.searching d m) ∧
    (tracks → m.syncState = .synced → m.syncStep d .noFrame = m) ∧
    (tracks → m.syncState = .synced → e < c.uwThresh →
      m.syncStep d (.frame e) = { m with good := m.good + 1, bad := 0 }) ∧
    (m.policy = .auto → m.syncState = .synced → ¬ e < c.uwThresh → m.bad + 1 ≥ c.falloutFrames →
      m.syncStep d (.frame e) = Spec.searching d m) ∧
    (m.policy = .auto → m.syncState = .synced → ¬ e < c.uwThresh → m.bad + 1 < c.falloutFrames →
      m.syncStep d (.frame e) = { m with bad := m.bad + 1, good := 0 }) ∧
    (m.policy = .manual → m.syncState = .synced → ¬ e < c.uwThresh →
      m.syncStep d (.frame e) = { m with bad := m.bad + 1, good := 0 })

/-- 43_sync R360, R369: RUN_SYNC_SM takes its event from ARG0 or from the last emitted frame, makes one transition, reports the
new state in RES0 and a loss of sync in RES1, and sets SYNC_CHANGE pending where the state changed. -/
def Obligations.RunSyncSmReportsTheTransition : Prop :=
  ∀ (s : State) (m : Modem), s.modem = some m →
    let after (m' : Modem) : State := { s with
      modem := some m',
      res0 := (match m'.syncState with | .searching => 0#32 | .trial => 1#32 | .synced => 2#32),
      res1 := if m.syncState ≠ .searching ∧ m'.syncState = .searching then 1 else 0,
      busy := false, done := true, err := false, errcode := .none,
      irqPend := (if m'.syncState = m.syncState then s.irqPend else s.irqPend ||| 0x4#32) ||| 0x1#32 }
    let d := s.cmdCtrl.getLsbD 1
    exec (.runSyncSm .arg0) s = .next (after (m.syncStep d (.frame s.arg0.toNat))) ∧
    exec (.runSyncSm .lastFrame) s =
      .next (after (m.syncStep d (if m.outValid then .frame m.uwErrs else .noFrame)))

/-- 43_sync R364: from Synced with no bad frame counted, consecutive bad frames under Auto give Searching at the
FALLOUT_FRAMES-th and not before; under Manual no number of them leaves Synced. -/
def Obligations.LossOfSyncNeedsConsecutiveBadFrames : Prop :=
  ∀ (m : Modem) (d : Bool) (es : List Nat), m.syncState = .synced → m.bad = 0 → 1 ≤ m.cfg.falloutFrames →
    (∀ e ∈ es, ¬ e < m.cfg.uwThresh) →
    (m.policy = .auto → es.length < m.cfg.falloutFrames →
      (Spec.runEvents d m es).syncState = .synced ∧ (Spec.runEvents d m es).bad = es.length) ∧
    (m.policy = .auto → es.length = m.cfg.falloutFrames → (Spec.runEvents d m es).syncState = .searching) ∧
    (m.policy = .manual → (Spec.runEvents d m es).syncState = .synced ∧ (Spec.runEvents d m es).bad = es.length)

/-- 43_sync R363 (its bound, on the events of the machine): from Searching with a candidate, one frame gives Trial and
TRIAL_FRAMES more good frames give Synced, no fewer do. -/
def Obligations.AcquisitionTakesTrialFrames : Prop :=
  ∀ (m : Modem) (d : Bool) (e0 : Nat) (es : List Nat), m.policy ≠ .unsynced → m.syncState = .searching →
    m.candValid = true → 1 ≤ m.cfg.trialFrames → (∀ e ∈ es, e < m.cfg.uwThresh) →
    (es.length < m.cfg.trialFrames → (Spec.runEvents d m (e0 :: es)).syncState = .trial) ∧
    (es.length = m.cfg.trialFrames → (Spec.runEvents d m (e0 :: es)).syncState = .synced)

/-! ## The LDPC codec (44_ldpc) -/

/-- 44_ldpc R400, R401, 00_scope R12: the machine uses the table of the parameter `P_CODES` wherever that meets the constraints, and
in slot 0 has the sizes of the 112/112 code, which the spec lets a model assume; and whatever the parameter, the table it uses does
so (how: log 5). -/
def Obligations.CodeTablesMeetTheirConstraints : Prop :=
  ∀ slot : Nat,
    Spec.CodeConstraints (codeTable slot) ∧
    (slot = 0 → (codeTable slot).n = 224 ∧ (codeTable slot).m = 112) ∧
    (Spec.CodeConstraints (Config.pCodes slot) →
      (slot = 0 → (Config.pCodes slot).n = 224 ∧ (Config.pCodes slot).m = 112) → codeTable slot = Config.pCodes slot)

/-- 44_ldpc R410, R411: LDPC_ENCODE writes to BIT_OUT the one parity vector that makes a codeword with the data bits of BIT_IN,
and RES0 is M; it changes no other byte and no modem field, configured or not. -/
def Obligations.LdpcEncodeCompletesACodeword : Prop :=
  ∀ (s : State) (slot : BitVec 8), slot.toNat < 3 → Memory.wf s.mem = true →
    let c := codeTable slot.toNat
    let d := Spec.bitsAt s 0x050000 (c.n - c.m)
    ∃ mem', let t : State := { s with
        mem := mem', res0 := BitVec.ofNat 32 c.m, busy := false, done := true, err := false, errcode := .none,
        irqPend := s.irqPend ||| 0x1#32 }
      exec (.ldpcEncode slot) s = .next t ∧
      passCount c (d ++ Spec.bitsAt t 0x060000 c.m) = c.m ∧
      (∀ p : List Bool, p.length = c.m → passCount c (d ++ p) = c.m → p = Spec.bitsAt t 0x060000 c.m) ∧
      (∀ i, i < c.m → (t.readByte (0x060000 + i)).toNat ≤ 1) ∧
      Spec.SameBytesOutside s t 0x060000 c.m

/-- 44_ldpc R420, 60_exceptions R504: LDPC_DECODE checks the count, the decoder type, the iteration limit and the LLRs, in that
order, the first failure deciding the error. -/
def Obligations.LdpcDecodeChecksInOrder : Prop :=
  ∀ (s : State) (m : Modem) (slot : BitVec 8), slot.toNat < 3 → s.modem = some m →
    let c := codeTable slot.toNat
    (s.arg2.toNat ≠ c.n → exec (.ldpcDecode slot) s = .next (Spec.errorOf s .contractViolation)) ∧
    (s.arg2.toNat = c.n → (1 < s.arg1.toNat ∨ 65535 < s.arg0.toNat) →
      exec (.ldpcDecode slot) s = .next (Spec.errorOf s .badArgument)) ∧
    (s.arg2.toNat = c.n → s.arg1.toNat ≤ 1 → s.arg0.toNat ≤ 65535 →
      (∃ x ∈ Spec.llrsAt s c.n, Fp.isNaN x = true) →
      exec (.ldpcDecode slot) s = .next (Spec.errorOf s .contractViolation))

/-- 44_ldpc R421 to R426, 20_memory R131: LDPC_DECODE decodes its LLRs by the rounds of R421 to R425 (sum-product for ARG1 = 0,
min-sum for 1), writes the N hard bits to BIT_OUT, and reports the rounds in RES0 and the parity pass count of just those bits in
RES1; RES2 is 1 exactly when every check holds and NONCONV exactly when not; no other byte and no modem field changes. (The order of
the products and of the channel LLR in a sum: log 10, log 11.) -/
def Obligations.LdpcDecodeReportsItsBits : Prop :=
  ∀ (s : State) (m : Modem) (slot : BitVec 8), slot.toNat < 3 → s.modem = some m → Memory.wf s.mem = true →
    Spec.DecodeReady s (codeTable slot.toNat) →
    let c := codeTable slot.toNat
    ∃ mem' iters pass, let t : State := { s with
        mem := mem', res0 := BitVec.ofNat 32 iters, res1 := BitVec.ofNat 32 pass,
        res2 := if pass = c.m then 1 else 0, nonconv := decide (pass < c.m),
        busy := false, done := true, err := false, errcode := .none, irqPend := s.irqPend ||| 0x1#32 }
      exec (.ldpcDecode slot) s = .next t ∧ pass ≤ c.m ∧
      Spec.IsDecode c ⟨decide (s.arg1.toNat = 1), m.cfg.llrMax, m.cfg.msScale⟩ (Spec.llrsAt s c.n) s.arg0.toNat
        (Spec.bitsAt t 0x060000 c.n) iters pass ∧
      (∀ v, v < c.n → (t.readByte (0x060000 + v)).toNat ≤ 1) ∧
      Spec.SameBytesOutside s t 0x060000 c.n

/-- 44_ldpc R427 for the min-sum decoder: LLRs that are finite, nonzero and carry the signs of a codeword decode to it in one
round, with every check satisfied. (For sum-product the rule needs more of `P_MATH` than the spec gives: log 6.) -/
def Obligations.MinSumDecodingOfACodewordIsIdempotent : Prop :=
  ∀ (s : State) (m : Modem) (slot : BitVec 8) (bits : List Bool), slot.toNat < 3 → s.modem = some m → m.Inv →
    Memory.wf s.mem = true → Spec.DecodeReady s (codeTable slot.toNat) →
    let c := codeTable slot.toNat
    s.arg1.toNat = 1 → 1 ≤ s.arg0.toNat → bits.length = c.n → passCount c bits = c.m →
    (∀ v, v < c.n → let x := (Spec.llrsAt s c.n).getD v 0#64
      Fp.isFinite x = true ∧ Fp.isZero x = false ∧ Fp.lt x 0#64 = bits.getD v false) →
    ∃ t, exec (.ldpcDecode slot) s = .next t ∧ Spec.bitsAt t 0x060000 c.n = bits ∧ t.res0 = 1 ∧
      t.res1 = BitVec.ofNat 32 c.m ∧ t.res2 = 1 ∧ t.nonconv = false

/-- 44_ldpc R428: the two codec commands give the same bits and results in any two states that agree on their operands, their
input window and, for the decoder, LLR_MAX and MS_SCALE, whatever else they hold. -/
def Obligations.CodecReadsOnlyItsInputs : Prop :=
  ∀ (s s' t t' : State) (slot : BitVec 8), slot.toNat < 3 → Memory.wf s.mem = true → Memory.wf s'.mem = true →
    let c := codeTable slot.toNat
    ((∀ i, i < c.n - c.m → (s.readByte (0x050000 + i)).getLsbD 0 = (s'.readByte (0x050000 + i)).getLsbD 0) →
      exec (.ldpcEncode slot) s = .next t → exec (.ldpcEncode slot) s' = .next t' →
      t.res0 = t'.res0 ∧ Spec.bitsAt t 0x060000 c.m = Spec.bitsAt t' 0x060000 c.m) ∧
    (∀ m m', s.modem = some m → s'.modem = some m' → m.cfg.llrMax = m'.cfg.llrMax → m.cfg.msScale = m'.cfg.msScale →
      s.arg0 = s'.arg0 → s.arg1 = s'.arg1 → s.arg2 = s'.arg2 → Spec.llrsAt s c.n = Spec.llrsAt s' c.n →
      exec (.ldpcDecode slot) s = .next t → exec (.ldpcDecode slot) s' = .next t' →
      t.err = t'.err ∧ t.errcode = t'.errcode ∧
      (t.err = false → t.res0 = t'.res0 ∧ t.res1 = t'.res1 ∧ t.res2 = t'.res2 ∧ t.nonconv = t'.nonconv ∧
        Spec.bitsAt t 0x060000 c.n = Spec.bitsAt t' 0x060000 c.n))

/-! ## The interleaver and the BER counters (45_interleaver) -/

/-- 45_interleaver R450: the payload symbols are NPAY many, in increasing order, and neither bit of one carries the unique word
or text. -/
def Obligations.PayloadSymbolsAreNpayMany : Prop :=
  ∀ c : ModemConfig, c.valid = true → c.Shaped →
    (payloadSymbols c).length = c.npay ∧ (payloadSymbols c).Pairwise (· < ·) ∧
    ∀ i, i ∈ payloadSymbols c ↔ i < c.nds ∧ 2 * i ∉ c.uwPos ∧ 2 * i ∉ c.txtPos ∧
      2 * i + 1 ∉ c.uwPos ∧ 2 * i + 1 ∉ c.txtPos

/-- 45_interleaver R460: IL_PUSH without an attempt. With IL_FRAMES = 0 it raises ContractViolation; gated (Searching, no emitted
frame, or the frame pushed before) it only reports 0, 0 and the IL state; otherwise, where no attempt is due, the frame joins
the ring. -/
def Obligations.IlPushWithoutAnAttempt : Prop :=
  ∀ (s : State) (m : Modem), s.modem = some m →
    let report (m' : Modem) (pushed : Word) : State := { s with
      modem := some m', res0 := pushed, res1 := 0,
      res2 := (match m.ilState with | .search => 0#32 | .trial => 1#32 | .synced => 2#32), res3 := 0,
      busy := false, done := true, err := false, errcode := .none, irqPend := s.irqPend ||| 0x1#32 }
    let ring := m.ilRing ++ [m.frameRecord]
    let kept := if m.cfg.ilFrames < ring.length then ring.drop 1 else ring
    (m.cfg.ilFrames = 0 → exec .ilPush s = .next (Spec.errorOf s .contractViolation)) ∧
    (1 ≤ m.cfg.ilFrames → (m.syncState = .searching ∨ m.outValid = false ∨ m.frameCount = m.ilLast) →
      exec .ilPush s = .next (report m 0)) ∧
    (1 ≤ m.cfg.ilFrames → m.syncState ≠ .searching → m.outValid = true → m.frameCount ≠ m.ilLast →
      (m.ilState = .search → kept.length ≠ m.cfg.ilFrames) →
      (m.ilState ≠ .search → m.ilSince + 1 ≠ m.cfg.ilFrames) →
      exec .ilPush s = .next (report
        { m with ilLast := m.frameCount, ilRing := kept, ilSince := m.ilSince + 1 } 1))

/-- 45_interleaver R451 to R453, R460, R470, 20_memory R131: IL_PUSH with an attempt decodes the block, writes its data bits to
DEC_OUT and no other byte, reports them, sets IL_BLOCK pending, moves the IL machine by the block's goodness, and counts bit
errors where the machine began in synced and BER_TEST_EN is set. A frame's record holds its payload symbols; the LLRs of codeword
`j` are those of the block symbols that IL_PERM names for it, the known padding bits excepted (the order of the factors in
`2*r*A*re(z)/sigma2`: log 10), and are decoded by the rounds of 44_ldpc R421 to R425. -/
def Obligations.IlPushAttemptsABlock : Prop :=
  ∀ (s : State) (m : Modem), s.modem = some m → Memory.wf s.mem = true → 1 ≤ m.cfg.ilFrames →
    m.syncState ≠ .searching → m.outValid = true → m.frameCount ≠ m.ilLast →
    let c := m.cfg.code
    let k := c.n - c.m
    let ring := m.ilRing ++ [m.frameRecord]
    let kept := if m.cfg.ilFrames < ring.length then ring.drop 1 else ring
    (m.ilState = .search ∧ kept.length = m.cfg.ilFrames ∨
      m.ilState ≠ .search ∧ m.ilSince + 1 = m.cfg.ilFrames) →
    let m1 := { m with ilLast := m.frameCount, ilRing := kept, ilSince := m.ilSince + 1 }
    let ds := (List.range m.cfg.ilFrames).map fun j =>
      bpDecode c (bpParams m.cfg m.cfg.decType) (codewordLlrs m.cfg (kept.flatMap IlRecord.symbols) j) c.maxIter
    let bits := ds.flatMap fun d => d.hard.take k
    let conv := ds.all fun d => decide (d.pass = c.m)
    let good := ds.all fun d => decide (m.cfg.ilPassMin ≤ d.pass)
    let m2 := Modem.ilStep good { m1 with
      ilDecBits := bits, ilIter := maxOf (ds.map Decoded.iters), ilPass := minOf (ds.map Decoded.pass),
      ilValid := true, ilConv := conv }
    let m3 : Modem := if s.cmdCtrl.getLsbD 2 = true ∧ m.ilState = .synced then { m2 with
        berBits := m2.berBits + m.cfg.ilFrames * k
        berErrs := m2.berErrs + ((List.range (m.cfg.ilFrames * k)).filter fun n =>
          bits.getD n false != m.cfg.testPattern.getD (n % k) false).length }
      else m2
    (let psym := (List.range m.cfg.nds).filter fun i => decide (2 * i ∉ m.cfg.uwPos ∧ 2 * i ∉ m.cfg.txtPos)
     m.frameRecord = { z := psym.map fun i => m.outZ.getD i Cx.zero, a := psym.map fun i => m.outA.getD i Fp.zero,
                       sigma2 := m.outSigma2 }) ∧
    (m.Inv → ∀ j, j < m.cfg.ilFrames →
      let npay := m.cfg.npay
      let llrs := codewordLlrs m.cfg (kept.flatMap IlRecord.symbols) j
      (∃ d, ds[j]? = some d ∧ Spec.IsDecode c ⟨decide (m.cfg.decType = 1), m.cfg.llrMax, m.cfg.msScale⟩ llrs c.maxIter
        d.hard d.iters d.pass) ∧
      llrs.length = c.n ∧ c.n = 2 * npay ∧
      (∀ p b, (p, b) ∈ c.pad → llrs.getD p 0#64 = if b then Fp.neg m.cfg.llrMax else m.cfg.llrMax) ∧
      ∀ t, t < npay →
        let i := m.cfg.ilPerm.getD (j * npay + t) 0
        ∃ r, kept[i / npay]? = some r ∧
          let llr (comp : F64) : F64 := Fp.clip (Fp.div (Fp.mul (Fp.mul (Fp.mul 0x4000000000000000#64
            (Fp.sqrt 0x3FE0000000000000#64)) (r.a.getD (i % npay) Fp.zero)) comp) r.sigma2) m.cfg.llrMax
          (2 * t ∉ c.pad.map Prod.fst → llrs.getD (2 * t) 0#64 = llr (r.z.getD (i % npay) Cx.zero).re) ∧
          (2 * t + 1 ∉ c.pad.map Prod.fst → llrs.getD (2 * t + 1) 0#64 = llr (r.z.getD (i % npay) Cx.zero).im)) ∧
    ∃ mem', let t : State := { s with
        mem := mem', modem := some m3, nonconv := !conv, res0 := 1, res1 := 1,
        res2 := (match m2.ilState with | .search => 0#32 | .trial => 1#32 | .synced => 2#32),
        res3 := BitVec.ofNat 32 (minOf (ds.map Decoded.pass)),
        busy := false, done := true, err := false, errcode := .none,
        irqPend := (s.irqPend ||| 0x8#32) ||| 0x1#32 }
      exec .ilPush s = .next t ∧ bits.length = m.cfg.ilFrames * k ∧
      Spec.bitsAt t 0x070000 (m.cfg.ilFrames * k) = bits ∧
      (∀ i, i < m.cfg.ilFrames * k → (t.readByte (0x070000 + i)).toNat ≤ 1) ∧
      Spec.SameBytesOutside s t 0x070000 (m.cfg.ilFrames * k)

/-- 45_interleaver R461, R462: the nine rows, with `il_since` 0 after each but row 2. -/
def Obligations.IlTransitionsFollowTheTable : Prop :=
  ∀ m : Modem,
    let c := m.cfg
    (m.ilState = .search →
      m.ilStep true = { m with ilGood := 0, ilBad := 0, ilSince := 0, ilState := .trial } ∧ m.ilStep false = m) ∧
    (m.ilState = .trial → m.ilGood + 1 ≥ c.ilTrialBlocks →
      m.ilStep true = { m with ilGood := 0, ilBad := 0, ilSince := 0, ilState := .synced }) ∧
    (m.ilState = .trial → m.ilGood + 1 < c.ilTrialBlocks →
      m.ilStep true = { m with ilGood := m.ilGood + 1, ilSince := 0 }) ∧
    (m.ilState = .trial →
      m.ilStep false = { m with ilGood := 0, ilBad := 0, ilSince := 0, ilState := .search }) ∧
    (m.ilState = .synced → m.ilStep true = { m with ilGood := m.ilGood + 1, ilBad := 0, ilSince := 0 }) ∧
    (m.ilState = .synced → m.policy = .auto → m.ilBad + 1 ≥ c.ilFalloutBlocks →
      m.ilStep false = { m with ilGood := 0, ilBad := 0, ilSince := 0, ilState := .search }) ∧
    (m.ilState = .synced → m.policy = .auto → m.ilBad + 1 < c.ilFalloutBlocks →
      m.ilStep false = { m with ilBad := m.ilBad + 1, ilGood := 0, ilSince := 0 }) ∧
    (m.ilState = .synced → m.policy = .manual →
      m.ilStep false = { m with ilBad := m.ilBad + 1, ilGood := 0, ilSince := 0 })

/-! ## The host port, faults, interrupts and reset (10_state, 20_memory, 60_exceptions, 70_reset) -/

/-- 20_memory R122, R127, 60_exceptions R510: an access that is not legal records BusError and changes nothing else, also while
the core is busy (log 18). -/
def Obligations.IllegalAccessesRecordBusError : Prop :=
  ∀ (s : State) (op : HostOp) (rest : List Turn), s.turns = .host op :: rest → s.faulted = false →
    ¬ Spec.LegalAccess op.width op.addr →
    step s = .next { s with turns := rest, faulted := true, faultReason := some .busError }

/-- 20_memory R141, 60_exceptions R510, 70_reset R570: while BUSY = 1 a legal access other than a register read or a write of
CTRL, IRQ_EN or IRQ_PEND records HostRace and changes nothing else (log 17). -/
def Obligations.BusyAccessesRecordHostRace : Prop :=
  ∀ (s : State) (op : HostOp) (rest : List Turn), s.turns = .host op :: rest → s.faulted = false → s.busy = true →
    Spec.LegalAccess op.width op.addr → ¬ Spec.AllowedWhileBusy op →
    step s = .next { s with turns := rest, faulted := true, faultReason := some .hostRace }

/-- 60_exceptions R500, R510, 10_state R77: a faulted machine ignores CMD writes and its core takes no step, so nothing but the
queue of turns changes; only a power-on reset clears the fault. What any other host access to it does is left to the outcome
`fault` (log 2); where one answers a next state, it too changed nothing else. -/
def Obligations.AFaultedCoreTakesNoStep : Prop :=
  ∀ (s : State) (rest : List Turn) (w : Word), s.faulted = true →
    (s.turns = .core :: rest → step s = .next { s with turns := rest }) ∧
    (s.turns = [] → step s = .next s) ∧
    (s.turns = .host (.write 4 0x000008#24 w) :: rest → step s = .next { s with turns := rest }) ∧
    (∀ t op, s.turns = .host op :: rest → step s = .next t → t = { s with turns := rest }) ∧
    (s.turns = .powerOn :: rest → ∃ t, step s = .next t ∧ t.faulted = false ∧ t.faultReason = none)

/-- 10_state R44 to R51, 20_memory R129, 60_exceptions R502: a register read returns the register and changes nothing else; each
register shows its field, ERRCODE the number of its code, SYNC and MODE their bit fields; CMD and the reserved offsets read 0, and
while the modem is unset so does every view of it. (FOFF_HZ and TIMING_EST show `foff_est` and `drift_acc`: log 15.) -/
def Obligations.RegisterReadsShowTheirFields : Prop :=
  ∀ (s : State) (rest : List Turn) (a : BitVec 24), s.turns = .host (.read 4 a) :: rest → s.faulted = false →
    a.toNat < 0x100 → a.toNat % 4 = 0 →
    step s = .next { s with turns := rest, busData := s.readReg a.toNat } ∧
    (s.readReg 0x000 = 0x4F46444D#32 ∧ s.readReg 0x004 = s.ctrl ∧ s.readReg 0x008 = 0 ∧
      s.readReg 0x014 = s.arg0 ∧ s.readReg 0x018 = s.arg1 ∧ s.readReg 0x01C = s.arg2 ∧ s.readReg 0x020 = s.arg3 ∧
      s.readReg 0x024 = s.res0 ∧ s.readReg 0x028 = s.res1 ∧ s.readReg 0x02C = s.res2 ∧ s.readReg 0x030 = s.res3 ∧
      s.readReg 0x040 = s.irqEn ∧ s.readReg 0x044 = s.irqPend ∧ ∀ off, 0x078 ≤ off → s.readReg off = 0) ∧
    s.readReg 0x010 = (match s.errcode with
      | .none => 0#32 | .configError => 1#32 | .contractViolation => 2#32 | .illegalCommand => 3#32
      | .notConfigured => 4#32 | .badArgument => 6#32) ∧
    ((s.readReg 0x00C).getLsbD 0 = s.busy ∧ (s.readReg 0x00C).getLsbD 1 = s.done ∧
      (s.readReg 0x00C).getLsbD 2 = s.err ∧ (s.readReg 0x00C).getLsbD 3 = s.configured ∧
      (s.readReg 0x00C).getLsbD 6 = s.nonconv ∧ ∀ j, 9 ≤ j → (s.readReg 0x00C).getLsbD j = false) ∧
    (∀ m, s.modem = some m →
      s.readReg 0x034 = BitVec.ofNat 32 m.nin ∧ s.readReg 0x048 = Fp.toF32 m.foffEst ∧
      s.readReg 0x04C = Fp.toF32 m.driftAcc ∧ s.readReg 0x050 = BitVec.ofNat 32 m.uwErrs ∧
      s.readReg 0x054 = BitVec.ofNat 32 m.frameCount ∧ s.readReg 0x058 = BitVec.ofNat 32 m.ilSince ∧
      s.readReg 0x05C = BitVec.ofNat 32 m.ilIter ∧ s.readReg 0x060 = BitVec.ofNat 32 m.ilPass ∧
      s.readReg 0x064 = BitVec.ofNat 32 m.berBits ∧ s.readReg 0x068 = BitVec.ofNat 32 m.berErrs ∧
      s.readReg 0x06C = Fp.toF32 m.snrDb ∧ s.readReg 0x070 = Fp.toF32 m.clockPpm ∧
      s.readReg 0x074 = Fp.toF32 m.timingMx ∧ (s.readReg 0x00C).getLsbD 4 = m.outValid ∧
      (s.readReg 0x00C).getLsbD 5 = m.candValid ∧ (s.readReg 0x00C).getLsbD 7 = m.ilValid ∧
      (s.readReg 0x00C).getLsbD 8 = m.ilConv) ∧
    (∀ m, s.modem = some m → let sync := s.readReg 0x038
      sync.extractLsb' 0 2 = (match m.syncState with | .searching => 0#2 | .trial => 1#2 | .synced => 2#2) ∧
      sync.extractLsb' 2 2 = (match m.ilState with | .search => 0#2 | .trial => 1#2 | .synced => 2#2) ∧
      sync.extractLsb' 4 2 = (match m.policy with | .unsynced => 0#2 | .auto => 1#2 | .manual => 2#2) ∧
      sync.extractLsb' 6 2 = 0#2 ∧ (sync.extractLsb' 8 8).toNat = min m.good 255 ∧
      (sync.extractLsb' 16 8).toNat = min m.bad 255 ∧ sync.extractLsb' 24 8 = 0#8) ∧
    (∀ m, s.modem = some m → let mode := s.readReg 0x03C
      mode.getLsbD 0 = decide (m.phaseBw = .high) ∧ mode.getLsbD 1 = m.timingEn ∧ mode.getLsbD 2 = m.foffEn ∧
      mode.getLsbD 3 = m.phaseEn ∧ mode.getLsbD 4 = m.dpsk ∧ ∀ j, 5 ≤ j → mode.getLsbD j = false) ∧
    (s.modem = none →
      (∀ off ∈ [0x034, 0x038, 0x03C, 0x048, 0x04C, 0x050, 0x054, 0x058, 0x05C, 0x060, 0x064, 0x068, 0x06C, 0x070,
        0x074], s.readReg off = 0) ∧ ∀ j ∈ [3, 4, 5, 7, 8], (s.readReg 0x00C).getLsbD j = false)

/-- 10_state R44, R45, R50, 20_memory R129, R141, 60_exceptions R520: what a register write stores: CTRL and IRQ_EN keep their four
bits and IRQ_PEND clears the bits written as 1, also while BUSY = 1, where the CTRL the pending command uses stays as it was
latched; on an idle core ARG0 to ARG3 keep the word, and a write to any register but these and CMD is ignored. -/
def Obligations.RegisterWritesStoreTheirFields : Prop :=
  ∀ (s : State) (rest : List Turn) (v : Word), s.faulted = false →
    let writes (a : BitVec 24) (t : State) : Prop :=
      s.turns = .host (.write 4 a v) :: rest → step s = .next { t with turns := rest }
    writes 0x004#24 { s with ctrl := v &&& 0xF#32, cmdCtrl := s.cmdCtrl } ∧
    writes 0x040#24 { s with irqEn := v &&& 0xF#32 } ∧
    writes 0x044#24 { s with irqPend := s.irqPend &&& ~~~v } ∧
    (s.busy = false →
      writes 0x014#24 { s with arg0 := v } ∧ writes 0x018#24 { s with arg1 := v } ∧
      writes 0x01C#24 { s with arg2 := v } ∧ writes 0x020#24 { s with arg3 := v } ∧
      ∀ a : BitVec 24, a.toNat < 0x100 → a.toNat % 4 = 0 →
        a.toNat ∉ [0x004, 0x008, 0x014, 0x018, 0x01C, 0x020, 0x040, 0x044] → writes a s)

/-- 20_memory R123, R129, R127: a legal write to a window stores its bytes, lowest address first, and changes nothing else, and a
read of the same width returns the value and changes nothing but the data it returns. That 8- and 16-bit accesses reach the CFG
window too is the model's reading (log 19). -/
def Obligations.WindowWritesReadBack : Prop :=
  ∀ (s : State) (w : Nat) (a : BitVec 24) (v : Word) (rest : List Turn), Memory.wf s.mem = true →
    s.faulted = false → s.busy = false → 0x010000 ≤ a.toNat → a.toNat < 0x0C0000 → (w = 1 ∨ w = 2 ∨ w = 4) →
    a.toNat % w = 0 → s.turns = .host (.write w a v) :: .host (.read w a) :: rest →
    ∃ mem', let t : State := { s with mem := mem', turns := .host (.read w a) :: rest }
      step s = .next t ∧ (∀ k, k < w → (t.readByte (a.toNat + k)).toNat = v.toNat / 256 ^ k % 256) ∧
      Spec.SameBytesOutside s t a.toNat w ∧ Memory.wf mem' = true ∧
      step t = .next { t with turns := rest, busData := BitVec.ofNat 32 (v.toNat % 256 ^ w) }

/-- 60_exceptions R500: a CMD write on an idle, unfaulted core is accepted: the word and CTRL are latched, BUSY is set, DONE and
ERR are cleared, and nothing else changes; the next core turn completes it with BUSY = 0 again. -/
def Obligations.CommandWritesAreAccepted : Prop :=
  ∀ (s : State) (w : Word) (rest : List Turn), s.faulted = false → s.busy = false →
    s.turns = .host (.write 4 0x000008#24 w) :: .core :: rest →
    let t : State := { s with
      turns := .core :: rest, cmd := w, cmdCtrl := s.ctrl, busy := true, done := false, err := false }
    step s = .next t ∧ ∃ u, step t = .next u ∧ u.busy = false ∧ u.done = true ∧ u.turns = rest

/-- 70_reset R550, R551, R552, 60_exceptions R520: after a power-on reset every register reads 0 but ID, the IRQ line is low, the
core is idle and unfaulted, the modem is unset, and every byte of the windows holds its `P_POR_MEM` draw; the reset state is
such a state. That each reset draws anew, by counting itself, is the model's choice (log 3, log 4). -/
def Obligations.PowerOnResetGivesTheResetValues : Prop :=
  (∀ (s : State) (rest : List Turn), s.turns = .powerOn :: rest →
    ∃ t, step s = .next t ∧ t.turns = rest ∧ t.porCount = s.porCount + 1 ∧ t.readReg 0x000 = 0x4F46444D#32 ∧
      (∀ off, off ≠ 0 → t.readReg off = 0) ∧ t.irqLine = false ∧ t.busy = false ∧ t.cmd = 0 ∧ t.cmdCtrl = 0 ∧
      t.faulted = false ∧ t.faultReason = none ∧ t.modem = none ∧ t.errcode = .none ∧
      ∀ a, t.readByte a = Config.porMem t.porCount a) ∧
  (State.reset.readReg 0x000 = 0x4F46444D#32 ∧ (∀ off, off ≠ 0 → State.reset.readReg off = 0) ∧
    State.reset.irqLine = false ∧ State.reset.busy = false ∧ State.reset.cmd = 0 ∧ State.reset.cmdCtrl = 0 ∧
    State.reset.faulted = false ∧ State.reset.faultReason = none ∧ State.reset.modem = none ∧
    State.reset.errcode = .none ∧ ∃ n, ∀ a, State.reset.readByte a = Config.porMem n a)

/-- 60_exceptions R520: the IRQ line is high exactly while a pending bit is enabled. -/
def Obligations.TheIrqLineFollowsEnabledPendingBits : Prop :=
  ∀ s : State, s.irqLine = true ↔ ∃ b, b < 32 ∧ s.irqPend.getLsbD b = true ∧ s.irqEn.getLsbD b = true

/-! ## The invariant (Safety.lean) -/

/-- The invariant holds after a power-on reset. -/
def Obligations.InvariantHoldsAtReset : Prop := State.reset.Inv

/-- Every step keeps the invariant: canonical memory confined to the windows, reserved bits 0, a fault with its reason, DONE and
ERR clear while busy, and of a configured modem: a valid configuration, `nin` within one sample of SPF, the stream position
of R292, the sync and interleaver counters within their limits, and a full ring of whole records outside IL search. -/
def Obligations.EveryStepKeepsTheInvariant : Prop :=
  ∀ s t : State, s.Inv → step s = .next t → t.Inv
end

