-- ==== Sys2Proof/Laws/Ieee.lean ====
section
/-! SUPPORT. Signs, zeros and comparisons of the binary64 operations. -/

namespace Sys2Proof.Fp

theorem nanResult_isNaN (op : Nat) (x y : F64) : isNaN (nanResult op x y) = true := by
  unfold isNaN nanResult magBits
  generalize Config.nanPayload op x y = p
  have h : (p ||| 0x7FF8000000000000#64).toNat % 0x8000000000000000 = ((p ||| 0x7FF8000000000000#64) &&& 0x7FFFFFFFFFFFFFFF#64).toNat := by
    rw [BitVec.toNat_and]
    exact (Nat.and_two_pow_sub_one_eq_mod _ 63).symm
  rw [h]
  have h2 : 0x7FF8000000000000#64 ≤ ((p ||| 0x7FF8000000000000#64) &&& 0x7FFFFFFFFFFFFFFF#64) := by
    have : ((p ||| 0x7FF8000000000000#64) &&& 0x7FFFFFFFFFFFFFFF#64) = (p &&& 0x7FFFFFFFFFFFFFFF#64) ||| 0x7FF8000000000000#64 := by
      ext i hi
      simp only [BitVec.getElem_and, BitVec.getElem_or]
      have h3 : (0x7FF8000000000000#64)[i] = true → (0x7FFFFFFFFFFFFFFF#64)[i] = true := by
        revert i; decide
      cases h4 : (0x7FF8000000000000#64)[i] <;> simp [h4] at h3 ⊢
      exact h3
    rw [this, BitVec.le_def, BitVec.toNat_or]
    exact Nat.right_le_or
  rw [BitVec.le_def] at h2
  simp only [BitVec.toNat_ofNat] at h2
  simp only [Nat.blt, Nat.ble_eq, inf64]
  omega

theorem lt_nan_left {x y : F64} (h : isNaN x = true) : lt x y = false := by simp [lt, h]

theorem lt_iff (x y : F64) : lt x y = true ↔ isNaN x = false ∧ isNaN y = false ∧ key x < key y := by
  simp [lt, and_assoc]

theorem le_iff (x y : F64) : le x y = true ↔ isNaN x = false ∧ isNaN y = false ∧ key x ≤ key y := by
  simp [le, and_assoc]

/-- The greater of two values is never below the first. -/
theorem max_not_lt (a b : F64) : lt (max a b) a = false := by
  unfold max
  split_ifs with h1 h2
  · exact lt_nan_left (nanResult_isNaN _ _ _)
  · simp only [lt, Bool.and_eq_true, decide_eq_true_eq] at h2
    simp only [lt, Bool.and_eq_false_iff, decide_eq_false_iff_not]; right; omega
  · simp [lt]

theorem isNeg_eq (x : F64) : isNeg x = x.msb := by
  rw [BitVec.msb_eq_decide, Bool.eq_iff_iff]; simp only [isNeg, Nat.ble_eq, decide_eq_true_eq]
theorem mag_eq (x : F64) : magBits x = (x.setWidth 63).toNat := by simp [magBits]
theorem mag_lt (x : F64) : magBits x < 0x8000000000000000 := Nat.mod_lt _ (by decide)

theorem neg_mag (x : F64) : magBits (neg x) = magBits x := by
  rw [mag_eq, mag_eq, neg, BitVec.setWidth_xor]
  have : (negZero.setWidth 63) = 0#63 := by decide
  rw [this]; simp
theorem neg_isNeg (x : F64) : isNeg (neg x) = !isNeg x := by
  rw [isNeg_eq, isNeg_eq, neg, BitVec.msb_xor]
  have : negZero.msb = true := by decide
  rw [this]; simp

theorem make_mag {p : Nat} (h : p ≤ inf64) (b : Bool) : magBits (make b p) = p ∧ isNeg (make b p) = b := by
  have h' : p < 0x8000000000000000 := lt_of_le_of_lt h (by decide)
  unfold magBits isNeg make
  rw [BitVec.toNat_ofNat]
  cases b
  · simp only [Bool.false_eq_true, if_false]
    rw [Nat.mod_eq_of_lt (a := p) (by omega)]
    refine ⟨Nat.mod_eq_of_lt h', ?_⟩
    cases hb : Nat.ble 0x8000000000000000 p
    · rfl
    · rw [Nat.ble_eq] at hb; omega
  · simp only [if_true]
    rw [Nat.mod_eq_of_lt (a := _ + p) (by omega)]
    refine ⟨by omega, ?_⟩
    rw [Nat.ble_eq]; omega

theorem make_notNaN {p : Nat} (h : p ≤ inf64) (b : Bool) : isNaN (make b p) = false := by
  unfold isNaN; rw [(make_mag h b).1]
  cases hb : Nat.blt inf64 p
  · rfl
  · simp only [Nat.blt, Nat.ble_eq] at hb; omega

theorem roundMag_le (t inf n d : Nat) : roundMag t inf n d ≤ inf := by
  unfold roundMag; exact Nat.min_le_right _ _

/-- Not a NaN, with sign `b`. -/
def Signed (b : Bool) (x : F64) : Prop := isNaN x = false ∧ isNeg x = b
/-- Finite and not zero, with sign `b`. -/
def Proper (b : Bool) (x : F64) : Prop := Signed b x ∧ isInf x = false ∧ isZero x = false

theorem make_S {p : Nat} (h : p ≤ inf64) (b : Bool) : Signed b (make b p) := ⟨make_notNaN h b, (make_mag h b).2⟩

theorem mul_S {a b : Bool} {x y : F64} (hx : Signed a x) (hy : Signed b y) (h1 : isInf x = true → isZero y = false)
    (h2 : isInf y = true → isZero x = false) : Signed (Bool.xor a b) (mul x y) := by
  have hs : (isNeg x != isNeg y) = Bool.xor a b := by rw [hx.2, hy.2]
  unfold mul
  simp only [hx.1, hy.1, hs]
  by_cases hi : (isInf x || isInf y) = true
  · have hz : (isZero x || isZero y) = false := by
      rw [Bool.or_eq_true] at hi
      rcases hi with hi | hi
      · rw [h1 hi]
        simp only [isInf, beq_iff_eq] at hi; simp [isZero, hi, inf64]
      · rw [h2 hi]
        simp only [isInf, beq_iff_eq] at hi; (simp [isZero, hi]) <;> decide
    simp only [hi, hz, Bool.or_self, Bool.false_eq_true, if_false, if_true]
    exact make_S (le_refl _) _
  · rw [Bool.not_eq_true] at hi
    simp only [hi, Bool.or_self, Bool.false_eq_true, if_false]
    exact make_S (roundMag_le _ _ _ _) _

theorem unpack_pos {p : Nat} (h : p ≠ 0) : 0 < unpackMag frac64 p := by
  unfold unpackMag; split
  · omega
  · exact Nat.mul_pos (by have := Nat.two_pow_pos frac64; omega) (Nat.two_pow_pos _)

theorem roundEven_one (n : Nat) : roundEven n 1 = n := by
  unfold roundEven; simp [Nat.mod_one]

theorem roundMag_pos {n : Nat} (h : 0 < n) : 0 < roundMag frac64 inf64 n 1 := by
  unfold roundMag
  dsimp only
  rw [lt_min_iff]
  refine ⟨?_, by decide⟩
  rcases Nat.eq_zero_or_pos ((n / 1).log2 - frac64) with h0 | h0
  · rw [h0]; simp only [pow_zero, Nat.mul_one, roundEven_one]; omega
  · have := Nat.mul_pos h0 (Nat.two_pow_pos frac64); omega

theorem toUnits_nonneg {x : F64} (h : isNeg x = false) : 0 ≤ toUnits x := by unfold toUnits; rw [h]; simp
theorem toUnits_nonpos {x : F64} (h : isNeg x = true) : toUnits x ≤ 0 := by unfold toUnits; rw [h]; simp
theorem toUnits_ne {x : F64} (h : isZero x = false) : toUnits x ≠ 0 := by
  have : magBits x ≠ 0 := by simpa [isZero] using h
  have := unpack_pos this
  unfold toUnits; split <;> omega

theorem ofUnits_S {z : Int} {b : Bool} (hz : z ≠ 0) (hb : b = decide (z < 0)) : Signed b (ofUnits z 1) ∧ isZero (ofUnits z 1) = false := by
  subst hb
  have hle := roundMag_le frac64 inf64 z.natAbs 1
  refine ⟨make_S hle _, ?_⟩
  have := roundMag_pos (n := z.natAbs) (by omega)
  unfold isZero ofUnits
  rw [(make_mag hle _).1]
  simp; omega

theorem add_S {b : Bool} {x y : F64} (hx : Signed b x) (hy : Signed b y) : Signed b (add x y) ∧ (isZero x = false → isZero (add x y) = false) := by
  unfold add
  simp only [hx.1, hy.1, Bool.or_self, Bool.false_eq_true, if_false, hx.2, hy.2]
  have hbb : (b != b) = false := by cases b <;> rfl
  by_cases hi : isInf x = true
  · simp only [hi, if_true, hbb, Bool.and_false, Bool.false_eq_true, if_false]; exact ⟨hx, id⟩
  · rw [Bool.not_eq_true] at hi
    simp only [hi, Bool.false_eq_true, if_false]
    by_cases hj : isInf y = true
    · simp only [hj, if_true]
      refine ⟨hy, fun _ => ?_⟩
      simp only [isInf, beq_iff_eq] at hj; simp [isZero, hj, inf64]
    · rw [Bool.not_eq_true] at hj
      simp only [hj, Bool.false_eq_true, if_false]
      have sx : (b = false → 0 ≤ toUnits x) ∧ (b = true → toUnits x ≤ 0) := ⟨fun h => toUnits_nonneg (hx.2.trans h), fun h => toUnits_nonpos (hx.2.trans h)⟩
      have sy : (b = false → 0 ≤ toUnits y) ∧ (b = true → toUnits y ≤ 0) := ⟨fun h => toUnits_nonneg (hy.2.trans h), fun h => toUnits_nonpos (hy.2.trans h)⟩
      split
      · rename_i hz
        constructor
        · cases b
          · exact ⟨by decide, by decide⟩
          · exact ⟨by decide, by decide⟩
        · intro hzx
          have := toUnits_ne hzx
          exfalso
          cases b
          · have := sx.1 rfl; have := sy.1 rfl; omega
          · have := sx.2 rfl; have := sy.2 rfl; omega
      · rename_i hz
        have := ofUnits_S (b := b) hz (by
          cases b
          · have := sx.1 rfl; have := sy.1 rfl; simp; omega
          · have := sx.2 rfl; have := sy.2 rfl; simp; omega)
        exact ⟨this.1, fun _ => this.2⟩

theorem add_zero_F {b : Bool} {x : F64} (hx : Proper b x) : Signed b (add x zero) ∧ isZero (add x zero) = false := by
  obtain ⟨⟨h1, h2⟩, h3, h4⟩ := hx
  have z1 : isNaN zero = false := by decide
  have z2 : isInf zero = false := by decide
  have z3 : toUnits zero = 0 := by decide
  unfold add
  have hz := toUnits_ne h4
  simp only [h1, z1, z2, z3, h3, Bool.or_self, Bool.false_eq_true, if_false, add_zero, hz]
  apply ofUnits_S hz
  subst h2
  cases hn : isNeg x
  · have := toUnits_nonneg hn; simp; omega
  · have := toUnits_nonpos hn; simp; omega

theorem foldl_add_S {b : Bool} (l : List F64) : ∀ x, Signed b x → (∀ y ∈ l, Signed b y) → Signed b (l.foldl add x) := by
  induction l with
  | nil => intro x h _; exact h
  | cons y l ih => intro x h hl; exact ih _ (add_S h (hl y List.mem_cons_self)).1 (fun z hz => hl z (List.mem_cons_of_mem _ hz))

theorem post_F {b : Bool} {x : F64} (hx : Proper b x) (l : List F64) (hl : ∀ y ∈ l, Signed b y) :
    Signed b (add x (sum l)) ∧ isZero (add x (sum l)) = false := by
  cases l with
  | nil => exact add_zero_F hx
  | cons y l =>
    have := foldl_add_S l y (hl y List.mem_cons_self) (fun z hz => hl z (List.mem_cons_of_mem _ hz))
    have h2 := add_S hx.1 this
    exact ⟨h2.1, h2.2 hx.2.2⟩

theorem key_of {b : Bool} {x : F64} (hx : Signed b x) : key x = if b then -(magBits x : Int) else magBits x := by
  unfold key; rw [hx.2]
theorem mag_pos {x : F64} (h : isZero x = false) : 0 < magBits x := by
  have : magBits x ≠ 0 := by simpa [isZero] using h
  omega

theorem F_of_pos {x : F64} (h1 : isFinite x = true) (h2 : lt zero x = true) : Proper false x := by
  rw [lt_iff] at h2
  have k0 : key zero = 0 := by decide
  rw [k0] at h2
  simp only [isFinite, Nat.blt, Nat.ble_eq] at h1
  refine ⟨⟨h2.2.1, ?_⟩, ?_, ?_⟩
  · have h3 := h2.2.2; unfold key at h3; split at h3
    · omega
    · rename_i h; simpa using h
  · simp [isInf]; omega
  · have h3 := h2.2.2; unfold key at h3; simp [isZero]; split at h3 <;> omega

theorem F_neg {b : Bool} {x : F64} (h : Proper b x) : Proper (!b) (neg x) := by
  obtain ⟨⟨h1, h2⟩, h3, h4⟩ := h
  refine ⟨⟨?_, by rw [neg_isNeg, h2]⟩, ?_, ?_⟩
  · unfold isNaN at *; rw [neg_mag]; exact h1
  · unfold isInf at *; rw [neg_mag]; exact h3
  · unfold isZero at *; rw [neg_mag]; exact h4

theorem F_abs {b : Bool} {x : F64} (h : Proper b x) : Proper false (abs x) := by
  obtain ⟨⟨h1, h2⟩, h3, h4⟩ := h
  have hle : magBits x ≤ inf64 := by
    by_contra hc
    have : isNaN x = true := by simp only [isNaN, Nat.blt, Nat.ble_eq]; omega
    rw [this] at h1; cases h1
  have e : abs x = make false (magBits x) := rfl
  rw [e]
  obtain ⟨m1, m2⟩ := make_mag hle false
  refine ⟨⟨make_notNaN hle _, m2⟩, ?_, ?_⟩
  · unfold isInf at *; rw [m1]; exact h3
  · unfold isZero at *; rw [m1]; exact h4

theorem F_min {b : Bool} {x y : F64} (hx : Proper b x) (hy : Proper b y) : Proper b (min x y) := by
  unfold min; rw [hx.1.1, hy.1.1]; simp only [Bool.or_self, Bool.false_eq_true, if_false]; split <;> assumption

theorem F_clip {b : Bool} {x a : F64} (hx : Proper b x) (ha : Proper false a) : Proper b (clip x a) := by
  have hna := F_neg ha
  have kx := key_of hx.1
  have ka := key_of ha.1
  have kn := key_of hna.1
  have px := mag_pos hx.2.2
  have pa := mag_pos ha.2.2
  have pn := mag_pos hna.2.2
  unfold clip min
  rw [hx.1.1, ha.1.1]; simp only [Bool.or_self, Bool.false_eq_true, if_false]
  have lt (u v : F64) (hu : isNaN u = false) (hv : isNaN v = false) (h : key u < key v) : lt u v = true := (lt_iff _ _).2 ⟨hu, hv, h⟩
  have mx : ∀ y, Proper b y → (b = true → y = x) → Proper b (max (neg a) y) := by
    intro y hy hyx
    unfold max
    rw [hna.1.1, hy.1.1]; simp only [Bool.or_self, Bool.false_eq_true, if_false]
    split
    · exact hy
    · rename_i hl
      cases b
      · exfalso; apply hl
        apply lt _ _ hna.1.1 hy.1.1
        rw [kn, key_of hy.1]; have := mag_pos hy.2.2; simp; omega
      · exact hna
  cases b
  · apply mx
    · split <;> assumption
    · simp
  · rw [if_pos (lt _ _ hx.1.1 ha.1.1 (by rw [kx, ka]; simp; omega))]
    exact mx x hx (fun _ => rfl)

def pm (b : Bool) : F64 := if b then neg one else one
theorem pm_mul (a b : Bool) : mul (pm a) (pm b) = pm (Bool.xor a b) := by
  revert a b; decide +kernel
theorem pm_S (b : Bool) : Proper b (pm b) := by
  have : ∀ b, isNaN (pm b) = false ∧ isNeg (pm b) = b ∧ isInf (pm b) = false ∧ isZero (pm b) = false := by decide
  obtain ⟨h1, h2, h3, h4⟩ := this b
  exact ⟨⟨h1, h2⟩, h3, h4⟩


theorem isZero_key {x : F64} (h : isZero x = true) : isNaN x = false ∧ isInf x = false ∧ key x = 0 ∧ toUnits x = 0 := by
  have h0 : magBits x = 0 := by simpa [isZero] using h
  refine ⟨?_, ?_, ?_, ?_⟩
  · unfold isNaN; rw [h0]; decide
  · unfold isInf; rw [h0]; decide
  · unfold key; rw [h0]; split <;> rfl
  · have : unpackMag frac64 0 = 0 := by decide
    unfold toUnits; rw [h0, this]; split <;> rfl

theorem add_zeros {x y : F64} (hx : isZero x = true) (hy : isZero y = true) : isZero (add x y) = true := by
  obtain ⟨a1, a2, -, a4⟩ := isZero_key hx
  obtain ⟨b1, b2, -, b4⟩ := isZero_key hy
  unfold add
  simp only [a1, a2, b1, b2, a4, b4, Bool.or_self, Bool.false_eq_true, if_false, add_zero, if_true]
  split <;> decide

theorem roundMag_zero (d : Nat) : roundMag frac64 inf64 0 d = 0 := by
  have h : ((0 : Nat) / d).log2 - frac64 = 0 := by rw [Nat.zero_div]; rfl
  unfold roundMag
  dsimp only
  rw [h]
  have : roundEven 0 (d * 2 ^ 0) = 0 := by
    unfold roundEven
    simp
  rw [this]; rfl

theorem mul_zero_right {x y : F64} (hx : isFinite x = true) (hy : isZero y = true) : isZero (mul x y) = true := by
  obtain ⟨b1, b2, -, -⟩ := isZero_key hy
  have h0 : magBits y = 0 := by simpa [isZero] using hy
  simp only [isFinite, Nat.blt, Nat.ble_eq] at hx
  have a1 : isNaN x = false := by
    rw [Bool.eq_false_iff]; intro h; simp only [isNaN, Nat.blt, Nat.ble_eq] at h; omega
  have a2 : isInf x = false := by
    rw [Bool.eq_false_iff]; intro h; simp only [isInf, beq_iff_eq] at h; omega
  have hu : unpackMag frac64 0 = 0 := by decide
  unfold mul
  simp only [a1, a2, b1, b2, h0, hu, Bool.or_self, Bool.false_eq_true, if_false, Nat.mul_zero]
  rw [roundMag_zero]
  generalize (isNeg x != isNeg y) = b
  cases b <;> decide

theorem ofInt_zero : isZero (ofInt 0) = true := by
  unfold ofInt ofUnits
  rw [Int.zero_mul]
  show isZero (make (decide ((0:Int) < 0)) (roundMag frac64 inf64 0 1)) = true
  rw [roundMag_zero]; decide

end Sys2Proof.Fp
end

