-- ==== Sys2Proof/Laws/Demodulator.lean ====
section
/-! SUPPORT. What an emission computes and leaves (42_demodulator R300 to R313). -/

namespace Sys2Proof.Machine

theorem symbols_lengths (m : Modem) (rows : List (List C64)) (ht hn : List C64) :
    (m.symbols rows ht hn).z.length = m.cfg.nds ∧ (m.symbols rows ht hn).a.length = m.cfg.nds ∧
    (m.symbols rows ht hn).phi.length = m.cfg.nds ∧ (m.symbols rows ht hn).bits = demapBits (m.symbols rows ht hn).z := by
  simp [Modem.symbols]

theorem demapBits_length (z : List C64) : (demapBits z).length = 2 * z.length := by
  induction z with
  | nil => rfl
  | cons u z ih => simp only [demapBits, List.flatMap_cons, List.length_append] at ih ⊢; rw [ih]; simp; omega

theorem demapBits_get (z : List C64) (i : Nat) (h : i < z.length) :
    (demapBits z)[2 * i]? = some (Fp.lt (z.getD i Cx.zero).re 0#64) ∧ (demapBits z)[2 * i + 1]? = some (Fp.lt (z.getD i Cx.zero).im 0#64) := by
  induction z generalizing i with
  | nil => simp at h
  | cons u z ih =>
    cases i with
    | zero => exact ⟨rfl, rfl⟩
    | succ i => exact ih i (by simpa using h)

theorem fineTiming_cfg (m : Modem) : m.fineTiming.2.cfg = m.cfg := by unfold Modem.fineTiming; split <;> rfl

theorem emit_cfg (m : Modem) : m.emit.2.cfg = m.cfg := fineTiming_cfg m

theorem fineTiming_sync (m : Modem) : m.fineTiming.2.syncState = m.syncState := by unfold Modem.fineTiming; split <;> rfl

theorem emit_sync (m : Modem) : m.emit.2.syncState = m.syncState := fineTiming_sync m

theorem emit_out (m : Modem) : m.emit.1.z = m.emit.2.outZ ∧ m.emit.1.a = m.emit.2.outA ∧ m.emit.1.phi = m.emit.2.outPhi ∧ m.emit.1.bits = m.emit.2.outBits :=
  ⟨rfl, rfl, rfl, rfl⟩

theorem emit_lengths (m : Modem) : m.emit.2.outZ.length = m.cfg.nds ∧ m.emit.2.outA.length = m.cfg.nds ∧ m.emit.2.outPhi.length = m.cfg.nds ∧
    m.emit.2.outBits = demapBits m.emit.2.outZ := by
  have := fineTiming_cfg m
  obtain ⟨h1, h2, h3, h4⟩ := symbols_lengths m.fineTiming.2
    ((List.range m.cfg.ns).map fun r => dftRow m.cfg (m.fineTiming.2.derotate (((m.cfg.spf : Int) + m.fineTiming.1).toNat + m.cfg.symLen)) (r * m.cfg.symLen + m.cfg.ncp))
    (pilotRemoved m.cfg (((List.range m.cfg.ns).map fun r => dftRow m.cfg (m.fineTiming.2.derotate (((m.cfg.spf : Int) + m.fineTiming.1).toNat + m.cfg.symLen)) (r * m.cfg.symLen + m.cfg.ncp)).getD 0 []))
    (pilotRemoved m.cfg (dftRow m.cfg (m.fineTiming.2.derotate (((m.cfg.spf : Int) + m.fineTiming.1).toNat + m.cfg.symLen)) (((m.cfg.spf : Int) + m.fineTiming.1).toNat + m.cfg.ncp)))
  rw [this] at h1 h2 h3
  exact ⟨h1, h2, h3, h4⟩

/-- The step of fine timing and what it writes (42_demodulator R301). -/
theorem fineTiming_spec (m : Modem) : (m.fineTiming.1 = -1 ∨ m.fineTiming.1 = 0 ∨ m.fineTiming.1 = 1) ∧
    (m.timingEn = false → m.fineTiming = (0, m)) ∧
    m.fineTiming.2 = { m with timingMx := m.fineTiming.2.timingMx, driftAcc := m.fineTiming.2.driftAcc } := by
  unfold Modem.fineTiming
  split
  · refine ⟨?_, by simp_all, rfl⟩
    simp only [driftStep]
    split_ifs <;> simp
  · exact ⟨.inr (.inl rfl), fun _ => rfl, rfl⟩

/-! ## The best candidate (R301, R320) -/

/-- `bestOf` keeps the first candidate with the greatest metric: no candidate has a greater one, and none before it one as
great. -/
theorem bestOf_first (m : Modem) (base start : Int) (cands : List Int) :
    let best := m.bestOf base (start, m.mx (base + start)) cands
    best.2 = m.mx (base + best.1) ∧ (∀ u ∈ start :: cands, Fp.lt best.2 (m.mx (base + u)) = false) ∧
    ∃ pre post, start :: cands = pre ++ best.1 :: post ∧ ∀ u ∈ pre, Fp.le best.2 (m.mx (base + u)) = false := by
  induction cands using List.reverseRecOn with
  | nil => exact ⟨rfl, fun u hu => by rw [List.mem_singleton.1 hu]; simp [Modem.bestOf, Fp.lt], [], [], rfl, by simp⟩
  | append_singleton l x ih =>
    intro best
    have hb : best = (fun b : Int × F64 => if Fp.lt b.2 (m.mx (base + x)) then (x, m.mx (base + x)) else b)
        (m.bestOf base (start, m.mx (base + start)) l) := by
      simp only [best, Modem.bestOf, List.foldl_append, List.foldl_cons, List.foldl_nil]
      rfl
    generalize m.bestOf base (start, m.mx (base + start)) l = b at ih hb
    clear_value best
    obtain ⟨i1, i2, pre, post, i3, i4⟩ := ih
    by_cases hl : Fp.lt b.2 (m.mx (base + x)) = true
    · simp only [hl, if_true] at hb
      subst hb
      have up : ∀ u ∈ start :: l, Fp.le (m.mx (base + x)) (m.mx (base + u)) = false := by
        intro u hu
        have h := i2 u hu
        rw [Fp.lt_iff] at hl
        rw [Bool.eq_false_iff, ne_eq, Fp.lt_iff] at h
        rw [Bool.eq_false_iff, ne_eq, Fp.le_iff]
        rintro ⟨_, hn, hk⟩
        exact h ⟨hl.1, hn, by omega⟩
      refine ⟨rfl, fun u hu => ?_, start :: l, [], by simp, up⟩
      rw [← List.cons_append, List.mem_append, List.mem_singleton] at hu
      rcases hu with hu | rfl
      · have h := up u hu
        rw [Bool.eq_false_iff, ne_eq, Fp.le_iff] at h
        rw [Bool.eq_false_iff, ne_eq, Fp.lt_iff]
        rintro ⟨h1, h2, h3⟩
        exact h ⟨h1, h2, le_of_lt h3⟩
      · simp [Fp.lt]
    · rw [Bool.not_eq_true] at hl
      simp only [hl, Bool.false_eq_true, if_false] at hb
      subst hb
      refine ⟨i1, fun u hu => ?_, pre, post ++ [x], by rw [← List.cons_append, i3]; simp, i4⟩
      rw [← List.cons_append, List.mem_append, List.mem_singleton] at hu
      rcases hu with hu | rfl
      · exact i2 u hu
      · exact hl

theorem mem_fineOffsets (w : Nat) (u : Int) : u ∈ fineOffsets w ↔ 1 ≤ u.natAbs ∧ u.natAbs ≤ w := by
  simp only [fineOffsets, List.mem_flatMap, List.mem_range, List.mem_cons, List.not_mem_nil, or_false]
  constructor
  · rintro ⟨k, hk, rfl | rfl⟩ <;> omega
  · rintro ⟨h1, h2⟩
    exact ⟨u.natAbs - 1, by omega, by omega⟩

/-- Fine timing tries its offsets by magnitude, the negative one of two first (R301). -/
theorem fineOffsets_sorted (w : Nat) :
    (0 :: fineOffsets w).Pairwise fun u v => u.natAbs < v.natAbs ∨ (u.natAbs = v.natAbs ∧ u < v) := by
  rw [List.pairwise_cons]
  refine ⟨fun v hv => .inl (by have := (mem_fineOffsets w v).1 hv; simp only [Int.natAbs_zero]; omega), ?_⟩
  induction w with
  | zero => simp [fineOffsets]
  | succ w ih =>
    have : fineOffsets (w + 1) = fineOffsets w ++ [-((w : Int) + 1), (w : Int) + 1] := by
      simp [fineOffsets, List.range_succ]
    rw [this, List.pairwise_append]
    refine ⟨ih, by simp; right; constructor <;> omega, fun u hu v hv => .inl ?_⟩
    have := (mem_fineOffsets w u).1 hu
    simp only [List.mem_cons, List.not_mem_nil, or_false] at hv
    rcases hv with rfl | rfl <;> omega

/-- The offset fine timing picks (R301): in the window, none better, and none as good among those tried before. -/
theorem fineBest_spec (m : Modem) (base : Int) :
    let best := m.bestOf base (0, m.mx base) (fineOffsets m.cfg.ftWin)
    best.1.natAbs ≤ m.cfg.ftWin ∧ best.2 = m.mx (base + best.1) ∧
    ∀ u : Int, u.natAbs ≤ m.cfg.ftWin → Fp.lt best.2 (m.mx (base + u)) = false ∧
      (u.natAbs < best.1.natAbs ∨ (u.natAbs = best.1.natAbs ∧ u < best.1) → Fp.le best.2 (m.mx (base + u)) = false) := by
  have h0 : base + 0 = base := by omega
  have h := bestOf_first m base 0 (fineOffsets m.cfg.ftWin)
  rw [h0] at h
  generalize m.bestOf base (0, m.mx base) (fineOffsets m.cfg.ftWin) = best at h ⊢
  obtain ⟨h1, h2, pre, post, h3, h4⟩ := h
  have hmem : ∀ u : Int, u ∈ 0 :: fineOffsets m.cfg.ftWin ↔ u.natAbs ≤ m.cfg.ftWin := by
    intro u
    rw [List.mem_cons, mem_fineOffsets]
    omega
  refine ⟨(hmem _).1 (by rw [h3]; simp), h1, fun u hu => ⟨h2 u ((hmem u).2 hu), fun hlt => ?_⟩⟩
  have hu' := (hmem u).2 hu
  rw [h3, List.mem_append, List.mem_cons] at hu'
  rcases hu' with hu' | rfl | hu'
  · exact h4 u hu'
  · exact absurd hlt (by omega)
  · have hs := fineOffsets_sorted m.cfg.ftWin
    rw [h3, List.pairwise_append] at hs
    have := (List.pairwise_cons.1 hs.2.1).1 u hu'
    omega

/-! ## Without a timing window there is no drift (R301, last sentence) -/

theorem driftStep_zero {x : F64} (h : Fp.isZero x = true) : driftStep x = (0, x) := by
  obtain ⟨-, -, k, -⟩ := Fp.isZero_key h
  unfold driftStep
  have k1 : Fp.key Fp.one = 4607182418800017408 := by decide
  have k2 : Fp.key (Fp.neg Fp.one) = -4607182418800017408 := by decide
  have l1 : ¬ Fp.le Fp.one x = true := by rw [Fp.le_iff, k, k1]; omega
  have l2 : ¬ Fp.le x (Fp.neg Fp.one) = true := by rw [Fp.le_iff, k, k2]; omega
  rw [if_neg l1, if_neg l2]

theorem fineTiming_noDrift {m : Modem} (hf : m.cfg.ftWin = 0) (hg : Fp.isFinite m.cfg.timingGain = true)
    (h : Fp.isZero m.driftAcc = true) : m.fineTiming.1 = 0 ∧ Fp.isZero m.fineTiming.2.driftAcc = true := by
  unfold Modem.fineTiming
  split
  · have : fineOffsets m.cfg.ftWin = [] := by rw [hf]; rfl
    simp only [this, Modem.bestOf, List.foldl_nil]
    have hz := Fp.add_zeros h (Fp.mul_zero_right hg Fp.ofInt_zero)
    rw [driftStep_zero hz]
    exact ⟨rfl, hz⟩
  · exact ⟨rfl, h⟩

/-! ## The frame an emission reads (R302, R303) -/

theorem window_getD (m : Modem) (t : Int) (len n : Nat) (h : n < len) :
    (m.window t len).getD n Cx.zero = m.sample (t + n) := by
  simp [Modem.window, h]

/-- A de-rotated sample (R302). -/
theorem derotate_getD (m : Modem) (len n : Nat) (h : n < len) : (m.derotate len).getD n Cx.zero =
    if Fp.isZero m.foffEst = true ∧ Fp.isZero m.foffPhase = true then m.sample (m.frameStart + n)
    else Cx.mul (m.sample (m.frameStart + n)) (Cx.expj (m.rotation n)) := by
  unfold Modem.derotate
  simp only [Bool.and_eq_true]
  split
  · exact window_getD m _ len n h
  · simp [h]

/-- A DFT bin reads `M` samples from its start on (R303). -/
theorem dftBin_congr {mLen off bin : Nat} {xd : List C64} {f : Nat → C64}
    (h : ∀ n, n < mLen → xd.getD (off + n) Cx.zero = f (off + n)) :
    dftBin mLen xd off bin = Cx.sum ((List.range mLen).map fun n =>
      Cx.mul (f (off + n)) (Cx.conj (Cx.twiddle mLen (bin * n)))) := by
  unfold dftBin
  congr 1
  exact List.map_congr_left fun n hn => by rw [h n (List.mem_range.1 hn)]

theorem dftRow_getD (c : ModemConfig) (xd : List C64) (off k : Nat) (h : k < c.carrierBins.length) :
    (dftRow c xd off).getD k Cx.zero = dftBin c.m xd off (c.carrierBins.getD k 0) := by
  simp [dftRow, h]

/-- What a symbol of the emitted frame is (R306, R313). -/
theorem symbols_get (m : Modem) (rows : List (List C64)) (ht hn : List C64) (i : Nat) (h : i < m.cfg.nds) :
    let k := i % m.cfg.nc
    let r := 1 + i / m.cfg.nc
    (m.symbols rows ht hn).a.getD i Fp.zero = m.channelAmp ht hn k ∧
    (m.symbols rows ht hn).phi.getD i Fp.zero = m.channelPhase ht hn k ∧
    (m.symbols rows ht hn).z.getD i Cx.zero = m.correct (m.channelPhase ht hn k) (m.channelAmp ht hn k)
      (m.cfg.pilots.getD k Cx.zero) ((rows.getD r []).getD k Cx.zero) ((rows.getD (r - 1) []).getD k Cx.zero) := by
  have hk : i % m.cfg.nc < m.cfg.nc := by
    apply Nat.mod_lt
    rcases Nat.eq_zero_or_pos m.cfg.nc with h0 | h0
    · simp [ModemConfig.nds, h0] at h
    · exact h0
  simp [Modem.symbols, h, hk]

/-- DEMODULATE with a frame, as one record update. -/
theorem demodulateFrame_eq {s : State} {m1 : Modem} (hem : m1.emits = true) : s.demodulateFrame m1 = { s with
    mem := ((s.writeBytes symOutBase m1.emit.1.symBytes).writeBits bitOutBase m1.emit.1.bits).mem, modem := some m1.emit.2,
    res0 := BitVec.ofNat 32 m1.emit.2.nin, res1 := 1, busy := false, done := true, err := false, errcode := .none,
    irqPend := s.irqPend ||| 0x1#32 } := by
  unfold State.demodulateFrame
  rw [if_pos hem]
  generalize m1.emit = em
  rfl

end Sys2Proof.Machine
end

