-- ==== Sys2Proof/Laws/Encoding.lean ====
section
/-! SUPPORT. Decoding from bytes reads the word the bytes were laid out from. -/

namespace Sys2Proof

/-- Bytes laid out in memory order decode as their word does; what follows comes back (30_encoding R166). -/
theorem decodeBytes_bytesOfWord (w : Word) (rest : List Byte) :
    decodeBytes (bytesOfWord w ++ rest) = match decode w with | .ok i => .ok (i, rest) | .error r => .error r := by
  have : wordOfBytes (BitVec.ofNat 8 w.toNat) (BitVec.ofNat 8 (w.toNat / 0x100)) (BitVec.ofNat 8 (w.toNat / 0x10000))
    (BitVec.ofNat 8 (w.toNat / 0x1000000)) = w := by
    apply BitVec.eq_of_toNat_eq
    simp only [wordOfBytes, BitVec.toNat_ofNat]
    have := w.isLt
    omega
  cases h : decode w <;> simp only [bytesOfWord, List.cons_append, List.nil_append, decodeBytes, this, h]

end Sys2Proof
end

