-- ==== Sys2Proof/Laws/State.lean ====
section
/-! SUPPORT. What each shared operation leaves in each field of the state, one lemma per field, so that no proof unfolds a
record update. -/

namespace Sys2Proof.Machine

/-! ## `completeOk` -/

@[simp] theorem State.completeOk_ctrl (s : State) : (s.completeOk).ctrl = s.ctrl := rfl
@[simp] theorem State.completeOk_done (s : State) : (s.completeOk).done = true := rfl
@[simp] theorem State.completeOk_err (s : State) : (s.completeOk).err = false := rfl
@[simp] theorem State.completeOk_nonconv (s : State) : (s.completeOk).nonconv = s.nonconv := rfl
@[simp] theorem State.completeOk_errcode (s : State) : (s.completeOk).errcode = .none := rfl
@[simp] theorem State.completeOk_arg0 (s : State) : (s.completeOk).arg0 = s.arg0 := rfl
@[simp] theorem State.completeOk_arg1 (s : State) : (s.completeOk).arg1 = s.arg1 := rfl
@[simp] theorem State.completeOk_arg2 (s : State) : (s.completeOk).arg2 = s.arg2 := rfl
@[simp] theorem State.completeOk_arg3 (s : State) : (s.completeOk).arg3 = s.arg3 := rfl
@[simp] theorem State.completeOk_res0 (s : State) : (s.completeOk).res0 = s.res0 := rfl
@[simp] theorem State.completeOk_res1 (s : State) : (s.completeOk).res1 = s.res1 := rfl
@[simp] theorem State.completeOk_res2 (s : State) : (s.completeOk).res2 = s.res2 := rfl
@[simp] theorem State.completeOk_res3 (s : State) : (s.completeOk).res3 = s.res3 := rfl
@[simp] theorem State.completeOk_irqEn (s : State) : (s.completeOk).irqEn = s.irqEn := rfl
@[simp] theorem State.completeOk_irqPend (s : State) : (s.completeOk).irqPend = s.irqPend ||| irqDone := rfl
@[simp] theorem State.completeOk_busy (s : State) : (s.completeOk).busy = false := rfl
@[simp] theorem State.completeOk_cmd (s : State) : (s.completeOk).cmd = s.cmd := rfl
@[simp] theorem State.completeOk_cmdCtrl (s : State) : (s.completeOk).cmdCtrl = s.cmdCtrl := rfl
@[simp] theorem State.completeOk_faulted (s : State) : (s.completeOk).faulted = s.faulted := rfl
@[simp] theorem State.completeOk_faultReason (s : State) : (s.completeOk).faultReason = s.faultReason := rfl
@[simp] theorem State.completeOk_mem (s : State) : (s.completeOk).mem = s.mem := rfl
@[simp] theorem State.completeOk_modem (s : State) : (s.completeOk).modem = s.modem := rfl
@[simp] theorem State.completeOk_turns (s : State) : (s.completeOk).turns = s.turns := rfl
@[simp] theorem State.completeOk_busData (s : State) : (s.completeOk).busData = s.busData := rfl
@[simp] theorem State.completeOk_porCount (s : State) : (s.completeOk).porCount = s.porCount := rfl

/-! ## `completeError` -/

@[simp] theorem State.completeError_ctrl (s : State) (code : ErrCode) : (s.completeError code).ctrl = s.ctrl := rfl
@[simp] theorem State.completeError_done (s : State) (code : ErrCode) : (s.completeError code).done = true := rfl
@[simp] theorem State.completeError_err (s : State) (code : ErrCode) : (s.completeError code).err = true := rfl
@[simp] theorem State.completeError_nonconv (s : State) (code : ErrCode) :
    (s.completeError code).nonconv = s.nonconv := rfl
@[simp] theorem State.completeError_errcode (s : State) (code : ErrCode) :
    (s.completeError code).errcode = code := rfl
@[simp] theorem State.completeError_arg0 (s : State) (code : ErrCode) : (s.completeError code).arg0 = s.arg0 := rfl
@[simp] theorem State.completeError_arg1 (s : State) (code : ErrCode) : (s.completeError code).arg1 = s.arg1 := rfl
@[simp] theorem State.completeError_arg2 (s : State) (code : ErrCode) : (s.completeError code).arg2 = s.arg2 := rfl
@[simp] theorem State.completeError_arg3 (s : State) (code : ErrCode) : (s.completeError code).arg3 = s.arg3 := rfl
@[simp] theorem State.completeError_res0 (s : State) (code : ErrCode) : (s.completeError code).res0 = s.res0 := rfl
@[simp] theorem State.completeError_res1 (s : State) (code : ErrCode) : (s.completeError code).res1 = s.res1 := rfl
@[simp] theorem State.completeError_res2 (s : State) (code : ErrCode) : (s.completeError code).res2 = s.res2 := rfl
@[simp] theorem State.completeError_res3 (s : State) (code : ErrCode) : (s.completeError code).res3 = s.res3 := rfl
@[simp] theorem State.completeError_irqEn (s : State) (code : ErrCode) : (s.completeError code).irqEn = s.irqEn := rfl
@[simp] theorem State.completeError_irqPend (s : State) (code : ErrCode) :
    (s.completeError code).irqPend = s.irqPend ||| irqDone ||| irqErr := rfl
@[simp] theorem State.completeError_busy (s : State) (code : ErrCode) : (s.completeError code).busy = false := rfl
@[simp] theorem State.completeError_cmd (s : State) (code : ErrCode) : (s.completeError code).cmd = s.cmd := rfl
@[simp] theorem State.completeError_cmdCtrl (s : State) (code : ErrCode) :
    (s.completeError code).cmdCtrl = s.cmdCtrl := rfl
@[simp] theorem State.completeError_faulted (s : State) (code : ErrCode) :
    (s.completeError code).faulted = s.faulted := rfl
@[simp] theorem State.completeError_faultReason (s : State) (code : ErrCode) :
    (s.completeError code).faultReason = s.faultReason := rfl
@[simp] theorem State.completeError_mem (s : State) (code : ErrCode) : (s.completeError code).mem = s.mem := rfl
@[simp] theorem State.completeError_modem (s : State) (code : ErrCode) : (s.completeError code).modem = s.modem := rfl
@[simp] theorem State.completeError_turns (s : State) (code : ErrCode) : (s.completeError code).turns = s.turns := rfl
@[simp] theorem State.completeError_busData (s : State) (code : ErrCode) :
    (s.completeError code).busData = s.busData := rfl
@[simp] theorem State.completeError_porCount (s : State) (code : ErrCode) :
    (s.completeError code).porCount = s.porCount := rfl

/-! ## `acceptCommand` -/

@[simp] theorem State.acceptCommand_ctrl (s : State) (w : Word) : (s.acceptCommand w).ctrl = s.ctrl := rfl
@[simp] theorem State.acceptCommand_done (s : State) (w : Word) : (s.acceptCommand w).done = false := rfl
@[simp] theorem State.acceptCommand_err (s : State) (w : Word) : (s.acceptCommand w).err = false := rfl
@[simp] theorem State.acceptCommand_nonconv (s : State) (w : Word) : (s.acceptCommand w).nonconv = s.nonconv := rfl
@[simp] theorem State.acceptCommand_errcode (s : State) (w : Word) : (s.acceptCommand w).errcode = s.errcode := rfl
@[simp] theorem State.acceptCommand_arg0 (s : State) (w : Word) : (s.acceptCommand w).arg0 = s.arg0 := rfl
@[simp] theorem State.acceptCommand_arg1 (s : State) (w : Word) : (s.acceptCommand w).arg1 = s.arg1 := rfl
@[simp] theorem State.acceptCommand_arg2 (s : State) (w : Word) : (s.acceptCommand w).arg2 = s.arg2 := rfl
@[simp] theorem State.acceptCommand_arg3 (s : State) (w : Word) : (s.acceptCommand w).arg3 = s.arg3 := rfl
@[simp] theorem State.acceptCommand_res0 (s : State) (w : Word) : (s.acceptCommand w).res0 = s.res0 := rfl
@[simp] theorem State.acceptCommand_res1 (s : State) (w : Word) : (s.acceptCommand w).res1 = s.res1 := rfl
@[simp] theorem State.acceptCommand_res2 (s : State) (w : Word) : (s.acceptCommand w).res2 = s.res2 := rfl
@[simp] theorem State.acceptCommand_res3 (s : State) (w : Word) : (s.acceptCommand w).res3 = s.res3 := rfl
@[simp] theorem State.acceptCommand_irqEn (s : State) (w : Word) : (s.acceptCommand w).irqEn = s.irqEn := rfl
@[simp] theorem State.acceptCommand_irqPend (s : State) (w : Word) : (s.acceptCommand w).irqPend = s.irqPend := rfl
@[simp] theorem State.acceptCommand_busy (s : State) (w : Word) : (s.acceptCommand w).busy = true := rfl
@[simp] theorem State.acceptCommand_cmd (s : State) (w : Word) : (s.acceptCommand w).cmd = w := rfl
@[simp] theorem State.acceptCommand_cmdCtrl (s : State) (w : Word) : (s.acceptCommand w).cmdCtrl = s.ctrl := rfl
@[simp] theorem State.acceptCommand_faulted (s : State) (w : Word) : (s.acceptCommand w).faulted = s.faulted := rfl
@[simp] theorem State.acceptCommand_faultReason (s : State) (w : Word) :
    (s.acceptCommand w).faultReason = s.faultReason := rfl
@[simp] theorem State.acceptCommand_mem (s : State) (w : Word) : (s.acceptCommand w).mem = s.mem := rfl
@[simp] theorem State.acceptCommand_modem (s : State) (w : Word) : (s.acceptCommand w).modem = s.modem := rfl
@[simp] theorem State.acceptCommand_turns (s : State) (w : Word) : (s.acceptCommand w).turns = s.turns := rfl
@[simp] theorem State.acceptCommand_busData (s : State) (w : Word) : (s.acceptCommand w).busData = s.busData := rfl
@[simp] theorem State.acceptCommand_porCount (s : State) (w : Word) : (s.acceptCommand w).porCount = s.porCount := rfl

/-! ## `recordFault` -/

@[simp] theorem State.recordFault_ctrl (s : State) (r : Fault) : (s.recordFault r).ctrl = s.ctrl := rfl
@[simp] theorem State.recordFault_done (s : State) (r : Fault) : (s.recordFault r).done = s.done := rfl
@[simp] theorem State.recordFault_err (s : State) (r : Fault) : (s.recordFault r).err = s.err := rfl
@[simp] theorem State.recordFault_nonconv (s : State) (r : Fault) : (s.recordFault r).nonconv = s.nonconv := rfl
@[simp] theorem State.recordFault_errcode (s : State) (r : Fault) : (s.recordFault r).errcode = s.errcode := rfl
@[simp] theorem State.recordFault_arg0 (s : State) (r : Fault) : (s.recordFault r).arg0 = s.arg0 := rfl
@[simp] theorem State.recordFault_arg1 (s : State) (r : Fault) : (s.recordFault r).arg1 = s.arg1 := rfl
@[simp] theorem State.recordFault_arg2 (s : State) (r : Fault) : (s.recordFault r).arg2 = s.arg2 := rfl
@[simp] theorem State.recordFault_arg3 (s : State) (r : Fault) : (s.recordFault r).arg3 = s.arg3 := rfl
@[simp] theorem State.recordFault_res0 (s : State) (r : Fault) : (s.recordFault r).res0 = s.res0 := rfl
@[simp] theorem State.recordFault_res1 (s : State) (r : Fault) : (s.recordFault r).res1 = s.res1 := rfl
@[simp] theorem State.recordFault_res2 (s : State) (r : Fault) : (s.recordFault r).res2 = s.res2 := rfl
@[simp] theorem State.recordFault_res3 (s : State) (r : Fault) : (s.recordFault r).res3 = s.res3 := rfl
@[simp] theorem State.recordFault_irqEn (s : State) (r : Fault) : (s.recordFault r).irqEn = s.irqEn := rfl
@[simp] theorem State.recordFault_irqPend (s : State) (r : Fault) : (s.recordFault r).irqPend = s.irqPend := rfl
@[simp] theorem State.recordFault_busy (s : State) (r : Fault) : (s.recordFault r).busy = s.busy := rfl
@[simp] theorem State.recordFault_cmd (s : State) (r : Fault) : (s.recordFault r).cmd = s.cmd := rfl
@[simp] theorem State.recordFault_cmdCtrl (s : State) (r : Fault) : (s.recordFault r).cmdCtrl = s.cmdCtrl := rfl
@[simp] theorem State.recordFault_faulted (s : State) (r : Fault) : (s.recordFault r).faulted = true := rfl
@[simp] theorem State.recordFault_faultReason (s : State) (r : Fault) : (s.recordFault r).faultReason = some r := rfl
@[simp] theorem State.recordFault_mem (s : State) (r : Fault) : (s.recordFault r).mem = s.mem := rfl
@[simp] theorem State.recordFault_modem (s : State) (r : Fault) : (s.recordFault r).modem = s.modem := rfl
@[simp] theorem State.recordFault_turns (s : State) (r : Fault) : (s.recordFault r).turns = s.turns := rfl
@[simp] theorem State.recordFault_busData (s : State) (r : Fault) : (s.recordFault r).busData = s.busData := rfl
@[simp] theorem State.recordFault_porCount (s : State) (r : Fault) : (s.recordFault r).porCount = s.porCount := rfl

/-! ## `raiseIrq` -/

@[simp] theorem State.raiseIrq_ctrl (s : State) (b : Word) : (s.raiseIrq b).ctrl = s.ctrl := rfl
@[simp] theorem State.raiseIrq_done (s : State) (b : Word) : (s.raiseIrq b).done = s.done := rfl
@[simp] theorem State.raiseIrq_err (s : State) (b : Word) : (s.raiseIrq b).err = s.err := rfl
@[simp] theorem State.raiseIrq_nonconv (s : State) (b : Word) : (s.raiseIrq b).nonconv = s.nonconv := rfl
@[simp] theorem State.raiseIrq_errcode (s : State) (b : Word) : (s.raiseIrq b).errcode = s.errcode := rfl
@[simp] theorem State.raiseIrq_arg0 (s : State) (b : Word) : (s.raiseIrq b).arg0 = s.arg0 := rfl
@[simp] theorem State.raiseIrq_arg1 (s : State) (b : Word) : (s.raiseIrq b).arg1 = s.arg1 := rfl
@[simp] theorem State.raiseIrq_arg2 (s : State) (b : Word) : (s.raiseIrq b).arg2 = s.arg2 := rfl
@[simp] theorem State.raiseIrq_arg3 (s : State) (b : Word) : (s.raiseIrq b).arg3 = s.arg3 := rfl
@[simp] theorem State.raiseIrq_res0 (s : State) (b : Word) : (s.raiseIrq b).res0 = s.res0 := rfl
@[simp] theorem State.raiseIrq_res1 (s : State) (b : Word) : (s.raiseIrq b).res1 = s.res1 := rfl
@[simp] theorem State.raiseIrq_res2 (s : State) (b : Word) : (s.raiseIrq b).res2 = s.res2 := rfl
@[simp] theorem State.raiseIrq_res3 (s : State) (b : Word) : (s.raiseIrq b).res3 = s.res3 := rfl
@[simp] theorem State.raiseIrq_irqEn (s : State) (b : Word) : (s.raiseIrq b).irqEn = s.irqEn := rfl
@[simp] theorem State.raiseIrq_irqPend (s : State) (b : Word) : (s.raiseIrq b).irqPend = s.irqPend ||| b := rfl
@[simp] theorem State.raiseIrq_busy (s : State) (b : Word) : (s.raiseIrq b).busy = s.busy := rfl
@[simp] theorem State.raiseIrq_cmd (s : State) (b : Word) : (s.raiseIrq b).cmd = s.cmd := rfl
@[simp] theorem State.raiseIrq_cmdCtrl (s : State) (b : Word) : (s.raiseIrq b).cmdCtrl = s.cmdCtrl := rfl
@[simp] theorem State.raiseIrq_faulted (s : State) (b : Word) : (s.raiseIrq b).faulted = s.faulted := rfl
@[simp] theorem State.raiseIrq_faultReason (s : State) (b : Word) : (s.raiseIrq b).faultReason = s.faultReason := rfl
@[simp] theorem State.raiseIrq_mem (s : State) (b : Word) : (s.raiseIrq b).mem = s.mem := rfl
@[simp] theorem State.raiseIrq_modem (s : State) (b : Word) : (s.raiseIrq b).modem = s.modem := rfl
@[simp] theorem State.raiseIrq_turns (s : State) (b : Word) : (s.raiseIrq b).turns = s.turns := rfl
@[simp] theorem State.raiseIrq_busData (s : State) (b : Word) : (s.raiseIrq b).busData = s.busData := rfl
@[simp] theorem State.raiseIrq_porCount (s : State) (b : Word) : (s.raiseIrq b).porCount = s.porCount := rfl

/-! ## `writeBytes` -/

@[simp] theorem State.writeBytes_ctrl (s : State) (a : Nat) (bs : List Byte) :
    (s.writeBytes a bs).ctrl = s.ctrl := rfl
@[simp] theorem State.writeBytes_done (s : State) (a : Nat) (bs : List Byte) :
    (s.writeBytes a bs).done = s.done := rfl
@[simp] theorem State.writeBytes_err (s : State) (a : Nat) (bs : List Byte) : (s.writeBytes a bs).err = s.err := rfl
@[simp] theorem State.writeBytes_nonconv (s : State) (a : Nat) (bs : List Byte) :
    (s.writeBytes a bs).nonconv = s.nonconv := rfl
@[simp] theorem State.writeBytes_errcode (s : State) (a : Nat) (bs : List Byte) :
    (s.writeBytes a bs).errcode = s.errcode := rfl
@[simp] theorem State.writeBytes_arg0 (s : State) (a : Nat) (bs : List Byte) :
    (s.writeBytes a bs).arg0 = s.arg0 := rfl
@[simp] theorem State.writeBytes_arg1 (s : State) (a : Nat) (bs : List Byte) :
    (s.writeBytes a bs).arg1 = s.arg1 := rfl
@[simp] theorem State.writeBytes_arg2 (s : State) (a : Nat) (bs : List Byte) :
    (s.writeBytes a bs).arg2 = s.arg2 := rfl
@[simp] theorem State.writeBytes_arg3 (s : State) (a : Nat) (bs : List Byte) :
    (s.writeBytes a bs).arg3 = s.arg3 := rfl
@[simp] theorem State.writeBytes_res0 (s : State) (a : Nat) (bs : List Byte) :
    (s.writeBytes a bs).res0 = s.res0 := rfl
@[simp] theorem State.writeBytes_res1 (s : State) (a : Nat) (bs : List Byte) :
    (s.writeBytes a bs).res1 = s.res1 := rfl
@[simp] theorem State.writeBytes_res2 (s : State) (a : Nat) (bs : List Byte) :
    (s.writeBytes a bs).res2 = s.res2 := rfl
@[simp] theorem State.writeBytes_res3 (s : State) (a : Nat) (bs : List Byte) :
    (s.writeBytes a bs).res3 = s.res3 := rfl
@[simp] theorem State.writeBytes_irqEn (s : State) (a : Nat) (bs : List Byte) :
    (s.writeBytes a bs).irqEn = s.irqEn := rfl
@[simp] theorem State.writeBytes_irqPend (s : State) (a : Nat) (bs : List Byte) :
    (s.writeBytes a bs).irqPend = s.irqPend := rfl
@[simp] theorem State.writeBytes_busy (s : State) (a : Nat) (bs : List Byte) :
    (s.writeBytes a bs).busy = s.busy := rfl
@[simp] theorem State.writeBytes_cmd (s : State) (a : Nat) (bs : List Byte) : (s.writeBytes a bs).cmd = s.cmd := rfl
@[simp] theorem State.writeBytes_cmdCtrl (s : State) (a : Nat) (bs : List Byte) :
    (s.writeBytes a bs).cmdCtrl = s.cmdCtrl := rfl
@[simp] theorem State.writeBytes_faulted (s : State) (a : Nat) (bs : List Byte) :
    (s.writeBytes a bs).faulted = s.faulted := rfl
@[simp] theorem State.writeBytes_faultReason (s : State) (a : Nat) (bs : List Byte) :
    (s.writeBytes a bs).faultReason = s.faultReason := rfl
@[simp] theorem State.writeBytes_mem (s : State) (a : Nat) (bs : List Byte) :
    (s.writeBytes a bs).mem = Memory.setBytes s.mem a bs := rfl
@[simp] theorem State.writeBytes_modem (s : State) (a : Nat) (bs : List Byte) :
    (s.writeBytes a bs).modem = s.modem := rfl
@[simp] theorem State.writeBytes_turns (s : State) (a : Nat) (bs : List Byte) :
    (s.writeBytes a bs).turns = s.turns := rfl
@[simp] theorem State.writeBytes_busData (s : State) (a : Nat) (bs : List Byte) :
    (s.writeBytes a bs).busData = s.busData := rfl
@[simp] theorem State.writeBytes_porCount (s : State) (a : Nat) (bs : List Byte) :
    (s.writeBytes a bs).porCount = s.porCount := rfl

/-! ## `writeBits` -/

@[simp] theorem State.writeBits_ctrl (s : State) (a : Nat) (bs : List Bool) : (s.writeBits a bs).ctrl = s.ctrl := rfl
@[simp] theorem State.writeBits_done (s : State) (a : Nat) (bs : List Bool) : (s.writeBits a bs).done = s.done := rfl
@[simp] theorem State.writeBits_err (s : State) (a : Nat) (bs : List Bool) : (s.writeBits a bs).err = s.err := rfl
@[simp] theorem State.writeBits_nonconv (s : State) (a : Nat) (bs : List Bool) :
    (s.writeBits a bs).nonconv = s.nonconv := rfl
@[simp] theorem State.writeBits_errcode (s : State) (a : Nat) (bs : List Bool) :
    (s.writeBits a bs).errcode = s.errcode := rfl
@[simp] theorem State.writeBits_arg0 (s : State) (a : Nat) (bs : List Bool) : (s.writeBits a bs).arg0 = s.arg0 := rfl
@[simp] theorem State.writeBits_arg1 (s : State) (a : Nat) (bs : List Bool) : (s.writeBits a bs).arg1 = s.arg1 := rfl
@[simp] theorem State.writeBits_arg2 (s : State) (a : Nat) (bs : List Bool) : (s.writeBits a bs).arg2 = s.arg2 := rfl
@[simp] theorem State.writeBits_arg3 (s : State) (a : Nat) (bs : List Bool) : (s.writeBits a bs).arg3 = s.arg3 := rfl
@[simp] theorem State.writeBits_res0 (s : State) (a : Nat) (bs : List Bool) : (s.writeBits a bs).res0 = s.res0 := rfl
@[simp] theorem State.writeBits_res1 (s : State) (a : Nat) (bs : List Bool) : (s.writeBits a bs).res1 = s.res1 := rfl
@[simp] theorem State.writeBits_res2 (s : State) (a : Nat) (bs : List Bool) : (s.writeBits a bs).res2 = s.res2 := rfl
@[simp] theorem State.writeBits_res3 (s : State) (a : Nat) (bs : List Bool) : (s.writeBits a bs).res3 = s.res3 := rfl
@[simp] theorem State.writeBits_irqEn (s : State) (a : Nat) (bs : List Bool) :
    (s.writeBits a bs).irqEn = s.irqEn := rfl
@[simp] theorem State.writeBits_irqPend (s : State) (a : Nat) (bs : List Bool) :
    (s.writeBits a bs).irqPend = s.irqPend := rfl
@[simp] theorem State.writeBits_busy (s : State) (a : Nat) (bs : List Bool) : (s.writeBits a bs).busy = s.busy := rfl
@[simp] theorem State.writeBits_cmd (s : State) (a : Nat) (bs : List Bool) : (s.writeBits a bs).cmd = s.cmd := rfl
@[simp] theorem State.writeBits_cmdCtrl (s : State) (a : Nat) (bs : List Bool) :
    (s.writeBits a bs).cmdCtrl = s.cmdCtrl := rfl
@[simp] theorem State.writeBits_faulted (s : State) (a : Nat) (bs : List Bool) :
    (s.writeBits a bs).faulted = s.faulted := rfl
@[simp] theorem State.writeBits_faultReason (s : State) (a : Nat) (bs : List Bool) :
    (s.writeBits a bs).faultReason = s.faultReason := rfl
@[simp] theorem State.writeBits_mem (s : State) (a : Nat) (bs : List Bool) :
    (s.writeBits a bs).mem = Memory.setBytes s.mem a (bs.map bitByte) := rfl
@[simp] theorem State.writeBits_modem (s : State) (a : Nat) (bs : List Bool) :
    (s.writeBits a bs).modem = s.modem := rfl
@[simp] theorem State.writeBits_turns (s : State) (a : Nat) (bs : List Bool) :
    (s.writeBits a bs).turns = s.turns := rfl
@[simp] theorem State.writeBits_busData (s : State) (a : Nat) (bs : List Bool) :
    (s.writeBits a bs).busData = s.busData := rfl
@[simp] theorem State.writeBits_porCount (s : State) (a : Nat) (bs : List Bool) :
    (s.writeBits a bs).porCount = s.porCount := rfl

/-! ## `writeSamples` -/

@[simp] theorem State.writeSamples_ctrl (s : State) (a : Nat) (us : List C64) :
    (s.writeSamples a us).ctrl = s.ctrl := rfl
@[simp] theorem State.writeSamples_done (s : State) (a : Nat) (us : List C64) :
    (s.writeSamples a us).done = s.done := rfl
@[simp] theorem State.writeSamples_err (s : State) (a : Nat) (us : List C64) :
    (s.writeSamples a us).err = s.err := rfl
@[simp] theorem State.writeSamples_nonconv (s : State) (a : Nat) (us : List C64) :
    (s.writeSamples a us).nonconv = s.nonconv := rfl
@[simp] theorem State.writeSamples_errcode (s : State) (a : Nat) (us : List C64) :
    (s.writeSamples a us).errcode = s.errcode := rfl
@[simp] theorem State.writeSamples_arg0 (s : State) (a : Nat) (us : List C64) :
    (s.writeSamples a us).arg0 = s.arg0 := rfl
@[simp] theorem State.writeSamples_arg1 (s : State) (a : Nat) (us : List C64) :
    (s.writeSamples a us).arg1 = s.arg1 := rfl
@[simp] theorem State.writeSamples_arg2 (s : State) (a : Nat) (us : List C64) :
    (s.writeSamples a us).arg2 = s.arg2 := rfl
@[simp] theorem State.writeSamples_arg3 (s : State) (a : Nat) (us : List C64) :
    (s.writeSamples a us).arg3 = s.arg3 := rfl
@[simp] theorem State.writeSamples_res0 (s : State) (a : Nat) (us : List C64) :
    (s.writeSamples a us).res0 = s.res0 := rfl
@[simp] theorem State.writeSamples_res1 (s : State) (a : Nat) (us : List C64) :
    (s.writeSamples a us).res1 = s.res1 := rfl
@[simp] theorem State.writeSamples_res2 (s : State) (a : Nat) (us : List C64) :
    (s.writeSamples a us).res2 = s.res2 := rfl
@[simp] theorem State.writeSamples_res3 (s : State) (a : Nat) (us : List C64) :
    (s.writeSamples a us).res3 = s.res3 := rfl
@[simp] theorem State.writeSamples_irqEn (s : State) (a : Nat) (us : List C64) :
    (s.writeSamples a us).irqEn = s.irqEn := rfl
@[simp] theorem State.writeSamples_irqPend (s : State) (a : Nat) (us : List C64) :
    (s.writeSamples a us).irqPend = s.irqPend := rfl
@[simp] theorem State.writeSamples_busy (s : State) (a : Nat) (us : List C64) :
    (s.writeSamples a us).busy = s.busy := rfl
@[simp] theorem State.writeSamples_cmd (s : State) (a : Nat) (us : List C64) :
    (s.writeSamples a us).cmd = s.cmd := rfl
@[simp] theorem State.writeSamples_cmdCtrl (s : State) (a : Nat) (us : List C64) :
    (s.writeSamples a us).cmdCtrl = s.cmdCtrl := rfl
@[simp] theorem State.writeSamples_faulted (s : State) (a : Nat) (us : List C64) :
    (s.writeSamples a us).faulted = s.faulted := rfl
@[simp] theorem State.writeSamples_faultReason (s : State) (a : Nat) (us : List C64) :
    (s.writeSamples a us).faultReason = s.faultReason := rfl
@[simp] theorem State.writeSamples_mem (s : State) (a : Nat) (us : List C64) :
    (s.writeSamples a us).mem = Memory.setBytes s.mem a (us.flatMap sampleBytes) := rfl
@[simp] theorem State.writeSamples_modem (s : State) (a : Nat) (us : List C64) :
    (s.writeSamples a us).modem = s.modem := rfl
@[simp] theorem State.writeSamples_turns (s : State) (a : Nat) (us : List C64) :
    (s.writeSamples a us).turns = s.turns := rfl
@[simp] theorem State.writeSamples_busData (s : State) (a : Nat) (us : List C64) :
    (s.writeSamples a us).busData = s.busData := rfl
@[simp] theorem State.writeSamples_porCount (s : State) (a : Nat) (us : List C64) :
    (s.writeSamples a us).porCount = s.porCount := rfl

/-! ## `raiseIrqIf` -/

@[simp] theorem State.raiseIrqIf_ctrl (s : State) (c : Bool) (b : Word) :
    (s.raiseIrqIf c b).ctrl = s.ctrl := by cases c <;> rfl
@[simp] theorem State.raiseIrqIf_done (s : State) (c : Bool) (b : Word) :
    (s.raiseIrqIf c b).done = s.done := by cases c <;> rfl
@[simp] theorem State.raiseIrqIf_err (s : State) (c : Bool) (b : Word) :
    (s.raiseIrqIf c b).err = s.err := by cases c <;> rfl
@[simp] theorem State.raiseIrqIf_nonconv (s : State) (c : Bool) (b : Word) :
    (s.raiseIrqIf c b).nonconv = s.nonconv := by cases c <;> rfl
@[simp] theorem State.raiseIrqIf_errcode (s : State) (c : Bool) (b : Word) :
    (s.raiseIrqIf c b).errcode = s.errcode := by cases c <;> rfl
@[simp] theorem State.raiseIrqIf_arg0 (s : State) (c : Bool) (b : Word) :
    (s.raiseIrqIf c b).arg0 = s.arg0 := by cases c <;> rfl
@[simp] theorem State.raiseIrqIf_arg1 (s : State) (c : Bool) (b : Word) :
    (s.raiseIrqIf c b).arg1 = s.arg1 := by cases c <;> rfl
@[simp] theorem State.raiseIrqIf_arg2 (s : State) (c : Bool) (b : Word) :
    (s.raiseIrqIf c b).arg2 = s.arg2 := by cases c <;> rfl
@[simp] theorem State.raiseIrqIf_arg3 (s : State) (c : Bool) (b : Word) :
    (s.raiseIrqIf c b).arg3 = s.arg3 := by cases c <;> rfl
@[simp] theorem State.raiseIrqIf_res0 (s : State) (c : Bool) (b : Word) :
    (s.raiseIrqIf c b).res0 = s.res0 := by cases c <;> rfl
@[simp] theorem State.raiseIrqIf_res1 (s : State) (c : Bool) (b : Word) :
    (s.raiseIrqIf c b).res1 = s.res1 := by cases c <;> rfl
@[simp] theorem State.raiseIrqIf_res2 (s : State) (c : Bool) (b : Word) :
    (s.raiseIrqIf c b).res2 = s.res2 := by cases c <;> rfl
@[simp] theorem State.raiseIrqIf_res3 (s : State) (c : Bool) (b : Word) :
    (s.raiseIrqIf c b).res3 = s.res3 := by cases c <;> rfl
@[simp] theorem State.raiseIrqIf_irqEn (s : State) (c : Bool) (b : Word) :
    (s.raiseIrqIf c b).irqEn = s.irqEn := by cases c <;> rfl
@[simp] theorem State.raiseIrqIf_irqPend (s : State) (c : Bool) (b : Word) :
    (s.raiseIrqIf c b).irqPend = if c then s.irqPend ||| b else s.irqPend := by cases c <;> rfl
@[simp] theorem State.raiseIrqIf_busy (s : State) (c : Bool) (b : Word) :
    (s.raiseIrqIf c b).busy = s.busy := by cases c <;> rfl
@[simp] theorem State.raiseIrqIf_cmd (s : State) (c : Bool) (b : Word) :
    (s.raiseIrqIf c b).cmd = s.cmd := by cases c <;> rfl
@[simp] theorem State.raiseIrqIf_cmdCtrl (s : State) (c : Bool) (b : Word) :
    (s.raiseIrqIf c b).cmdCtrl = s.cmdCtrl := by cases c <;> rfl
@[simp] theorem State.raiseIrqIf_faulted (s : State) (c : Bool) (b : Word) :
    (s.raiseIrqIf c b).faulted = s.faulted := by cases c <;> rfl
@[simp] theorem State.raiseIrqIf_faultReason (s : State) (c : Bool) (b : Word) :
    (s.raiseIrqIf c b).faultReason = s.faultReason := by cases c <;> rfl
@[simp] theorem State.raiseIrqIf_mem (s : State) (c : Bool) (b : Word) :
    (s.raiseIrqIf c b).mem = s.mem := by cases c <;> rfl
@[simp] theorem State.raiseIrqIf_modem (s : State) (c : Bool) (b : Word) :
    (s.raiseIrqIf c b).modem = s.modem := by cases c <;> rfl
@[simp] theorem State.raiseIrqIf_turns (s : State) (c : Bool) (b : Word) :
    (s.raiseIrqIf c b).turns = s.turns := by cases c <;> rfl
@[simp] theorem State.raiseIrqIf_busData (s : State) (c : Bool) (b : Word) :
    (s.raiseIrqIf c b).busData = s.busData := by cases c <;> rfl
@[simp] theorem State.raiseIrqIf_porCount (s : State) (c : Bool) (b : Word) :
    (s.raiseIrqIf c b).porCount = s.porCount := by cases c <;> rfl

/-! ## The pending bits, each a bit of its own (60_exceptions R520) -/

theorem getLsbD_word (w : Word) (k : Nat) (h : ∀ b : Fin 32, w.getLsbD b = decide (b.val = k)) (hk : k < 32) (b : Nat) :
    w.getLsbD b = decide (b = k) := by
  by_cases hb : b < 32
  · exact h ⟨b, hb⟩
  · rw [BitVec.getLsbD_of_ge _ _ (by omega)]
    exact (decide_eq_false (by omega)).symm

theorem irqDone_bit (b : Nat) : irqDone.getLsbD b = decide (b = 0) := getLsbD_word _ _ (by decide) (by decide) b
theorem irqErr_bit (b : Nat) : irqErr.getLsbD b = decide (b = 1) := getLsbD_word _ _ (by decide) (by decide) b
theorem irqSyncChange_bit (b : Nat) : irqSyncChange.getLsbD b = decide (b = 2) :=
  getLsbD_word _ _ (by decide) (by decide) b
theorem irqIlBlock_bit (b : Nat) : irqIlBlock.getLsbD b = decide (b = 3) := getLsbD_word _ _ (by decide) (by decide) b

end Sys2Proof.Machine
end

