-- ==== Sys2Proof/Laws/Exec.lean ====
section
/-! SUPPORT. What running a command, or a step, can do: the ways it completes, and the modem it leaves. -/

namespace Sys2Proof.Machine

/-- The sync state as SYNC shows it (10_state R48): Searching while the modem is unset, where SYNC reads 0. -/
def State.syncState (s : State) : SyncState := s.view .searching Modem.syncState

/-- The commands that write the sync state (43_sync R362), which set SYNC_CHANGE where they change it (43_sync R369, log 14). -/
def writesSyncState : Instr → Bool
  | .runSyncSm _ | .setSyncPolicy _ => true
  | _ => false

/-- What no effect of a command touches: the host's side, the accepted word, the fault record (60_exceptions R501, R503);
and the pending bits it sets before it completes (60_exceptions R520). -/
def Kept (i : Instr) (s u : State) : Prop :=
  (u.ctrl = s.ctrl ∧ u.arg0 = s.arg0 ∧ u.arg1 = s.arg1 ∧ u.arg2 = s.arg2 ∧ u.arg3 = s.arg3 ∧ u.irqEn = s.irqEn ∧
    u.cmd = s.cmd ∧ u.cmdCtrl = s.cmdCtrl ∧ u.faulted = s.faulted ∧ u.faultReason = s.faultReason ∧
    u.turns = s.turns ∧ u.busData = s.busData ∧ u.porCount = s.porCount) ∧
  u.irqPend = s.irqPend ||| (if u.syncState ≠ s.syncState ∧ writesSyncState i = true then irqSyncChange else 0) |||
    (if i = .ilPush ∧ u.res1 = 1 then irqIlBlock else 0)

theorem and_or_self (a b : Word) : a &&& (a ||| b) = a := by
  ext i; simp; tauto

theorem State.syncState_some {s : State} {m : Modem} (h : s.modem = some m) : s.syncState = m.syncState := by
  simp [State.syncState, State.view, h]

/-- The sync state depends on the modem alone. -/
theorem State.syncState_congr {s u : State} (h : u.modem = s.modem) : u.syncState = s.syncState := by
  simp [State.syncState, State.view, h]

/-- A command that writes no sync state and raises nothing before it completes. -/
theorem Kept.quiet {i : Instr} {s u : State}
    (h : u.ctrl = s.ctrl ∧ u.arg0 = s.arg0 ∧ u.arg1 = s.arg1 ∧ u.arg2 = s.arg2 ∧ u.arg3 = s.arg3 ∧ u.irqEn = s.irqEn ∧
      u.cmd = s.cmd ∧ u.cmdCtrl = s.cmdCtrl ∧ u.faulted = s.faulted ∧ u.faultReason = s.faultReason ∧
      u.turns = s.turns ∧ u.busData = s.busData ∧ u.porCount = s.porCount)
    (hp : u.irqPend = s.irqPend) (hw : writesSyncState i = false) (hi : i ≠ .ilPush ∨ u.res1 ≠ 1) : Kept i s u := by
  refine ⟨h, ?_⟩
  rw [if_neg (by simp [hw]), if_neg (by tauto), hp]
  simp

/-- A command that raises what SYNC_CHANGE asks of it where the sync state moves, and nothing else before it completes. -/
theorem Kept.sync {i : Instr} {s u : State}
    (h : u.ctrl = s.ctrl ∧ u.arg0 = s.arg0 ∧ u.arg1 = s.arg1 ∧ u.arg2 = s.arg2 ∧ u.arg3 = s.arg3 ∧ u.irqEn = s.irqEn ∧
      u.cmd = s.cmd ∧ u.cmdCtrl = s.cmdCtrl ∧ u.faulted = s.faulted ∧ u.faultReason = s.faultReason ∧
      u.turns = s.turns ∧ u.busData = s.busData ∧ u.porCount = s.porCount) (hi : i ≠ .ilPush) {a b : SyncState}
    (hu : u.syncState = a) (hs : s.syncState = b)
    (hp : u.irqPend = if (decide (a ≠ b) && writesSyncState i) = true then s.irqPend ||| irqSyncChange else s.irqPend) :
    Kept i s u := by
  refine ⟨h, ?_⟩
  rw [if_neg (show ¬ (i = .ilPush ∧ u.res1 = 1) from fun h => hi h.1), hp, hu, hs]
  by_cases h : a = b <;> cases h2 : writesSyncState i <;> simp [h, h2]

theorem Kept.pend {i : Instr} {s u : State} (h : Kept i s u) : s.irqPend &&& u.irqPend = s.irqPend := by
  rw [h.2, BitVec.or_assoc]; exact and_or_self _ _

/-- What DESTROY's body leaves (40_control R205): no modem, and nothing pending that was not. -/
theorem destroyBody_modem (s : State) : s.destroyBody.modem = none := by
  unfold State.destroyBody
  split
  · rfl
  · rename_i h; simpa [State.configured] using h

theorem destroyBody_irqPend (s : State) : s.destroyBody.irqPend = s.irqPend := by
  unfold State.destroyBody; split <;> rfl

theorem destroyBody_kept {i : Instr} (s : State) (hi : i ≠ .ilPush) (hw : writesSyncState i = false) :
    Kept i s s.destroyBody := by
  refine Kept.quiet ?_ (destroyBody_irqPend s) hw (.inl hi)
  unfold State.destroyBody
  split <;> simp

theorem ilStep_cfg (m : Modem) (g : Bool) : (m.ilStep g).cfg = m.cfg := by
  unfold Modem.ilStep; cases ilRow _ _ _ _ _ _ _ <;> rfl

theorem ilStep_sync (m : Modem) (g : Bool) : (m.ilStep g).syncState = m.syncState := by
  unfold Modem.ilStep; cases ilRow _ _ _ _ _ _ _ <;> rfl

theorem afterAttempt_cfg (m : Modem) (b : Bool) : (m.afterAttempt b).cfg = m.cfg := by
  unfold Modem.afterAttempt; dsimp only; split
  · exact ilStep_cfg _ _
  · exact ilStep_cfg _ _

theorem afterAttempt_sync (m : Modem) (b : Bool) : (m.afterAttempt b).syncState = m.syncState := by
  unfold Modem.afterAttempt; dsimp only; split
  · exact ilStep_sync _ _
  · exact ilStep_sync _ _

/-- The three ways a command completes: an error, the failed CREATE, or success. -/
theorem exec_cases (i : Instr) (s : State) :
    (i ≠ .create ∧ ∃ code, code ≠ .none ∧ exec i s = .next (s.completeError code)) ∨
    (i = .create ∧ exec i s = .next (s.destroyBody.completeError .configError)) ∨
    (∃ u, Kept i s u ∧ exec i s = .next u.completeOk) := by
  cases i with
  | create =>
    simp only [exec, execCreate, State.create]
    split
    · right; right
      exact ⟨s.destroyBody.install s.readCfg,
        Kept.quiet (destroyBody_kept (i := .create) s nofun rfl).1 (destroyBody_irqPend s) rfl (.inl nofun), rfl⟩
    · exact .inr (.inl ⟨trivial, rfl⟩)
  | destroy => exact .inr (.inr ⟨_, destroyBody_kept s nofun rfl, rfl⟩)
  | ldpcEncode slot =>
    simp only [exec, execLdpcEncode]
    split
    · right; right; exact ⟨_, Kept.quiet (by simp) (by simp) rfl (.inl nofun), rfl⟩
    · left; exact ⟨nofun, _, by decide, rfl⟩
  | ldpcDecode slot =>
    simp only [exec, execLdpcDecode, State.needModem, State.decodeLlrs]
    split <;> [skip; (left; exact ⟨nofun, _, by decide, rfl⟩)]
    split <;> [skip; (left; exact ⟨nofun, _, by decide, rfl⟩)]
    split_ifs <;> first
      | (left; exact ⟨nofun, _, by decide, rfl⟩)
      | (right; right; exact ⟨_, Kept.quiet (by simp) (by simp) rfl (.inl nofun), rfl⟩)
  | modulate =>
    simp only [exec, execModulate, State.needModem, State.modulateFrame]
    split <;> [skip; (left; exact ⟨nofun, _, by decide, rfl⟩)]
    rename_i m hm
    split_ifs <;> first
      | (left; exact ⟨nofun, _, by decide, rfl⟩)
      | (right; right
         exact ⟨_, Kept.quiet (by simp) (by simp) rfl (.inl nofun), rfl⟩)
  | demodulate =>
    simp only [exec, execDemodulate, State.withStream, State.needModem, State.demodulateFrame]
    split <;> [skip; (left; exact ⟨nofun, _, by decide, rfl⟩)]
    rename_i m hm
    split_ifs
    · left; exact ⟨nofun, _, by decide, rfl⟩
    · left; exact ⟨nofun, _, by decide, rfl⟩
    · right; right
      exact ⟨_, Kept.quiet (by simp) (by simp)
        rfl (.inl nofun), rfl⟩
    · right; right
      exact ⟨_, Kept.quiet (by simp) (by simp) rfl (.inl nofun), rfl⟩
  | syncSearch =>
    simp only [exec, execSyncSearch, State.withStream, State.needModem, State.searchStream]
    split <;> [skip; (left; exact ⟨nofun, _, by decide, rfl⟩)]
    rename_i m hm
    split_ifs <;> first
      | (left; exact ⟨nofun, _, by decide, rfl⟩)
      | (right; right
         exact ⟨_, Kept.quiet (by simp) (by simp) rfl (.inl nofun), rfl⟩)
  | ilPush =>
    simp only [exec, execIlPush, State.needModem, State.pushResults, if_true, Bool.false_eq_true, if_false]
    split <;> [skip; (left; exact ⟨nofun, _, by decide, rfl⟩)]
    rename_i m hm
    split_ifs
    · left; exact ⟨nofun, _, by decide, rfl⟩
    · right; right; refine ⟨_, ⟨by simp, ?_⟩, rfl⟩
      rw [if_neg (fun h => nomatch h.2), if_pos ⟨rfl, rfl⟩]
      simp
    · right; right
      exact ⟨_, Kept.quiet (by simp) (by simp) rfl (.inr (by simp)), rfl⟩
    · right; right
      exact ⟨_, Kept.quiet (by simp) (by simp) rfl (.inr (by simp)), rfl⟩
  | runSyncSm src =>
    simp only [exec, execRunSyncSm, State.needModem]
    split <;> [skip; (left; exact ⟨nofun, _, by decide, rfl⟩)]
    rename_i m hm
    right; right; refine ⟨_, ?_, rfl⟩
    exact Kept.sync (by simp) nofun (State.syncState_some (State.raiseIrqIf_modem _ _ _)) (State.syncState_some hm)
      (by rw [State.raiseIrqIf_irqPend]; simp [writesSyncState])
  | setSyncPolicy p =>
    simp only [exec, execSetSyncPolicy, State.needModem]
    split <;> [skip; (left; exact ⟨nofun, _, by decide, rfl⟩)]
    rename_i m hm
    right; right; refine ⟨_, ?_, rfl⟩
    exact Kept.sync (by simp) nofun (State.syncState_some (State.raiseIrqIf_modem _ _ _)) (State.syncState_some hm)
      (by rw [State.raiseIrqIf_irqPend]; simp [writesSyncState])
  | _ =>
    simp only [exec, execGetNin, execSetPhaseBw, execEnableTiming, execEnableFreq, execEnablePhase, execSetDpsk,
      execGetStats, execBerReset, State.updateModem, State.needModem]
    split <;> [skip; (left; exact ⟨nofun, _, by decide, rfl⟩)]
    rename_i m hm
    right; right
    exact ⟨_, Kept.quiet (by simp) (by simp) rfl (.inl nofun), rfl⟩

theorem hostStep_modem {op : HostOp} {s t : State} (h : State.hostStep op s = .next t) : t.modem = s.modem := by
  unfold State.hostStep at h
  split_ifs at h <;> cases h <;> try rfl
  cases op with
  | read w a => unfold State.access; dsimp only; split <;> rfl
  | write w a v =>
    simp only [State.access]
    split
    · unfold State.writeReg; split <;> rfl
    · rfl

theorem applySyncRow_cfg (m : Modem) (d : Bool) (r : SyncRow) : (m.applySyncRow d r).cfg = m.cfg := by cases r <;> rfl

/-- The modem after SYNC_SEARCH (42_demodulator R320, R323). -/
def searchModem (m : Modem) : Modem :=
  { (if Fp.lt m.cfg.timingMxThresh m.searchBest.2 then m.latchCandidate (m.searchLo + m.searchBest.1)
    else { m with frameStart := (m.tAbs : Int) - (m.cfg.spf : Int) }) with
    timingMx := m.searchBest.2, nin := m.cfg.spf, outValid := false }

/-- Every modem a command can leave, by how it comes from the one before. -/
theorem modem_cases {i : Instr} {s t : State} {m' : Modem} (h : exec i s = .next t) (hm' : t.modem = some m') :
    s.modem = some m' ∨ (m' = Modem.fresh s.readCfg ∧ s.readCfg.valid = true) ∨ ∃ m, s.modem = some m ∧ (
      (∃ v, m' = { m with filtHist := nextHist m.filtHist v }) ∨
      (∃ xs, xs.length = m.nin ∧ (((m.append xs).emits = true ∧ m' = (m.append xs).emit.2) ∨
        ((m.append xs).emits = false ∧ m' = { m.append xs with outValid := false, nin := m.cfg.spf }) ∨
        m' = searchModem (m.append xs))) ∨
      (∃ d ev, m' = m.syncStep d ev) ∨ (∃ d p, m' = m.setPolicy p d) ∨
      (∃ b t f p d, m' = { m with phaseBw := b, timingEn := t, foffEn := f, phaseEn := p, dpsk := d }) ∨
      (m.cfg.ilFrames ≠ 0 ∧ m.mayPush = true ∧ ((m.pushFrame.attempts = false ∧ m' = m.pushFrame) ∨
        ∃ b, m.pushFrame.attempts = true ∧ m' = m.pushFrame.afterAttempt b)) ∨
      m' = { m with berBits := 0, berErrs := 0 }) := by
  have same : s.modem = t.modem → s.modem = some m' := fun h => h.trans hm'
  cases i with
  | create =>
    simp only [exec, execCreate, State.create, Host.Outcome.next.injEq] at h
    split at h
    · subst h; cases hm'; exact .inr (.inl ⟨rfl, by assumption⟩)
    · subst h; rw [State.completeError_modem, destroyBody_modem] at hm'; cases hm'
  | destroy =>
    simp only [exec, execDestroy, Host.Outcome.next.injEq] at h
    subst h; rw [State.completeOk_modem, destroyBody_modem] at hm'; cases hm'
  | ldpcEncode slot =>
    simp only [exec, execLdpcEncode, Host.Outcome.next.injEq] at h
    split at h <;> subst h <;> exact .inl (same rfl)
  | ldpcDecode slot =>
    simp only [exec, execLdpcDecode, State.needModem, State.decodeLlrs, Host.Outcome.next.injEq] at h
    split at h <;> [split at h; skip] <;> try split_ifs at h
    all_goals subst h; exact .inl (same rfl)
  | modulate =>
    simp only [exec, execModulate, State.needModem, State.modulateFrame, Host.Outcome.next.injEq] at h
    split at h
    · split_ifs at h <;> subst h <;> first
        | exact .inl (same rfl)
        | (cases hm'; exact .inr (.inr ⟨_, by assumption, .inl ⟨_, rfl⟩⟩))
    · subst h; exact .inl (same rfl)
  | demodulate =>
    simp only [exec, execDemodulate, State.withStream, State.needModem, Host.Outcome.next.injEq] at h
    split at h
    · split_ifs at h
      · subst h; exact .inl (same rfl)
      · subst h; exact .inl (same rfl)
      · rename_i m _ _ _
        refine .inr (.inr ⟨m, by assumption, .inr (.inl ⟨s.inputSamples m.nin, by simp [State.inputSamples], ?_⟩)⟩)
        cases he : (m.append (s.inputSamples m.nin)).emits
        · simp only [State.demodulateFrame, he] at h
          subst h; cases hm'; exact .inr (.inl ⟨rfl, rfl⟩)
        · rw [demodulateFrame_eq he] at h
          subst h; cases hm'; exact .inl ⟨rfl, rfl⟩
    · subst h; exact .inl (same rfl)
  | syncSearch =>
    simp only [exec, execSyncSearch, State.withStream, State.needModem, Host.Outcome.next.injEq] at h
    split at h
    · split_ifs at h
      · subst h; exact .inl (same rfl)
      · subst h; exact .inl (same rfl)
      · rename_i m _ _ _
        refine .inr (.inr ⟨m, by assumption, .inr (.inl ⟨s.inputSamples m.nin, by simp [State.inputSamples], .inr (.inr ?_)⟩)⟩)
        generalize m.append (s.inputSamples m.nin) = m1 at *
        simp only [State.searchStream] at h
        subst h; cases hm'; rfl
    · subst h; exact .inl (same rfl)
  | ilPush =>
    simp only [exec, execIlPush, State.needModem, Host.Outcome.next.injEq] at h
    split at h
    · split_ifs at h with h1 h2 h3 <;> subst h
      · exact .inl (same rfl)
      · cases hm'; exact .inr (.inr ⟨_, by assumption, .inr (.inr (.inr (.inr (.inr (.inl ⟨h1, h2, .inr ⟨_, h3, rfl⟩⟩)))))⟩)
      · cases hm'; exact .inr (.inr ⟨_, by assumption, .inr (.inr (.inr (.inr (.inr (.inl ⟨h1, h2, .inl ⟨by simpa using h3, rfl⟩⟩)))))⟩)
      · cases hm'; exact .inl (by assumption)
    · subst h; exact .inl (same rfl)
  | runSyncSm src =>
    simp only [exec, execRunSyncSm, State.needModem, Host.Outcome.next.injEq] at h
    split at h
    · subst h; simp at hm'; subst hm'
      exact .inr (.inr ⟨_, by assumption, .inr (.inr (.inl ⟨_, _, rfl⟩))⟩)
    · subst h; exact .inl (same rfl)
  | setSyncPolicy p =>
    simp only [exec, execSetSyncPolicy, State.needModem, Host.Outcome.next.injEq] at h
    split at h
    · subst h; simp at hm'; subst hm'
      exact .inr (.inr ⟨_, by assumption, .inr (.inr (.inr (.inl ⟨_, _, rfl⟩)))⟩)
    · subst h; exact .inl (same rfl)
  | berReset =>
    simp only [exec, execBerReset, State.needModem, Host.Outcome.next.injEq] at h
    split at h
    · subst h; cases hm'
      exact .inr (.inr ⟨_, by assumption, .inr (.inr (.inr (.inr (.inr (.inr rfl)))))⟩)
    · subst h; exact .inl (same rfl)
  | _ =>
    simp only [exec, execGetNin, execSetPhaseBw, execEnableTiming, execEnableFreq, execEnablePhase, execSetDpsk,
      execGetStats, State.updateModem, State.needModem, Host.Outcome.next.injEq] at h
    split at h
    · subst h
      first
        | exact .inl (same rfl)
        | (cases hm'; exact .inr (.inr ⟨_, by assumption, .inr (.inr (.inr (.inr (.inl ⟨_, _, _, _, _, rfl⟩))))⟩))
    · subst h; exact .inl (same rfl)

/-- Where the modem after a step comes from. -/
theorem step_modem {s t : State} (h : step s = .next t) : t.modem = none ∨ t.modem = s.modem ∨
    ∃ i s0 , exec i s0 = .next t ∧ s0.modem = s.modem := by
  have core : ∀ s0 : State, s0.modem = s.modem → coreStep s0 = .next t → t.modem = none ∨ t.modem = s.modem ∨
    ∃ i s0 , exec i s0 = .next t ∧ s0.modem = s.modem := by
    intro s0 h0 h
    unfold coreStep at h
    split at h
    · split at h
      · exact .inr (.inr ⟨_, _, h, h0⟩)
      · cases h; exact .inr (.inl h0)
    · cases h; exact .inr (.inl h0)
  unfold step at h
  split at h
  · exact core s rfl h
  · rename_i rest _; exact core { s with turns := rest } rfl h
  · rename_i rest _; exact .inr (.inl (hostStep_modem (s := { s with turns := rest }) h))
  · cases h; exact .inl rfl

/-- An access the machine performs. -/
theorem hostStep_ok {s : State} {op : HostOp} (hf : s.faulted = false) (hl : op.legal = true) (hb : s.busy = false ∨ op.allowedBusy = true) :
    State.hostStep op s = .next (s.access op) := by
  unfold State.hostStep
  rw [if_neg (by simp [hf]), if_neg (by simp [hl]), if_neg (by rcases hb with h | h <;> simp [h])]

theorem step_host {s : State} {op : HostOp} {rest : List Turn} (h : s.turns = .host op :: rest) : step s = State.hostStep op { s with turns := rest } := by
  simp only [step, h]

theorem region_cases (a : Nat) : (a < 0x100 ∧ region a = .reg) ∨ (0x010000 ≤ a ∧ a < 0x0C0000 ∧ (region a = .cfg ∨ region a = .buffer)) ∨
    (region a = .unmapped ∧ ¬ a < 0x100 ∧ ¬ (0x010000 ≤ a ∧ a < 0x0C0000)) := by
  unfold region cfgBase sampleInBase windowEnd
  split
  · exact .inl ⟨by assumption, rfl⟩
  · split
    · exact .inr (.inr ⟨rfl, by omega, by omega⟩)
    · split
      · exact .inr (.inl ⟨by omega, by omega, .inl rfl⟩)
      · split
        · exact .inr (.inl ⟨by omega, by omega, .inr rfl⟩)
        · exact .inr (.inr ⟨rfl, by omega, by omega⟩)

end Sys2Proof.Machine
end

