-- ==== Sys2Proof/Laws/Fresh.lean ====
section
/-! SUPPORT. The invariant right after CREATE. -/

namespace Sys2Proof.Machine

/-- CREATE with a valid configuration leaves a modem that satisfies the invariant (40_control R202). -/
theorem fresh_inv {c : ModemConfig} (hv : c.valid = true) (hs : c.Shaped) : (Modem.fresh c).Inv where
  cfgValid := hv
  cfgShaped := hs
  rxLen := by show (List.replicate _ _).length = _; simp; rfl
  ninNear := by show c.spf ≤ c.spf + 1 ∧ c.spf ≤ c.spf + 1; omega
  stream := .inl ⟨rfl, rfl⟩
  noDrift := fun _ => (by decide : Fp.isZero Fp.zero = true)
  pilotLen := by show (List.replicate _ _).length = _; simp; rfl
  outLen := by
    show (List.replicate _ _).length = _ ∧ (List.replicate _ _).length = _ ∧ (List.replicate _ _).length = _ ∧ (List.replicate _ _).length = _
    simp; exact ⟨rfl, rfl⟩
  histLen := by show (List.replicate _ _).length = _; simp
  unsynced := fun h => by cases h
  searching := fun _ => ⟨rfl, rfl, rfl, rfl, rfl⟩
  trial := fun h => by cases h
  ringLen := Nat.zero_le _
  ringShape := fun r h => by cases h
  ringFull := fun h => absurd rfl h
  sinceLt := fun h => absurd rfl h
  ilTrial := fun h => by cases h
  lastLe := le_refl _
  outCounted := fun h => by cases h
  decLen := by show (List.replicate _ _).length = _; simp; rfl
  passLe := Nat.zero_le _
  convPass := fun h => by cases h
  berLe := le_refl _

end Sys2Proof.Machine
end

