-- ==== Sys2Proof/Laws/Interleaver.lean ====
section
/-! SUPPORT. The block symbols and the LLRs of a codeword, element by element (45_interleaver R451, R452). -/

namespace Sys2Proof.Machine

theorem forcePad_length (x : F64) (pad : List (Nat × Bool)) (l : List F64) : (forcePad x pad l).length = l.length := by
  unfold forcePad
  induction pad generalizing l with
  | nil => rfl
  | cons p pad ih => rw [List.foldl_cons, ih, List.length_set]

/-- Padding entries hold their known bit's LLR, every other entry stays (R452). -/
theorem forcePad_get (x : F64) {pad : List (Nat × Bool)} (hn : (pad.map Prod.fst).Nodup) (l : List F64) :
    (∀ p b, (p, b) ∈ pad → p < l.length → (forcePad x pad l).getD p 0#64 = if b then Fp.neg x else x) ∧
    (∀ p, p ∉ pad.map Prod.fst → (forcePad x pad l).getD p 0#64 = l.getD p 0#64) := by
  induction pad generalizing l with
  | nil => exact ⟨nofun, fun _ _ => rfl⟩
  | cons q pad ih =>
    rw [List.map_cons, List.nodup_cons] at hn
    have hst : forcePad x (q :: pad) l = forcePad x pad (l.set q.1 (if q.2 then Fp.neg x else x)) := rfl
    obtain ⟨h1, h2⟩ := ih hn.2 (l.set q.1 (if q.2 then Fp.neg x else x))
    rw [hst]
    constructor
    · intro p b hp hlt
      rcases List.mem_cons.1 hp with rfl | hp
      · rw [h2 _ hn.1, List.getD_eq_getElem _ _ (by simpa using hlt), List.getElem_set_self]
      · exact h1 p b hp (by simpa using hlt)
    · intro p hp
      rw [List.map_cons, List.mem_cons, not_or] at hp
      rw [h2 p hp.2, List.getD_eq_getElem?_getD, List.getElem?_set_ne (Ne.symm hp.1), ← List.getD_eq_getElem?_getD]

/-- A list of pairs, element by element. -/
theorem flatMap_pair {α : Type} (l : List α) (f g : α → F64) (i : Nat) (h : i < l.length) :
    (l.flatMap fun x => [f x, g x]).getD (2 * i) 0#64 = f l[i] ∧
    (l.flatMap fun x => [f x, g x]).getD (2 * i + 1) 0#64 = g l[i] := by
  induction l generalizing i with
  | nil => simp at h
  | cons x l ih =>
    cases i with
    | zero => exact ⟨rfl, rfl⟩
    | succ i => exact ih i (by simpa using h)

/-- Block symbol `i` is symbol `i % n` of record `i / n` (R451, R453). -/
theorem blockSymbol_get {recs : List IlRecord} {n : Nat} (h : ∀ r ∈ recs, r.z.length = n ∧ r.a.length = n) {i : Nat}
    (hi : i < recs.length * n) (d : BlockSymbol) : ∃ r, recs[i / n]? = some r ∧
    (recs.flatMap IlRecord.symbols).getD i d = (r.z.getD (i % n) Cx.zero, r.a.getD (i % n) Fp.zero, r.sigma2) := by
  induction recs generalizing i with
  | nil => simp at hi
  | cons r recs ih =>
    obtain ⟨hz, ha⟩ := h r List.mem_cons_self
    have hlen : r.symbols.length = n := by simp [IlRecord.symbols, hz, ha]
    rw [List.flatMap_cons]
    by_cases hlt : i < n
    · refine ⟨r, by rw [Nat.div_eq_of_lt hlt]; rfl, ?_⟩
      rw [List.getD_append _ _ _ _ (by rw [hlen]; exact hlt), Nat.mod_eq_of_lt hlt, List.getD_eq_getElem _ _ (by rw [hlen]; exact hlt),
        List.getD_eq_getElem _ _ (by rw [hz]; exact hlt), List.getD_eq_getElem _ _ (by rw [ha]; exact hlt)]
      simp [IlRecord.symbols]
    · have hn : 0 < n := Nat.pos_of_ne_zero fun h0 => by rw [h0] at hi; simp at hi
      rw [List.length_cons, Nat.add_mul, Nat.one_mul] at hi
      obtain ⟨r', h1, h2⟩ := ih (fun x hx => h x (List.mem_cons_of_mem _ hx)) (i := i - n) (by omega)
      refine ⟨r', ?_, ?_⟩
      · rw [Nat.div_eq_sub_div hn (by omega), List.getElem?_cons_succ]; exact h1
      · rw [List.getD_append_right _ _ _ _ (by rw [hlen]; omega), hlen, h2, ← Nat.mod_eq_sub_mod (by omega)]

theorem codewordLlrs_length (c : ModemConfig) (syms : List BlockSymbol) (j : Nat) :
    (codewordLlrs c syms j).length = 2 * c.npay := by
  unfold codewordLlrs
  rw [forcePad_length, List.length_flatMap]
  simp [symbolLlrs]
  omega

/-- The LLRs of codeword `j` (R451, R452): the padding bits', and elsewhere those of the symbol IL_PERM names. -/
theorem codewordLlrs_get (c : ModemConfig) (syms : List BlockSymbol) (j : Nat) (hn : (c.code.pad.map Prod.fst).Nodup) :
    let llrs := codewordLlrs c syms j
    (∀ p b, (p, b) ∈ c.code.pad → p < 2 * c.npay → llrs.getD p 0#64 = if b then Fp.neg c.llrMax else c.llrMax) ∧
    ∀ t, t < c.npay →
      let x := syms.getD (c.ilPerm.getD (j * c.npay + t) 0) (Cx.zero, Fp.zero, Fp.one)
      (2 * t ∉ c.code.pad.map Prod.fst → llrs.getD (2 * t) 0#64 = axisLlr c.llrMax x.1.re x.2.1 x.2.2) ∧
      (2 * t + 1 ∉ c.code.pad.map Prod.fst → llrs.getD (2 * t + 1) 0#64 = axisLlr c.llrMax x.1.im x.2.1 x.2.2) := by
  have hl : ∀ raw : List F64, forcePad c.llrMax c.code.pad raw = codewordLlrs c syms j → raw.length = 2 * c.npay := by
    intro raw h; rw [← codewordLlrs_length c syms j, ← h, forcePad_length]
  obtain ⟨h1, h2⟩ := forcePad_get c.llrMax hn ((List.range c.npay).flatMap fun t =>
    symbolLlrs c.llrMax (syms.getD (c.ilPerm.getD (j * c.npay + t) 0) (Cx.zero, Fp.zero, Fp.one)))
  refine ⟨fun p b hp hlt => h1 p b hp (by rw [hl _ rfl]; exact hlt), fun t ht => ?_⟩
  have hp := flatMap_pair (List.range c.npay)
    (fun t => axisLlr c.llrMax (syms.getD (c.ilPerm.getD (j * c.npay + t) 0) (Cx.zero, Fp.zero, Fp.one)).1.re
      (syms.getD (c.ilPerm.getD (j * c.npay + t) 0) (Cx.zero, Fp.zero, Fp.one)).2.1
      (syms.getD (c.ilPerm.getD (j * c.npay + t) 0) (Cx.zero, Fp.zero, Fp.one)).2.2)
    (fun t => axisLlr c.llrMax (syms.getD (c.ilPerm.getD (j * c.npay + t) 0) (Cx.zero, Fp.zero, Fp.one)).1.im
      (syms.getD (c.ilPerm.getD (j * c.npay + t) 0) (Cx.zero, Fp.zero, Fp.one)).2.1
      (syms.getD (c.ilPerm.getD (j * c.npay + t) 0) (Cx.zero, Fp.zero, Fp.one)).2.2) t (by rw [List.length_range]; exact ht)
  rw [List.getElem_range] at hp
  exact ⟨fun h => (h2 _ h).trans hp.1, fun h => (h2 _ h).trans hp.2⟩

end Sys2Proof.Machine
end

