-- ==== Sys2Proof/Laws/Ldpc.lean ====
section
/-! SUPPORT. Parity and the shape of a decode (44_ldpc R403, R424 to R426). -/

namespace Sys2Proof.Machine

/-- The stand-in table meets R401. -/
theorem stockCode_wf : codeWf stockCode = true := by decide +kernel

/-- Every code table meets R400 and R401, and slot 0 has the sizes of 00_scope R12. -/
theorem codeTable_cases (slot : Nat) : codeWf (codeTable slot) = true ∧ (slot = 0 → (codeTable slot).n = 224 ∧ (codeTable slot).m = 112) := by
  unfold codeTable
  dsimp only
  split
  · rename_i h
    simp only [Bool.and_eq_true, Bool.or_eq_true, decide_eq_true_eq] at h
    exact ⟨h.1, fun h0 => h.2.resolve_left (fun h => h h0)⟩
  · exact ⟨stockCode_wf, fun _ => ⟨rfl, rfl⟩⟩

theorem foldl_xor (l : List Bool) (a : Bool) : l.foldl Bool.xor a = Bool.xor a (xorBits l) := by
  induction l generalizing a with
  | nil => simp [xorBits]
  | cons b l ih => simp only [xorBits, List.foldl_cons]; rw [ih, ih]; cases a <;> cases b <;> simp

theorem xorBits_cons (b : Bool) (l : List Bool) : xorBits (b :: l) = Bool.xor b (xorBits l) := by
  show l.foldl Bool.xor (Bool.xor false b) = _
  rw [foldl_xor]; simp

theorem xorBits_perm {l l' : List Bool} (h : l.Perm l') : xorBits l = xorBits l' := by
  induction h with
  | nil => rfl
  | cons x _ ih => rw [xorBits_cons, xorBits_cons, ih]
  | swap x y l => simp only [xorBits_cons]; cases x <;> cases y <;> simp
  | trans _ _ h1 h2 => exact h1.trans h2

/-- The parity of a row, one entry set apart. -/
theorem xorBits_split {l : List Nat} (hn : l.Nodup) {a : Nat} (ha : a ∈ l) (f : Nat → Bool) :
    xorBits (l.map f) = Bool.xor (f a) (xorBits ((l.filter fun v => decide (v ≠ a)).map f)) := by
  rw [← xorBits_cons, ← List.map_cons]
  apply xorBits_perm
  apply List.Perm.map
  have h1 := List.perm_cons_erase ha
  have h2 : l.erase a = l.filter fun v => decide (v ≠ a) := by
    rw [hn.erase_eq_filter]; apply List.filter_congr; intro x _; simp [bne, Bool.beq_eq_decide_eq]
  rwa [h2] at h1

theorem passCount_iff (c : LdpcCode) (bits : List Bool) : passCount c bits = c.m ↔ ∀ m, m < c.m → checkHolds c bits m = true := by
  unfold passCount
  constructor
  · intro h
    have := List.countP_eq_length.1 (h.trans (List.length_range).symm)
    intro m hm; exact this m (List.mem_range.2 hm)
  · intro h
    rw [List.countP_eq_length.2 (fun m hm => h m (List.mem_range.1 hm)), List.length_range]

theorem passCount_le (c : LdpcCode) (bits : List Bool) : passCount c bits ≤ c.m :=
  (List.countP_le_length).trans (by rw [List.length_range])

/-- The first `n` parity bits. -/
def parPre (c : LdpcCode) (d : List Bool) (n : Nat) : List Bool := (List.range n).foldl (fun p m => p ++ [parityBit c d p m]) []

theorem parPre_succ (c : LdpcCode) (d : List Bool) (n : Nat) : parPre c d (n + 1) = parPre c d n ++ [parityBit c d (parPre c d n) n] := by
  simp [parPre, List.range_succ]

theorem parPre_length (c : LdpcCode) (d : List Bool) (n : Nat) : (parPre c d n).length = n := by
  induction n with
  | zero => rfl
  | succ n ih => rw [parPre_succ]; simp [ih]

theorem parPre_get (c : LdpcCode) (d : List Bool) (n j : Nat) (h : j < n) : (parPre c d n).getD j false = parityBit c d (parPre c d j) j := by
  induction n with
  | zero => omega
  | succ n ih =>
    rw [parPre_succ]
    by_cases hj : j < n
    · rw [List.getD_append _ _ _ _ (by rw [parPre_length]; exact hj)]; exact ih hj
    · have : j = n := by omega
      subst this
      rw [List.getD_append_right _ _ _ _ (by rw [parPre_length])]; simp [parPre_length]

theorem encodeParity_length (c : LdpcCode) (d : List Bool) : (encodeParity c d).length = c.m := parPre_length c d c.m

/-- What the rounds of a decode keep (44_ldpc R425). -/
theorem bpRounds_spec (c : LdpcCode) (p : BpParams) (l : List F64) (fuel : Nat) : ∀ (q : Messages) (d : Decoded),
    d.hard.length = c.n → d.pass = passCount c d.hard →
    let r := bpRounds c p l fuel q d
    r.hard.length = c.n ∧ r.pass = passCount c r.hard ∧ r.iters ≤ d.iters + fuel ∧ (r.pass ≠ c.m → r.iters = d.iters + fuel) := by
  induction fuel with
  | zero => intro q d h1 h2; exact ⟨h1, h2, le_refl _, fun _ => rfl⟩
  | succ n ih =>
    intro q d h1 h2
    simp only [bpRounds]
    split
    · rename_i h
      refine ⟨by simp [hardBits], rfl, by simp, fun h' => absurd h h'⟩
    · have := ih (nextQ c p l (q.map (checkUpdate p))) { hard := hardBits c l (q.map (checkUpdate p)), iters := d.iters + 1, pass := passCount c (hardBits c l (q.map (checkUpdate p))) } (by simp [hardBits]) rfl
      obtain ⟨a, b, c1, d1⟩ := this
      exact ⟨a, b, c1.trans (by simp; omega), fun h => (d1 h).trans (by simp; omega)⟩

/-- What a decode returns (44_ldpc R425). -/
theorem bpDecode_spec (c : LdpcCode) (p : BpParams) (l : List F64) (fuel : Nat) :
    let r := bpDecode c p l fuel
    r.hard.length = c.n ∧ r.pass = passCount c r.hard ∧ r.iters ≤ fuel ∧ (r.pass ≠ c.m → r.iters = fuel) := by
  have := bpRounds_spec c p (l.map fun x => Fp.clip x p.llrMax) fuel (initialQ c (l.map fun x => Fp.clip x p.llrMax))
    { hard := (List.range c.n).map fun v => hd ((l.map fun x => Fp.clip x p.llrMax).getD v Fp.zero), iters := 0, pass := passCount c ((List.range c.n).map fun v => hd ((l.map fun x => Fp.clip x p.llrMax).getD v Fp.zero)) } (by simp) rfl
  simp only [Nat.zero_add] at this; exact this

theorem decodeLlrs_eq (s : State) (m : Modem) (c : LdpcCode) (d : Decoded)
    (hd : bpDecode c (bpParams m.cfg s.arg1.toNat) (s.readLlrs c.n) s.arg0.toNat = d) :
    s.decodeLlrs m c = { s with
        mem := (s.writeBits bitOutBase d.hard).mem, res0 := BitVec.ofNat 32 d.iters, res1 := BitVec.ofNat 32 d.pass,
        res2 := (if d.pass = c.m then 1 else 0), nonconv := decide (d.pass < c.m),
        busy := false, done := true, err := false, errcode := .none, irqPend := s.irqPend ||| 0x1#32 } := by
  simp only [State.decodeLlrs, hd]
  have : BitVec.ofNat 32 (decide (d.pass = c.m)).toNat = if d.pass = c.m then 1 else 0 := by split <;> simp_all
  rw [this]; rfl

theorem lookup_map {α : Type} (l : List Nat) (G : Nat → α) (v : Nat) (h : v ∈ l) : (l.map fun v => (v, G v)).lookup v = some (G v) := by
  induction l with
  | nil => simp at h
  | cons a l ih =>
    simp only [List.map_cons, List.lookup_cons]
    by_cases hv : v = a
    · subst hv; simp
    · have : (v == a) = false := by simpa using hv
      rw [this]; simp only; exact ih ((List.mem_cons.1 h).resolve_left hv)

/-- After the first padding 0 of a row or column every later entry is 0 (44_ldpc R400). -/
theorem padding_zero {l : List (BitVec 16)}
    (h : (l.dropWhile fun x => decide (x ≠ 0#16)).all (fun x => decide (x = 0#16)) = true) :
    ∀ i j, i < j → j < l.length → l.getD i 1#16 = 0#16 → l.getD j 1#16 = 0#16 := by
  induction l with
  | nil => intro i j _ hj; simp at hj
  | cons x l ih =>
    intro i j hij hj h0
    obtain ⟨j, rfl⟩ : ∃ k, j = k + 1 := ⟨j - 1, by omega⟩
    have hj' : j < l.length := by simpa using hj
    by_cases hx : x = 0#16
    · rw [List.dropWhile_cons_of_neg (by simp [hx]), List.all_cons, Bool.and_eq_true, List.all_eq_true] at h
      rw [List.getD_cons_succ, List.getD_eq_getElem _ _ hj']
      exact of_decide_eq_true (h.2 _ (List.getElem_mem hj'))
    · rw [List.dropWhile_cons_of_pos (by simp [hx])] at h
      cases i with
      | zero => exact absurd h0 hx
      | succ i => exact ih h i j (by omega) hj' h0

/-- The converse of `padding_zero`. -/
theorem padding_all {l : List (BitVec 16)}
    (h : ∀ i j, i < j → j < l.length → l.getD i 1#16 = 0#16 → l.getD j 1#16 = 0#16) :
    (l.dropWhile fun x => decide (x ≠ 0#16)).all (fun x => decide (x = 0#16)) = true := by
  induction l with
  | nil => rfl
  | cons x l ih =>
    by_cases hx : x = 0#16
    · rw [List.dropWhile_cons_of_neg (by simp [hx]), List.all_cons, hx, List.all_eq_true.2]
      · rfl
      · intro y hy
        obtain ⟨j, hj, rfl⟩ := List.getElem_of_mem hy
        have := h 0 (j + 1) (by omega) (by simpa using hj) hx
        rw [List.getD_cons_succ, List.getD_eq_getElem _ _ hj] at this
        exact decide_eq_true this
    · rw [List.dropWhile_cons_of_pos (by simp [hx])]
      exact ih fun i j hij hj h0 => h (i + 1) (j + 1) (by omega) (by simpa using hj) h0

/-- The entries of a row or column are nodes within its limit. -/
theorem entries_lt {l : List (BitVec 16)} {n : Nat} (h : ∀ x ∈ l, x.toNat ≤ n) {v : Nat} (hv : v ∈ entries l) : v < n := by
  unfold entries at hv
  rw [List.mem_map] at hv
  obtain ⟨x, hx, rfl⟩ := hv
  have h1 : x ≠ 0#16 := by simpa using List.mem_takeWhile_imp hx
  have h2 := h x (List.takeWhile_subset _ hx)
  have h3 : x.toNat ≠ 0 := fun h0 => h1 (BitVec.eq_of_toNat_eq (by simpa using h0))
  omega

/-- What `codeWf` says of a table (44_ldpc R400, R401). -/
theorem codeWf_iff (c : LdpcCode) : codeWf c = true ↔
    (∀ r ∈ c.hRows, r.length = c.maxRowWeight ∧ ∀ x ∈ r, x.toNat ≤ c.n) ∧
    (∀ q ∈ c.hCols, q.length = c.maxColWeight ∧ ∀ x ∈ q, x.toNat ≤ c.m) ∧
    (∀ l ∈ c.hRows ++ c.hCols, ∀ i j, i < j → j < l.length → l.getD i 1#16 = 0#16 → l.getD j 1#16 = 0#16) ∧
    (c.hRows.length = c.m ∧ c.hCols.length = c.n) ∧
    (∀ m, m < c.m → (row c m).Nodup) ∧ (∀ v, v < c.n → (col c v).Nodup) ∧
    (∀ m v, m < c.m → v < c.n → (v ∈ row c m ↔ m ∈ col c v)) ∧
    (∀ m, m < c.m → codeK c + m ∈ row c m ∧ ∀ v ∈ row c m, v ≤ codeK c + m) ∧
    (1 ≤ c.n ∧ c.n ≤ 32768 ∧ 1 ≤ c.m ∧ c.m ≤ c.n ∧ codeK c ≤ 4096 ∧ 1 ≤ c.maxRowWeight ∧ 1 ≤ c.maxColWeight ∧
      1 ≤ c.maxIter ∧ c.maxIter ≤ 65535) ∧
    ((∀ p ∈ c.pad, p.1 < codeK c) ∧ (c.pad.map Prod.fst).Nodup) := by
  have rowMem : ∀ m, m < c.hRows.length → c.hRows.getD m [] ∈ c.hRows := fun m hm => by
    rw [List.getD_eq_getElem _ _ hm]; exact List.getElem_mem _
  have colMem : ∀ v, v < c.hCols.length → c.hCols.getD v [] ∈ c.hCols := fun v hv => by
    rw [List.getD_eq_getElem _ _ hv]; exact List.getElem_mem _
  simp only [codeWf, Bool.and_eq_true, decide_eq_true_eq, List.all_eq_true, List.mem_range, lineOk, triangular,
    List.contains_iff_mem]
  constructor
  · rintro ⟨⟨⟨⟨⟨⟨⟨⟨⟨⟨⟨⟨⟨⟨⟨⟨⟨h1, h2⟩, h3⟩, h4⟩, h5⟩, h6⟩, h7⟩, h8⟩, h9⟩, h10⟩, h11⟩, h12⟩, h13⟩, h14⟩, h15⟩, h16⟩, h17⟩, h18⟩
    refine ⟨fun r hr => ⟨(h12 r hr).1.1.1, (h12 r hr).1.1.2⟩, fun q hq => ⟨(h13 q hq).1.1.1, (h13 q hq).1.1.2⟩,
      fun l hl => padding_zero (List.all_eq_true.2 fun x hx => ?_), ⟨h10, h11⟩,
      fun m hm => (h12 _ (rowMem m (by omega))).2, fun v hv => (h13 _ (colMem v (by omega))).2,
      fun m v hm hv => ⟨h14 m hm v, h15 v hv m⟩, h16, ⟨h1, h2, h3, h4, h5, h6, h7, h8, h9⟩, h17, h18⟩
    rcases List.mem_append.1 hl with hl | hl
    · exact decide_eq_true ((h12 l hl).1.2 x hx)
    · exact decide_eq_true ((h13 l hl).1.2 x hx)
  · rintro ⟨h1, h2, h3, ⟨h4, h5⟩, h6, h7, h8, h9, ⟨a1, a2, a3, a4, a5, a6, a7, a8, a9⟩, h10, h11⟩
    have pad : ∀ l ∈ c.hRows ++ c.hCols, ∀ x ∈ l.dropWhile (fun x => decide (x ≠ 0#16)), x = 0#16 := fun l hl x hx =>
      of_decide_eq_true (List.all_eq_true.1 (padding_all (h3 l hl)) x hx)
    refine ⟨⟨⟨⟨⟨⟨⟨⟨⟨⟨⟨⟨⟨⟨⟨⟨⟨a1, a2⟩, a3⟩, a4⟩, a5⟩, a6⟩, a7⟩, a8⟩, a9⟩, h4⟩, h5⟩, fun r hr => ?_⟩, fun q hq => ?_⟩,
      fun m hm v hv => ?_⟩, fun v hv m hm => ?_⟩, h9⟩, h10⟩, h11⟩
    · refine ⟨⟨h1 r hr, pad r (List.mem_append_left _ hr)⟩, ?_⟩
      obtain ⟨m, hm, rfl⟩ := List.getElem_of_mem hr
      have := h6 m (by omega)
      rwa [row, List.getD_eq_getElem _ _ hm] at this
    · refine ⟨⟨h2 q hq, pad q (List.mem_append_right _ hq)⟩, ?_⟩
      obtain ⟨v, hv, rfl⟩ := List.getElem_of_mem hq
      have := h7 v (by omega)
      rwa [col, List.getD_eq_getElem _ _ hv] at this
    · exact (h8 m v hm (entries_lt (h1 _ (rowMem m (by omega))).2 hv)).1 hv
    · exact (h8 m v (entries_lt (h2 _ (colMem v (by omega))).2 hm) hv).2 hm

/-- Messages from a function of the edge. -/
def edgeMessages (c : LdpcCode) (f : Nat → Nat → F64) : Messages :=
  (List.range c.m).map fun m => (row c m).map fun v => (v, f m v)

theorem message_edges (c : LdpcCode) (f : Nat → Nat → F64) {m v : Nat} (hm : m < c.m) (hv : v ∈ row c m) :
    message (edgeMessages c f) m v = f m v := by
  unfold message edgeMessages
  rw [List.getD_eq_getElem _ _ (by simpa using hm), List.getElem_map, List.getElem_range, lookup_map _ _ _ hv, Option.getD_some]

/-- The check-node update, edge by edge (44_ldpc R422, R423). -/
theorem checkUpdate_edges (c : LdpcCode) (p : BpParams) (f : Nat → Nat → F64) :
    (edgeMessages c f).map (checkUpdate p) = edgeMessages c fun m v =>
      let others := ((row c m).filter fun u => decide (u ≠ v)).map (f m)
      if p.minSum then minSumMsg p others else sumProduct p others := by
  unfold edgeMessages
  rw [List.map_map]
  apply List.map_congr_left
  intro m _
  simp only [Function.comp, checkUpdate, List.map_map, List.filter_map]
  rfl

theorem initialQ_edges (c : LdpcCode) (l : List F64) : initialQ c l = edgeMessages c fun _ v => l.getD v Fp.zero := rfl
theorem nextQ_edges (c : LdpcCode) (p : BpParams) (l : List F64) (r : Messages) :
    nextQ c p l r = edgeMessages c (variableMsg c p l r) := rfl

end Sys2Proof.Machine
end

