-- ==== Sys2Proof/Laws/Memory.lean ====
section
/-! SUPPORT. Laws of memory: the canonical form is kept, a byte reads back what was written to it and every other byte is
unchanged, and little-endian values read back (20_memory R123, R129). -/

namespace Sys2Proof.Machine

namespace Memory

theorem rising_mono {lo lo' : Nat} {l : List Host.Cell} (h : rising lo l = true) (hle : lo' ≤ lo) :
    rising lo' l = true := by
  cases l with
  | nil => rfl
  | cons p rest =>
    simp only [rising, Bool.and_eq_true, Nat.ble_eq] at h ⊢
    exact ⟨hle.trans h.1, h.2⟩

theorem set_rising {lo x : Nat} {v : Byte} {l : List Host.Cell} (h : rising lo l = true) (hx : lo ≤ x) :
    rising lo (set l x v) = true := by
  induction l generalizing lo with
  | nil => simp [set, rising, hx]
  | cons p rest ih =>
    obtain ⟨a, b⟩ := p
    simp only [rising, Bool.and_eq_true, Nat.ble_eq] at h
    unfold set
    split_ifs with h1 h2
    · simp only [rising, Bool.and_eq_true, Nat.ble_eq]; exact ⟨h.1, h.2⟩
    · simp only [rising, Bool.and_eq_true, Nat.ble_eq]; exact ⟨hx, h2, h.2⟩
    · simp only [rising, Bool.and_eq_true, Nat.ble_eq]; exact ⟨h.1, ih h.2 (by omega)⟩

/-- Every write of a byte keeps the canonical form. -/
theorem set_wf {x : Nat} {v : Byte} {l : List Host.Cell} (h : wf l = true) : wf (set l x v) = true :=
  set_rising h (Nat.zero_le x)

/-- Every write of bytes keeps the canonical form. -/
theorem setBytes_wf {x : Nat} {bs : List Byte} {l : List Host.Cell} (h : wf l = true) :
    wf (setBytes l x bs) = true := by
  induction bs generalizing x l with
  | nil => exact h
  | cons b bs ih => exact ih (set_wf h)

theorem get?_below {lo x : Nat} {l : List Host.Cell} (h : rising lo l = true) (hx : x < lo) : get? l x = none := by
  cases l with
  | nil => rfl
  | cons p rest =>
    obtain ⟨a, b⟩ := p
    simp only [rising, Bool.and_eq_true, Nat.ble_eq] at h
    unfold get?
    rw [if_neg (by omega), if_pos (by omega)]

theorem get?_set_rising {lo x y : Nat} {v : Byte} {l : List Host.Cell} (h : rising lo l = true) :
    get? (set l x v) y = if y = x then some v else get? l y := by
  induction l generalizing lo with
  | nil => simp [set, get?]
  | cons p rest ih =>
    obtain ⟨a, b⟩ := p
    simp only [rising, Bool.and_eq_true, Nat.ble_eq] at h
    have := @ih (a + 1) h.2
    unfold set
    split_ifs with h1 h2 h3 <;> simp only [get?] <;> split_ifs <;> first | rfl | omega | simp_all

/-- A byte reads back what was written to it, and every other byte is unchanged. -/
theorem get?_set {x y : Nat} {v : Byte} {l : List Host.Cell} (h : wf l = true) :
    get? (set l x v) y = if y = x then some v else get? l y := get?_set_rising h

/-- The same for a run of bytes. -/
theorem get?_setBytes {x y : Nat} {bs : List Byte} {l : List Host.Cell} (h : wf l = true) :
    get? (setBytes l x bs) y = if x ≤ y ∧ y < x + bs.length then bs[y - x]? else get? l y := by
  induction bs generalizing x l with
  | nil =>
    rw [if_neg (by simp only [List.length_nil]; omega)]; rfl
  | cons b bs ih =>
    rw [setBytes, ih (set_wf h), get?_set h]
    simp only [List.length_cons]
    split_ifs with h1 h2 h3 h4 h5 <;> first
      | omega
      | rfl
      | (rw [show y - x = (y - (x + 1)) + 1 by omega, List.getElem?_cons_succ])
      | (rw [h3, Nat.sub_self]; rfl)

/-- A write adds addresses only where it writes. -/
theorem mem_set {x : Nat} {v : Byte} {l : List Host.Cell} {p : Host.Cell} (h : p ∈ set l x v) : p = (x, v) ∨ p ∈ l := by
  induction l with
  | nil => simpa [set] using h
  | cons q rest ih =>
    obtain ⟨a, b⟩ := q
    unfold set at h
    split_ifs at h with h1 h2
    · rcases List.mem_cons.1 h with h | h
      · exact .inl (h.trans (by rw [h1]))
      · exact .inr (List.mem_cons_of_mem _ h)
    · rcases List.mem_cons.1 h with h | h
      · exact .inl h
      · exact .inr h
    · rcases List.mem_cons.1 h with h | h
      · exact .inr (h ▸ List.mem_cons_self)
      · exact (ih h).imp_right (List.mem_cons_of_mem _)

theorem mem_setBytes {x : Nat} {bs : List Byte} {l : List Host.Cell} {p : Host.Cell} (h : p ∈ setBytes l x bs) :
    (x ≤ p.1 ∧ p.1 < x + bs.length) ∨ p ∈ l := by
  induction bs generalizing x l with
  | nil => exact .inr h
  | cons b bs ih =>
    rcases ih h with h | h
    · simp only [List.length_cons]; left; omega
    · rcases mem_set h with h | h
      · subst h; simp
      · exact .inr h

end Memory

/-- The memory of a state after a write. -/
theorem State.writeBytes_wf {a : Nat} {bs : List Byte} {s : State} (h : Memory.wf s.mem = true) :
    Memory.wf (s.writeBytes a bs).mem = true := Memory.setBytes_wf h

/-- What each byte reads as after a write. -/
theorem State.readByte_writeBytes {a x : Nat} {bs : List Byte} {s : State} (h : Memory.wf s.mem = true) :
    (s.writeBytes a bs).readByte x = if a ≤ x ∧ x < a + bs.length then bs.getD (x - a) 0 else s.readByte x := by
  unfold State.readByte
  rw [show (s.writeBytes a bs).mem = Memory.setBytes s.mem a bs from rfl, Memory.get?_setBytes h]
  split_ifs with hx
  · rw [List.getD_eq_getElem?_getD, List.getElem?_eq_getElem (by omega)]; rfl
  · rfl

theorem State.readByte_writeBytes_outside {a x : Nat} {bs : List Byte} {s : State} (h : Memory.wf s.mem = true)
    (hx : x < a ∨ a + bs.length ≤ x) : (s.writeBytes a bs).readByte x = s.readByte x := by
  rw [State.readByte_writeBytes h, if_neg (by omega)]

@[simp] theorem bytesLE_length (n v : Nat) : (bytesLE n v).length = n := by
  induction n generalizing v with
  | zero => rfl
  | succ n ih => simp [bytesLE, ih]

/-- A value read from bytes that hold another value's digits is that value, cut to the width. -/
theorem State.readLE_of_bytes {s : State} {a n v : Nat}
    (h : ∀ k, k < n → s.readByte (a + k) = (bytesLE n v).getD k 0) : s.readLE a n = v % 256 ^ n := by
  induction n generalizing a v with
  | zero => simp [State.readLE, Nat.mod_one]
  | succ n ih =>
    have h0 := h 0 (by omega)
    have hs : s.readLE (a + 1) n = v / 256 % 256 ^ n := ih fun k hk => by
      have := h (k + 1) (by omega)
      rwa [show a + (k + 1) = a + 1 + k by omega, bytesLE, List.getD_cons_succ] at this
    simp only [State.readLE, bytesLE, List.getD_cons_zero, Nat.add_zero] at h0 ⊢
    rw [h0, hs, BitVec.toNat_ofNat, pow_succ' 256 n, Nat.mod_mul (x := v)]

/-- A value written little-endian reads back, cut to its width (20_memory R123). -/
theorem State.readLE_writeBytes_bytesLE {s : State} {a n v : Nat} (h : Memory.wf s.mem = true) :
    (s.writeBytes a (bytesLE n v)).readLE a n = v % 256 ^ n := by
  apply State.readLE_of_bytes
  intro k hk
  rw [State.readByte_writeBytes h, if_pos (by simp; omega), Nat.add_sub_cancel_left]

/-- Equal bytes make equal values. -/
theorem State.readLE_congr {s t : State} {a n : Nat} (h : ∀ k, k < n → s.readByte (a + k) = t.readByte (a + k)) :
    s.readLE a n = t.readLE a n := by
  induction n generalizing a with
  | zero => rfl
  | succ n ih =>
    have h0 := h 0 (by omega)
    rw [State.readLE, State.readLE, ih fun k hk => by
      have := h (k + 1) (by omega)
      rwa [show a + (k + 1) = a + 1 + k by omega] at this]
    rw [Nat.add_zero] at h0; rw [h0]

end Sys2Proof.Machine
end

