-- ==== Sys2Proof/Laws/Modulator.lean ====
section
/-! SUPPORT. Lengths of a frame and what placing bits leaves (41_modulator R250, R255). -/

namespace Sys2Proof.Machine

theorem symbolRow_length (c : ModemConfig) (x : List C64) (h : c.ncp ≤ c.m) : (symbolRow c x).length = c.symLen := by
  simp [symbolRow, ModemConfig.symLen]; omega

theorem dataRows_length (c : ModemConfig) (dp : Bool) (b : List Bool) (n r : Nat) (p : List C64) : (dataRows c dp b n r p).length = n := by
  induction n generalizing r p with
  | zero => rfl
  | succ n ih => simp [dataRows, ih]

theorem frameSamples_length (c : ModemConfig) (dp : Bool) (b : List Bool) (h : c.ncp ≤ c.m) (hns : 1 ≤ c.ns) :
    (frameSamples c dp b).length = c.spf := by
  unfold frameSamples
  rw [List.length_flatMap]
  have : ∀ l : List (List C64), (l.map fun x => (symbolRow c x).length).sum = l.length * c.symLen := by
    intro l; induction l with
    | nil => simp
    | cons x xs ih => simp [symbolRow_length c _ h] at ih ⊢; ring
  rw [this]; simp [dataRows_length, ModemConfig.spf]; left; omega

/-- Rows of one length laid end to end, element by element. -/
theorem flatMap_row (f : List C64 → List C64) {L : Nat} (hf : ∀ x, (f x).length = L) (rows : List (List C64)) {r n : Nat}
    (hr : r < rows.length) (hn : n < L) : (rows.flatMap f).getD (r * L + n) Cx.zero = (f (rows.getD r [])).getD n Cx.zero := by
  induction rows generalizing r with
  | nil => simp at hr
  | cons x rows ih =>
    rw [List.flatMap_cons]
    cases r with
    | zero => rw [Nat.zero_mul, Nat.zero_add, List.getD_append _ _ _ _ (by rw [hf]; exact hn)]; rfl
    | succ r =>
      rw [Nat.add_mul, Nat.one_mul, List.getD_append_right _ _ _ _ (by rw [hf]; omega), hf,
        show r * L + L + n - L = r * L + n by omega, List.getD_cons_succ]
      exact ih (by simpa using hr)

/-- The frame is its rows on the wire, one after the other (41_modulator R250). -/
theorem frameSamples_get (c : ModemConfig) (dp : Bool) (b : List Bool) (h : c.ncp ≤ c.m) {r n : Nat} (hr : r < c.ns)
    (hn : n < c.symLen) : (frameSamples c dp b).getD (r * c.symLen + n) Cx.zero =
      (symbolRow c ((c.pilots :: dataRows c dp b (c.ns - 1) 1 c.pilots).getD r [])).getD n Cx.zero :=
  flatMap_row (symbolRow c) (fun x => symbolRow_length c x h) _ (by rw [List.length_cons, dataRows_length]; omega) hn

theorem txFilter_length (c : ModemConfig) (e : Bool) (h v : List C64) : (txFilter c e h v).length = v.length := by
  unfold txFilter; split <;> simp

theorem placeBits_length (b : List Bool) (pos : List Nat) (bits : List Bool) : (placeBits b pos bits).length = b.length := by
  unfold placeBits
  generalize List.zip pos bits = l
  induction l generalizing b with
  | nil => rfl
  | cons p l ih => simp [ih]

/-- Placed bits stand at their positions; every other bit stays (41_modulator R250). -/
theorem placeBits_get {pos : List Nat} {bits : List Bool} (b : List Bool) (hn : pos.Nodup) (hl : bits.length = pos.length) (hb : ∀ p ∈ pos, p < b.length) :
    (∀ k, k < pos.length → (placeBits b pos bits)[pos.getD k 0]? = bits[k]?) ∧
    (∀ p, p ∉ pos → (placeBits b pos bits)[p]? = b[p]?) := by
  induction pos generalizing b bits with
  | nil => simp [placeBits]
  | cons q pos ih =>
    cases bits with
    | nil => simp at hl
    | cons x bits =>
      have hst : placeBits b (q :: pos) (x :: bits) = placeBits (b.set q x) pos bits := rfl
      rw [hst]
      rw [List.nodup_cons] at hn
      obtain ⟨h1, h2⟩ := ih (bits := bits) (b.set q x) hn.2 (by simpa using hl) (fun p hp => by simpa using hb p (List.mem_cons_of_mem _ hp))
      constructor
      · intro k hk
        cases k with
        | zero =>
          simp only [List.getD_cons_zero]
          rw [h2 q hn.1, List.getElem?_set_self (hb q List.mem_cons_self)]; rfl
        | succ k =>
          simp only [List.getD_cons_succ]
          rw [h1 k (by simpa using hk)]; simp
      · intro p hp
        rw [List.mem_cons, not_or] at hp
        rw [h2 p hp.2, List.getElem?_set_ne (Ne.symm hp.1)]

end Sys2Proof.Machine
end

