-- ==== Sys2Proof/Laws/Operands.lean ====
section
/-! SUPPORT. Reading back what a command wrote: records, bits and binary32 fields (20_memory R123, R124). -/

namespace Sys2Proof.Machine

/-- A byte of an array of records of one length. -/
theorem flatMap_getD {α : Type} (l : List α) (f : α → List Byte) (L : Nat) (hf : ∀ x, (f x).length = L) (i j : Nat) (hj : j < L)
    (hi : i < l.length) : (l.flatMap f).getD (L * i + j) 0 = (f l[i]).getD j 0 := by
  induction l generalizing i with
  | nil => simp at hi
  | cons x xs ih =>
    rw [List.flatMap_cons]
    cases i with
    | zero => rw [List.getD_append _ _ _ _ (by rw [hf]; omega)]; simp
    | succ i =>
      rw [List.getD_append_right _ _ _ _ (by rw [hf, Nat.mul_succ]; omega), hf, show L * (i + 1) + j - L = L * i + j by rw [Nat.mul_succ]; omega]
      exact ih i (by simpa using hi)

/-- The length of an array of records of one length. -/
theorem flatMap_length {α : Type} (l : List α) (f : α → List Byte) (L : Nat) (hf : ∀ x, (f x).length = L) :
    (l.flatMap f).length = L * l.length := by
  induction l with
  | nil => simp
  | cons x xs ih => rw [List.flatMap_cons, List.length_append, ih, hf, List.length_cons]; ring

/-- A field of a record array that one write stored. -/
theorem readLE_records {α : Type} {s : State} (h : Memory.wf s.mem = true) {a L off n v i : Nat} {l : List α} {f : α → List Byte}
    (hf : ∀ x, (f x).length = L) (hi : i < l.length) (hon : off + n ≤ L)
    (hv : ∀ k, k < n → (f l[i]).getD (off + k) 0 = (bytesLE n v).getD k 0) :
    (s.writeBytes a (l.flatMap f)).readLE (a + (L * i + off)) n = v % 256 ^ n := by
  apply State.readLE_of_bytes
  intro k hk
  have hlen := flatMap_length l f L hf
  have : L * i + L ≤ L * l.length := by rw [← Nat.mul_succ]; exact Nat.mul_le_mul_left L hi
  rw [State.readByte_writeBytes h, if_pos (by rw [hlen]; omega), ← hv k hk,
    show a + (L * i + off) + k - a = L * i + (off + k) by omega]
  exact flatMap_getD l f L hf i (off + k) (by omega) hi

@[simp] theorem f32Bytes_length (x : F64) : (f32Bytes x).length = 4 := by simp [f32Bytes]

@[simp] theorem sampleBytes_length (u : C64) : (sampleBytes u).length = 8 := by simp [sampleBytes]

@[simp] theorem symbolBytes_length (z : C64) (a p : F64) : (symbolBytes z a p).length = 16 := by simp [symbolBytes]

theorem readF32_of_readLE {s : State} {a : Nat} {x : F32} (h : s.readLE a 4 = x.toNat % 256 ^ 4) : s.readF32 a = x := by
  unfold State.readF32; rw [h]
  have := x.isLt
  rw [Nat.mod_eq_of_lt (by omega)]; simp

/-- A byte depends on memory alone. -/
theorem readByte_mem {s t : State} (h : s.mem = t.mem) (h2 : s.porCount = t.porCount) (a : Nat) : s.readByte a = t.readByte a := by
  simp [State.readByte, State.unwritten, h, h2]

/-- A wider read depends on memory alone. -/
theorem readLE_mem {s t : State} (h : s.mem = t.mem) (h2 : s.porCount = t.porCount) (a n : Nat) : s.readLE a n = t.readLE a n := by
  apply State.readLE_congr; intro k _; simp [State.readByte, State.unwritten, h, h2]

/-- A bit element reads back as 0 or 1. -/
theorem writeBits_bit {s : State} (h : Memory.wf s.mem = true) {base : Nat} {bs : List Bool} {i : Nat} (hi : i < bs.length) :
    (s.writeBits base bs).readByte (base + i) = if bs.getD i false then 1 else 0 := by
  unfold State.writeBits
  rw [State.readByte_writeBytes h, if_pos (by simp; omega)]
  simp only [Nat.add_sub_cancel_left, List.getD_eq_getElem?_getD, List.getElem?_map, List.getElem?_eq_getElem hi, Option.map_some, Option.getD_some]
  rfl

/-- The length of a concatenation of lists of one length. -/
theorem flatMap_len {α β : Type} (l : List α) (f : α → List β) (L : Nat) (hf : ∀ x ∈ l, (f x).length = L) :
    (l.flatMap f).length = l.length * L := by
  induction l with
  | nil => simp
  | cons x xs ih =>
    rw [List.flatMap_cons, List.length_append, ih (fun y hy => hf y (List.mem_cons_of_mem _ hy)), hf x List.mem_cons_self, List.length_cons]; ring

theorem map_range_get {α : Type} (f : Nat → α) (n i : Nat) (h : i < n) : ((List.range n).map f)[i]? = some (f i) := by
  simp [h]

end Sys2Proof.Machine
end

