-- ==== Sys2Proof/Laws/PerInstr.lean ====
section
/-! SUPPORT. The family `Encodes`: the fields of a command's word (30_encoding R160, R163), one lemma per constructor. -/

namespace Sys2Proof.Laws.Encodes

/-- Bits 31:16 of the word of a well-formed command are 0, bits 7:0 are its opcode and bits 15:8 its immediate, and the
opcode is not 0 and has room in its byte. -/
def Statement (i : Instr) : Prop :=
  i.wellFormed = true → rsvField (encode i) = 0 ∧ opcField (encode i) = i.opc ∧ immField (encode i) = i.imm8 ∧
    1 ≤ i.opc ∧ i.opc < 0x100

theorem create : Statement .create := fun _ => by decide
theorem destroy : Statement .destroy := fun _ => by decide
theorem modulate : Statement .modulate := fun _ => by decide
theorem getNin : Statement .getNin := fun _ => by decide
theorem demodulate : Statement .demodulate := fun _ => by decide
theorem syncSearch : Statement .syncSearch := fun _ => by decide
theorem runSyncSm (src : EventSource) : Statement (.runSyncSm src) := fun _ => by cases src <;> decide
theorem setSyncPolicy (p : Policy) : Statement (.setSyncPolicy p) := fun _ => by cases p <;> decide
theorem setPhaseBw (b : PhaseBw) : Statement (.setPhaseBw b) := fun _ => by cases b <;> decide
theorem enableTiming (f : Bool) : Statement (.enableTiming f) := fun _ => by cases f <;> decide
theorem enableFreq (f : Bool) : Statement (.enableFreq f) := fun _ => by cases f <;> decide
theorem enablePhase (f : Bool) : Statement (.enablePhase f) := fun _ => by cases f <;> decide
theorem setDpsk (f : Bool) : Statement (.setDpsk f) := fun _ => by cases f <;> decide
theorem getStats : Statement .getStats := fun _ => by decide

theorem ldpcEncode (slot : BitVec 8) : Statement (.ldpcEncode slot) := fun _ => by
  have := slot.isLt
  simp only [rsvField, opcField, immField, encode, Instr.opc, Instr.imm8, BitVec.toNat_ofNat]
  omega

theorem ldpcDecode (slot : BitVec 8) : Statement (.ldpcDecode slot) := fun _ => by
  have := slot.isLt
  simp only [rsvField, opcField, immField, encode, Instr.opc, Instr.imm8, BitVec.toNat_ofNat]
  omega

theorem ilPush : Statement .ilPush := fun _ => by decide
theorem berReset : Statement .berReset := fun _ => by decide

end Sys2Proof.Laws.Encodes
end

