-- ==== Sys2Proof/Tests/Slice0.lean ====
section
/-! SUPPORT. Tests: the well-formedness smoke test, words written out from 30_encoding, single steps whose results are the
vectors of spec/95_test_vectors, and a witness for the hypotheses of every statement that has some. -/

open Sys2Proof Sys2Proof.Machine

namespace Sys2Proof.Tests

-- One proof at a time: each would otherwise take a thread and a large stack of its own.
set_option Elab.async false

/-! ## Well-formedness: the one check, the code slot (30_encoding R163) -/

theorem test_wf_encode_slot : (Instr.ldpcEncode 2).wellFormed = true ∧ (Instr.ldpcEncode 3).wellFormed = false := by decide
theorem test_wf_decode_slot : (Instr.ldpcDecode 2).wellFormed = true ∧ (Instr.ldpcDecode 255).wellFormed = false := by decide

/-! ## Words written out bit by bit: RSV (16 bits), IMM8 (8), OPC (8) of 30_encoding R160, R163, R168 -/

theorem test_dec_create : decode 0b0000000000000000_00000000_00000001#32 = .ok .create := by decide
theorem test_dec_destroy : decode 0b0000000000000000_00000000_00000010#32 = .ok .destroy := by decide
theorem test_dec_modulate : decode 0b0000000000000000_00000000_00000011#32 = .ok .modulate := by decide
theorem test_dec_getNin : decode 0b0000000000000000_00000000_00000100#32 = .ok .getNin := by decide
theorem test_dec_demodulate : decode 0b0000000000000000_00000000_00000101#32 = .ok .demodulate := by decide
theorem test_dec_syncSearch : decode 0b0000000000000000_00000000_00000110#32 = .ok .syncSearch := by decide
theorem test_dec_runSyncSm : decode 0b0000000000000000_00000001_00000111#32 = .ok (.runSyncSm .lastFrame) := by decide
theorem test_dec_policy : decode 0b0000000000000000_00000010_00001000#32 = .ok (.setSyncPolicy .manual) := by decide
theorem test_dec_bw : decode 0b0000000000000000_00000001_00001001#32 = .ok (.setPhaseBw .high) := by decide
theorem test_dec_timing : decode 0b0000000000000000_00000001_00001010#32 = .ok (.enableTiming true) := by decide
theorem test_dec_freq : decode 0b0000000000000000_00000000_00001011#32 = .ok (.enableFreq false) := by decide
theorem test_dec_phase : decode 0b0000000000000000_00000001_00001100#32 = .ok (.enablePhase true) := by decide
theorem test_dec_dpsk : decode 0b0000000000000000_00000001_00001101#32 = .ok (.setDpsk true) := by decide
theorem test_dec_getStats : decode 0b0000000000000000_00000000_00001110#32 = .ok .getStats := by decide
theorem test_dec_encode : decode 0b0000000000000000_00000010_00010000#32 = .ok (.ldpcEncode 2) := by decide
theorem test_dec_decode : decode 0b0000000000000000_00000001_00010001#32 = .ok (.ldpcDecode 1) := by decide
theorem test_dec_ilPush : decode 0b0000000000000000_00000000_00100000#32 = .ok .ilPush := by decide
theorem test_dec_berReset : decode 0b0000000000000000_00000000_00100001#32 = .ok .berReset := by decide

/-- Rejections of V40 (c, d, e, f, g, h, j of V8) and of V20d. -/
theorem test_dec_rejects :
    decode 0x00010001#32 = .error .reservedNonzero ∧ decode 0x00000000#32 = .error .unknownOpcode ∧
    decode 0x000000F0#32 = .error .unknownOpcode ∧ decode 0x0000000F#32 = .error .unknownOpcode ∧
    decode 0x00000101#32 = .error .illegalImm8 ∧ decode 0x00000308#32 = .error .illegalImm8 ∧
    decode 0x00000207#32 = .error .illegalImm8 ∧ decode 0x00000310#32 = .error .illegalImm8 := by decide

theorem test_dec_table_word : decodeTableWord 32 0x00000208 = some (.setSyncPolicy .manual) ∧
    decodeTableWord 32 0x00010001 = none := by decide
theorem test_dec_truncated : decodeBytes [1, 0, 0] = .error .truncated := by decide

/-! ## The V1 configuration (95_test_vectors, section 2) -/

/-- Store 32-bit words, as the host does. -/
def pokeWords (ws : List (Nat × Nat)) (s : State) : State :=
  ws.foldl (fun s w => s.writeBytes w.1 (bytesLE 4 w.2)) s

def cfgInts : List (Nat × Nat) :=
  [(0x010000, 2), (0x010004, 2), (0x010008, 2), (0x01000C, 4), (0x010010, 1), (0x010014, 2), (0x010018, 0),
    (0x01001C, 0), (0x010020, 2), (0x010024, 2), (0x010028, 1), (0x01002C, 0), (0x010030, 0), (0x010034, 0),
    (0x010038, 1), (0x01003C, 1), (0x010040, 1), (0x010044, 0)]

def cfgReals : List (Nat × Nat) :=
  [(0x010080, 0), (0x010084, 0x40BF4000), (0x010088, 0), (0x01008C, 0x3FE00000), (0x010090, 0),
    (0x010094, 0x3FE00000), (0x010098, 0), (0x01009C, 0x3FE00000), (0x0100A0, 0), (0x0100A4, 0x3FF00000),
    (0x0100A8, 0), (0x0100AC, 0x3FF00000), (0x0100B0, 0), (0x0100B4, 0x40340000), (0x0100B8, 0xA0B5ED8D),
    (0x0100BC, 0x3EB0C6F7)]

def cfgTables : List (Nat × Nat) :=
  [(0x010100, 1), (0x010104, 3), (0x010200, 0), (0x010204, 0x3FF00000), (0x010208, 0), (0x01020C, 0),
    (0x010210, 0), (0x010214, 0x3FF00000), (0x010218, 0), (0x01021C, 0), (0x010600, 0), (0x010700, 0), (0x010704, 1)]

/-- The machine after the host program `CFG_V1`. -/
def v1State : State := pokeWords (cfgInts ++ (cfgReals ++ cfgTables)) State.reset

/-- The configuration V1 as CREATE latches it. -/
def v1Cfg : ModemConfig where
  nc := 2
  ns := 2
  bps := 2
  m := 4
  ncp := 1
  nuwbits := 2
  ntxtbits := 0
  ilFrames := 0
  trialFrames := 2
  falloutFrames := 2
  uwThresh := 1
  ftWin := 0
  codeId := 0
  ilPassMin := 0
  ilTrialBlocks := 1
  ilFalloutBlocks := 1
  decType := 1
  txFiltLen := 0
  fs := 0x40BF400000000000
  timingMxThresh := 0x3FE0000000000000
  foffEstGain := 0x3FE0000000000000
  timingGain := 0x3FE0000000000000
  txScale := 0x3FF0000000000000
  msScale := 0x3FF0000000000000
  llrMax := 0x4034000000000000
  sigma2Min := 0x3EB0C6F7A0B5ED8D
  carrierBins := [1, 3]
  pilots := [⟨0x3FF0000000000000, 0⟩, ⟨0x3FF0000000000000, 0⟩]
  uwBits := [false, false]
  uwPos := [0, 1]
  txtPos := []
  txFilt := []
  testPattern := List.replicate (codeK (codeTable 0)) false
  ilPerm := []

/-- `s` with a modem just created. -/
def State.withModem (s : State) (m : Modem) : State := { s with modem := some m }

def v1Modem : Modem := Modem.fresh v1Cfg

/-- A property of the next state of an outcome. -/
def holds (o : Host.Outcome State Fault Refusal) (p : State → Bool) : Bool :=
  match o with
  | .next t => p t
  | .fault _ => false
  | .refused _ => false

/-- STATUS, ERRCODE and RES0. -/
def shows (status errcode res0 : Word) (t : State) : Bool :=
  decide (t.readReg 0x00C = status) && decide (t.readReg 0x010 = errcode) && decide (t.readReg 0x024 = res0)

/-- SYNC and the SYNC_CHANGE bit. -/
def showsSync (sync : Word) (change : Bool) (t : State) : Bool :=
  decide (t.readReg 0x038 = sync) && decide ((t.readReg 0x044).getLsbD 2 = change)

/-- V7, rows CREATE, GET_NIN and so on. -/
theorem test_create_v1 : holds (exec .create v1State) (fun t => shows 0x0A 0 10 t && showsSync 0x10 false t &&
    decide (t.readReg 0x034 = 10) && decide (t.readReg 0x03C = 0x0F)) = true := by decide +kernel

/-- 00_scope R10 on V1: Rs = 8000 / 4 and Tcp = 1 / 8000. -/
theorem test_derived_rates : v1Cfg.rs = 0x409F400000000000#64 ∧ v1Cfg.tcp = 0x3F20624DD2F1A9FC#64 := by decide +kernel

/-- A receiver of V1 in Synced. -/
def syncedModem : Modem := { v1Modem with syncState := .synced }

/-- 10_state R44 on a synced modem: CREATE leaves Searching and sets DONE alone. -/
theorem test_create_synced : holds (exec .create (State.withModem v1State syncedModem))
    (fun t => showsSync 0x10 false t && decide (t.readReg 0x044 = 0x1)) = true := by decide +kernel

/-- V40i: NC = 0. -/
theorem test_create_bad : holds (exec .create (pokeWords [(0x010000, 0)] v1State)) (shows 0x06 1 0) = true := by
  decide +kernel

theorem test_destroy : holds (exec .destroy (State.withModem State.reset v1Modem)) (shows 0x02 0 0) = true := by
  decide +kernel

/-- 40_control R205 on a synced modem: SYNC reads 0 and DONE alone is pending. -/
theorem test_destroy_synced : holds (exec .destroy (State.withModem State.reset syncedModem))
    (fun t => showsSync 0 false t && decide (t.readReg 0x044 = 0x1)) = true := by decide +kernel

/-- V40v. -/
theorem test_destroy_unset : holds (exec .destroy State.reset) (shows 0x02 0 0) = true := by decide

theorem test_getNin : holds (exec .getNin (State.withModem State.reset v1Modem)) (shows 0x0A 0 10) = true := by
  decide +kernel

/-- V40a. -/
theorem test_getNin_unset : holds (exec .getNin State.reset) (shows 0x06 4 0) = true := by decide

/-- V7, the setters. -/
theorem test_setPhaseBw : holds (exec (.setPhaseBw .low) (State.withModem State.reset v1Modem))
    (fun t => decide (t.readReg 0x03C = 0x0E)) = true := by decide +kernel
theorem test_enableTiming : holds (exec (.enableTiming false) (State.withModem State.reset v1Modem))
    (fun t => decide (t.readReg 0x03C = 0x0D)) = true := by decide +kernel
theorem test_enableFreq : holds (exec (.enableFreq false) (State.withModem State.reset v1Modem))
    (fun t => decide (t.readReg 0x03C = 0x0B)) = true := by decide +kernel
theorem test_enablePhase : holds (exec (.enablePhase false) (State.withModem State.reset v1Modem))
    (fun t => decide (t.readReg 0x03C = 0x07)) = true := by decide +kernel
theorem test_setDpsk : holds (exec (.setDpsk true) (State.withModem State.reset v1Modem))
    (fun t => decide (t.readReg 0x03C = 0x1F)) = true := by decide +kernel
theorem test_setPolicy : holds (exec (.setSyncPolicy .manual) (State.withModem State.reset v1Modem))
    (showsSync 0x20 false) = true := by decide +kernel
theorem test_getStats : holds (exec .getStats (State.withModem State.reset v1Modem))
    (fun t => shows 0x0A 0 0 t && decide (t.readReg 0x028 = 0)) = true := by decide +kernel

/-- V8e, last line: Synced under Manual, then Unsynced. -/
theorem test_setPolicy_unsynced : holds (exec (.setSyncPolicy .unsynced)
    (State.withModem State.reset { v1Modem with policy := .manual, syncState := .synced, good := 1 }))
    (showsSync 0 true) = true := by decide +kernel

/-- V8a step 2. -/
theorem test_runSyncSm : holds (exec (.runSyncSm .arg0)
    (State.withModem State.reset { v1Modem with candValid := true }))
    (fun t => shows 0x0A 0 1 t && showsSync 0x11 true t) = true := by decide +kernel

/-- V8a step 8: fall-out, RES1 = 1. -/
theorem test_runSyncSm_loss : holds (exec (.runSyncSm .arg0)
    { State.withModem State.reset { v1Modem with syncState := .synced, bad := 1 } with arg0 := 7 })
    (fun t => shows 0x0A 0 0 t && showsSync 0x10 true t && decide (t.readReg 0x028 = 1)) = true := by decide +kernel

/-- `a` of 95_test_vectors and its negative, as binary32. -/
def va : Nat := 0x3EB504F3
def vn : Nat := 0xBEB504F3

/-- Frame 0 of V2, the words of SAMPLE_OUT in order (a zero may carry either sign in the vector, so signs are dropped
where the value is zero). -/
def frame0 : List Nat :=
  [0, 0, 0x3F000000, 0, 0, 0, 0xBF000000, 0, 0, 0, 0, vn, 0, va, 0, va, 0, vn, 0, vn]

/-- A binary32 word with the sign of a zero dropped. -/
def plain (w : Word) : Nat := if w.toNat % 0x80000000 = 0 then 0 else w.toNat

/-- V2 frame 0: bits 0 0 1 0. -/
theorem test_modulate : holds (exec .modulate
    { ((State.withModem State.reset v1Modem).writeBytes 0x050000 [0, 0, 1, 0]) with arg0 := 4 })
    (fun t => shows 0x0A 0 10 t && decide ((List.range 20).map (fun i => plain (t.readF32 (0x030000 + 4 * i))) = frame0))
    = true := by decide +kernel

/-- V2-CV. -/
theorem test_modulate_count : holds (exec .modulate { State.withModem State.reset v1Modem with arg0 := 3 })
    (shows 0x0E 2 0) = true := by decide +kernel

/-- The words of SAMPLE_IN. -/
def pokeSamples (ws : List Nat) (s : State) : State := s.writeBytes 0x020000 (ws.flatMap (bytesLE 4))

/-- Frame 1 of V2. -/
def frame1 : List Nat :=
  [0, 0, 0x3F000000, 0, 0, 0, 0xBF000000, 0, 0, 0, va, 0, va, 0, vn, 0, vn, 0, va, 0]

/-- The receiver of V4 after DEMODULATE #1: estimators off, frame 0 in the buffer. -/
def v4Modem : Modem :=
  { v1Modem with
    timingEn := false
    foffEn := false
    phaseEn := false
    tAbs := 10
    rx := List.replicate 20 Cx.zero ++ (List.range 10).map fun i =>
      ⟨Fp.ofF32 (BitVec.ofNat 32 (frame0.getD (2 * i) 0)), Fp.ofF32 (BitVec.ofNat 32 (frame0.getD (2 * i + 1) 0))⟩ }

/-- V4 DEMODULATE #2: frame 0 comes out. -/
theorem test_demodulate : holds (exec .demodulate
    { pokeSamples frame1 (State.withModem State.reset v4Modem) with arg0 := 10 })
    (fun t => decide (t.readReg 0x024 = 10) && decide (t.readReg 0x028 = 1) && decide (t.readReg 0x054 = 1) &&
      decide ((List.range 4).map (fun i => t.readByte (0x060000 + i)) = [0, 0, 1, 0])) = true := by decide +kernel

/-- V3 DEMODULATE #1: nothing comes out. -/
theorem test_demodulate_first : holds (exec .demodulate
    { pokeSamples frame0 (State.withModem State.reset v1Modem) with arg0 := 10 })
    (fun t => shows 0x0A 0 10 t && decide (t.readReg 0x028 = 0)) = true := by decide +kernel

/-- V5. -/
theorem test_syncSearch : holds (exec .syncSearch
    { pokeSamples frame0 (State.withModem State.reset v1Modem) with arg0 := 10 })
    (fun t => shows 0x2A 0 1 t && decide (t.readReg 0x028 = 4) && decide (t.readReg 0x02C = 0x3F800000) &&
      decide (t.readReg 0x034 = 10)) = true := by decide +kernel

/-- V5b. -/
theorem test_syncSearch_fails : holds (exec .syncSearch
    { pokeSamples (List.replicate 20 0) (State.withModem State.reset v1Modem) with arg0 := 10 })
    (fun t => shows 0x0A 0 0 t && decide (t.readReg 0x028 = 0) && decide (t.readReg 0x02C = 0)) = true := by
  decide +kernel

/-! ## The toy code T (95_test_vectors, section 2), at the functions the LDPC commands run -/

def toyCode : LdpcCode where
  n := 6
  m := 3
  maxRowWeight := 4
  maxColWeight := 2
  hRows := [[1, 2, 4, 0], [2, 3, 4, 5], [1, 3, 5, 6]]
  hCols := [[1, 3], [1, 2], [2, 3], [1, 2], [2, 3], [3, 0]]
  maxIter := 10
  pad := []

theorem test_toy_wf : codeWf toyCode = true := by decide

/-- V20a and V20b. -/
theorem test_ldpcEncode : encodeParity toyCode [true, false, true] = [true, false, false] ∧
    encodeParity toyCode [false, true, true] = [true, true, false] := by decide

/-- The command checks its slot even where the decoder was not asked (log 26). -/
theorem test_ldpcEncode_slot : holds (exec (.ldpcEncode 3) State.reset) (shows 0x06 3 0) = true := by decide

/-- V21d: one wrong hard decision corrected by min-sum. -/
theorem test_ldpcDecode : bpDecode toyCode ⟨true, 0x4034000000000000, 0x3FF0000000000000⟩
    [0xC010000000000000, 0xBFF0000000000000, 0xC010000000000000, 0xC010000000000000, 0x4010000000000000,
      0x4010000000000000] 10 = ⟨[true, false, true, true, false, false], 1, 3⟩ := by decide +kernel

/-- V21g: no codeword near the input. -/
theorem test_ldpcDecode_nonconv : bpDecode toyCode ⟨true, 0x4034000000000000, 0x3FF0000000000000⟩
    [0xC010000000000000, 0xC010000000000000, 0xC010000000000000, 0xC010000000000000, 0x4010000000000000,
      0xC010000000000000] 10 = ⟨[true, true, true, true, false, true], 10, 0⟩ := by decide +kernel

/-- V40t and V31: IL_PUSH without an interleaver, and gated. -/
theorem test_ilPush_off : holds (exec .ilPush (State.withModem State.reset v1Modem)) (shows 0x0E 2 0) = true := by
  decide +kernel
theorem test_ilPush_gated : holds (exec .ilPush
    (State.withModem State.reset { v1Modem with cfg := { v1Cfg with ilFrames := 2 } })) (shows 0x0A 0 0) = true := by
  decide +kernel

/-- V33. -/
theorem test_berReset : holds (exec .berReset (State.withModem State.reset { v1Modem with berBits := 6, berErrs := 4 }))
    (fun t => decide (t.readReg 0x064 = 0) && decide (t.readReg 0x068 = 0)) = true := by decide +kernel

/-! ## The host port (V41, V42) -/

/-- One host access. -/
def hostOp (op : HostOp) (s : State) : State := { s with turns := [.host op] }

/-- V41a, V41b, V41c. -/
theorem test_busError :
    holds (step (hostOp (.read 4 0x0C0000) State.reset)) (fun t => decide (t.faultReason = some .busError)) = true ∧
    holds (step (hostOp (.read 2 0x00C) State.reset)) (fun t => decide (t.faultReason = some .busError)) = true ∧
    holds (step (hostOp (.read 4 0x020002) State.reset)) (fun t => decide (t.faultReason = some .busError)) = true := by
  decide +kernel

/-- V41d, V41e. -/
theorem test_no_fault :
    holds (step (hostOp (.read 4 0x078) State.reset)) (fun t => decide (t.busData = 0) && !t.faulted) = true ∧
    holds (step (hostOp (.read 1 0x060001) State.reset)) (fun t => !t.faulted) = true := by decide +kernel

/-- V41f. -/
theorem test_hostRace :
    holds (step (hostOp (.write 4 0x014 0) { State.reset with busy := true, cmd := 1 }))
      (fun t => decide (t.faultReason = some .hostRace)) = true ∧
    holds (step (hostOp (.read 4 0x00C) { State.reset with busy := true, cmd := 1 }))
      (fun t => decide (t.busData = 1)) = true := by decide +kernel

/-- V42: IRQ_PEND is write 1 to clear, and the line follows the enabled bits. -/
theorem test_irq :
    holds (step (hostOp (.write 4 0x044 1) { State.reset with irqPend := 3, irqEn := 3 }))
      (fun t => decide (t.irqPend = 2) && t.irqLine) = true := by decide +kernel

/-- A step runs the command of a table word first. -/
theorem test_fetch_word : holds (step (State.reset.withFetchWord 32 0x00000004)) (shows 0x06 4 0) = true := by
  decide +kernel

/-! ## Witnesses: states and operands that meet the hypotheses of the statements, clause by clause -/

/-- A small valid configuration with a unique word, text and one payload symbol: SPF = 4, NDS = 3, BPF = 6. -/
def smallCfg : ModemConfig :=
  { v1Cfg with
    nc := 1
    ns := 4
    m := 1
    ncp := 0
    ntxtbits := 2
    carrierBins := [0]
    pilots := [⟨0x3FF0000000000000, 0⟩]
    uwBits := [true, false]
    txtPos := [4, 5] }

def smallModem : Modem := Modem.fresh smallCfg

theorem smallCfg_valid : smallCfg.valid = true := by decide +kernel

theorem smallCfg_shaped : smallCfg.Shaped where
  bins := rfl
  pilots := rfl
  uwBits := rfl
  uwPos := rfl
  txtPos := rfl
  txFilt := rfl
  testPattern := List.length_replicate

theorem smallModem_inv : smallModem.Inv := fresh_inv smallCfg_valid smallCfg_shaped

/-- A configured machine. -/
def configured (m : Modem) : State := State.withModem State.reset m

/-- A machine with a command accepted. -/
def pending (w : Word) : State := { State.reset with busy := true, cmd := w, turns := [.core] }

theorem witness_DecodeReadsBackEveryEncoding :
    (Instr.ldpcDecode 2).wellFormed = true ∧ (Instr.setSyncPolicy .manual).wellFormed = true := by decide

theorem witness_AcceptedWordsAreEncodings :
    decode 0x00000210#32 = .ok (.ldpcEncode 2) ∧ decode 0x00000021#32 = .ok .berReset := by decide

theorem witness_IllegalWordsRaiseIllegalCommand :
    ((pending 0x00010001).turns = [.core] ∧ (pending 0x00010001).busy = true ∧ (pending 0x00010001).faulted = false ∧
      Spec.rsv (pending 0x00010001).cmd ≠ 0) ∧
    Spec.imm8 (pending 0x0000000F).cmd ∉ Spec.legalImm8 (Spec.opc (pending 0x0000000F).cmd) ∧
    Spec.imm8 (pending 0x00000308).cmd ∉ Spec.legalImm8 (Spec.opc (pending 0x00000308).cmd) ∧
    Spec.imm8 (pending 0x00000207).cmd ∉ Spec.legalImm8 (Spec.opc (pending 0x00000207).cmd) ∧
    Spec.imm8 (pending 0x00000101).cmd ∉ Spec.legalImm8 (Spec.opc (pending 0x00000101).cmd) ∧
    (Spec.rsv 0x00000210#32 = 0 ∧ Spec.imm8 0x00000210#32 ∈ Spec.legalImm8 (Spec.opc 0x00000210#32)) := by decide

theorem witness_StepRunsTheAcceptedCommand :
    (pending 4).busy = true ∧ (pending 4).faulted = false ∧ decode (pending 4).cmd = .ok .getNin ∧
    (pending 4).turns = .core :: [] ∧ ({ pending 4 with turns := [] } : State).turns = [] := by decide

/-- The machine with NC = 0 in its CFG block. -/
def noCarriers : State := pokeWords [(0x010000, 0)] v1State

theorem noCarriers_invalid : noCarriers.readCfg.valid = false := by decide +kernel

theorem witness_ErrorsChangeNothingElse :
    (∃ t, exec .getNin State.reset = .next t ∧ t.err = true) ∧ (∃ t, exec .create noCarriers = .next t ∧ t.err = true) :=
  ⟨⟨_, rfl, rfl⟩, ⟨_, rfl, by simp [State.create, noCarriers_invalid]⟩⟩

theorem witness_UnconfiguredCommandsRaiseNotConfigured :
    (Instr.ldpcDecode 2).wellFormed = true ∧ Spec.needsConfigured (.ldpcDecode 2) = true ∧
    Spec.needsConfigured (.runSyncSm .lastFrame) = true ∧ State.reset.modem = none := ⟨rfl, rfl, rfl, rfl⟩

/-- A modem with a candidate. -/
def candidate : Modem := { smallModem with candValid := true }

theorem witness_OnlyTwoCommandsWriteTheSyncState :
    (∃ t m', exec (.runSyncSm .arg0) (configured candidate) = .next t ∧ t.modem = some m' ∧
      (Instr.runSyncSm .arg0) ≠ .create ∧ m'.syncState ≠ candidate.syncState) ∧
    (∃ t, State.hostStep (.read 4 0) State.reset = .next t) :=
  ⟨⟨_, _, rfl, rfl, by decide, by decide⟩, ⟨_, rfl⟩⟩

theorem witness_ConfigurationStaysLatched :
    (∃ t m', exec .getNin (configured smallModem) = .next t ∧ Instr.getNin ≠ .create ∧ t.modem = some m') ∧
    (∃ t, State.hostStep (.write 4 0x010000 5) (configured smallModem) = .next t) :=
  ⟨⟨_, _, rfl, by decide, rfl⟩, ⟨_, rfl⟩⟩

/-- A CFG block whose counts pass every limit of its tables. -/
def wide : State := pokeWords
  [(0x010000, 100), (0x010004, 300), (0x010014, 300), (0x010018, 300), (0x01001C, 1), (0x010030, 0), (0x010044, 200)]
  State.reset

theorem witness_CreateReadsTheCfgBlock :
    63 < wide.readCfg.nc ∧ 255 < wide.readCfg.nuwbits ∧ 255 < wide.readCfg.ntxtbits ∧ 127 < wide.readCfg.txFiltLen ∧
    14143 < wide.readCfg.ilFrames * wide.readCfg.npay ∧
    111 < (codeTable wide.readCfg.codeId).n - (codeTable wide.readCfg.codeId).m := by
  have h : wide.readCfg.codeId = 0 := by decide +kernel
  have hc := (codeTable_cases 0).2 rfl
  refine ⟨by decide +kernel, by decide +kernel, by decide +kernel, by decide +kernel, by decide +kernel, ?_⟩
  rw [h, hc.1, hc.2]
  decide

theorem witness_CreateInstallsAValidConfiguration :
    v1State.readCfg.valid = true ∧ (State.withModem v1State syncedModem).readCfg.valid = true ∧
    (∃ t, exec .create v1State = .next t) ∧ noCarriers.readCfg.valid = false :=
  ⟨by decide +kernel, by decide +kernel, ⟨_, rfl⟩, noCarriers_invalid⟩

theorem witness_DestroyUnsetsTheModem :
    (configured smallModem).configured = true ∧ (configured syncedModem).configured = true ∧
    State.reset.configured = false ∧ ∃ t, exec .destroy (configured smallModem) = .next t := ⟨rfl, rfl, rfl, _, rfl⟩

/-- The one hypothesis of the statements about a configured machine. -/
theorem witness_GetNinAndGetStatsOnlyReport : (configured smallModem).modem = some smallModem := rfl
theorem witness_SettersWriteTheirModeField : (configured smallModem).modem = some smallModem := rfl
theorem witness_BerResetZeroesTheCounters : (configured smallModem).modem = some smallModem := rfl
theorem witness_RunSyncSmReportsTheTransition : (configured candidate).modem = some candidate := rfl

theorem witness_SetSyncPolicyEntersSearchingForUnsynced :
    (configured smallModem).modem = some smallModem ∧ Policy.auto ≠ .unsynced := ⟨rfl, by decide⟩

/-- Arguments on a configured machine. -/
def withArgs (a0 a1 a2 : Word) (s : State) : State := { s with arg0 := a0, arg1 := a1, arg2 := a2 }

theorem witness_ModulateSendsAFrame :
    ((withArgs 5 0 0 (configured smallModem)).arg0.toNat ≠ smallCfg.bpf) ∧
    ((withArgs 6 1 0 (configured smallModem)).arg1.toNat ≠ 0 ∧
      (withArgs 6 1 0 (configured smallModem)).arg1.toNat ≠ smallCfg.ntxtbits) ∧
    (Memory.wf (withArgs 6 0 0 (configured smallModem)).mem = true ∧ smallCfg.valid = true ∧
      (withArgs 6 0 0 (configured smallModem)).arg0.toNat = smallCfg.bpf ∧
      (withArgs 6 0 0 (configured smallModem)).arg1.toNat = 0) ∧
    (withArgs 6 2 0 (configured smallModem)).arg1.toNat = smallCfg.ntxtbits :=
  ⟨by decide, by decide, ⟨rfl, smallCfg_valid, by decide, by decide⟩, by decide⟩

theorem witness_UniqueWordAndTextAreForced :
    smallCfg.valid = true ∧ smallCfg.Shaped ∧ (List.replicate 6 false).length = smallCfg.bpf ∧
    ([true, true] : List Bool).length = smallCfg.ntxtbits ∧ 1 < smallCfg.nuwbits ∧ 1 < smallCfg.ntxtbits ∧
    2 ∉ smallCfg.uwPos ∧ 2 ∉ smallCfg.txtPos :=
  ⟨smallCfg_valid, smallCfg_shaped, by decide, by decide, by decide, by decide, by decide, by decide⟩

theorem witness_DataRowsCarryTheMappedBits :
    (1 ≤ 3 ∧ 3 < smallCfg.ns ∧ 0 < smallCfg.nc ∧ smallCfg.pilots.length = smallCfg.nc) ∧
    0 < v1Cfg.ns ∧ 1 ≤ v1Cfg.m ∧ v1Cfg.ncp ≤ v1Cfg.m ∧ 4 < v1Cfg.m + v1Cfg.ncp := by decide

theorem witness_SymbolRowIsThePrefixedInverseTransform :
    (1 ≤ v1Cfg.m ∧ v1Cfg.ncp ≤ v1Cfg.m ∧ v1Cfg.pilots.length = v1Cfg.carrierBins.length ∧
      4 < v1Cfg.m + v1Cfg.ncp) ∧
    (4 % v1Cfg.m = 0 ∧ 5 % v1Cfg.m ≠ 0 ∧ 4 * (5 % v1Cfg.m) = v1Cfg.m ∧ 2 * (6 % v1Cfg.m) = v1Cfg.m ∧
      4 * (7 % v1Cfg.m) = 3 * v1Cfg.m) ∧
    (let c : ModemConfig := { v1Cfg with m := 8 }
     c.ncp ≤ c.m ∧ 1 % c.m ≠ 0 ∧ 4 * (1 % c.m) ≠ c.m ∧ 2 * (1 % c.m) ≠ c.m ∧ 4 * (1 % c.m) ≠ 3 * c.m) := by decide

theorem witness_TransmitFilterFollowsTheStream :
    (List.replicate 127 Cx.zero).length = 127 ∧ ({ smallCfg with txFiltLen := 128 } : ModemConfig).txFiltLen ≤ 128 ∧
    1 ≤ ({ smallCfg with txFiltLen := 128 } : ModemConfig).txFiltLen ∧ smallCfg.txFiltLen = 0 ∧ 126 < 127 :=
  ⟨List.length_replicate, by decide, by decide, rfl, by decide⟩

/-- Four input samples of value 1, on a configured machine. -/
def ones (m : Modem) : State :=
  withArgs 4 0 0 (pokeSamples [0x3F800000, 0, 0x3F800000, 0, 0x3F800000, 0, 0x3F800000, 0] (configured m))

/-- Four zero input samples. -/
def zeros (m : Modem) : State := withArgs 4 0 0 (pokeSamples [0, 0, 0, 0, 0, 0, 0, 0] (configured m))

/-- Four samples whose last real part is infinite. -/
def infinite (m : Modem) : State := withArgs 4 0 0 (pokeSamples [0, 0, 0, 0, 0, 0, 0x7F800000, 0] (configured m))

theorem ones_finite : Spec.InputFinite (ones smallModem) smallModem.nin := by
  unfold Spec.InputFinite; decide +kernel

theorem zeros_finite : Spec.InputFinite (zeros smallModem) smallModem.nin := by
  unfold Spec.InputFinite; decide +kernel

theorem witness_StreamCommandsCheckTheirInput :
    (configured smallModem).modem = some smallModem ∧ (withArgs 3 0 0 (configured smallModem)).arg0.toNat ≠ smallModem.nin ∧
    ¬ Spec.InputFinite (infinite smallModem) smallModem.nin :=
  ⟨rfl, by decide, fun h => absurd (h 3 (by decide)).1 (by decide +kernel)⟩

theorem witness_AppendedSamplesHaveTheirIndex :
    smallModem.rx.length = smallCfg.rxbufLen ∧ (List.replicate 12 Cx.zero).length ≤ smallCfg.rxbufLen ∧
    11 < (List.replicate 12 Cx.zero).length ∧
    (((smallModem.append (List.replicate 4 Cx.zero)).tAbs : Int) - smallCfg.rxbufLen ≤ -8 ∧ (-8 : Int) < smallModem.tAbs) := by
  decide

theorem witness_DemodulateWithoutAFrame :
    (ones smallModem).modem = some smallModem ∧ (ones smallModem).arg0.toNat = smallModem.nin ∧
    Spec.InputFinite (ones smallModem) smallModem.nin ∧
    (((smallModem.append (Spec.input (ones smallModem) 4)).tAbs : Int) - smallModem.frameStart <
      (smallCfg.spf : Int) + smallCfg.lookahead) :=
  ⟨rfl, by decide, ones_finite, by decide⟩

/-- The receiver one frame on: the next DEMODULATE emits. -/
def ready : Modem := { smallModem with tAbs := 4 }

theorem ready_inv : ready.Inv := { smallModem_inv with stream := .inr (by decide) }

theorem witness_DemodulateEmitsAFrame :
    (ones ready).modem = some ready ∧ Memory.wf (ones ready).mem = true ∧ ready.cfg.valid = true ∧
    (ones ready).arg0.toNat = ready.nin ∧ Spec.InputFinite (ones ready) ready.nin ∧
    ((smallCfg.spf : Int) + smallCfg.lookahead ≤
      ((ready.append (Spec.input (ones ready) 4)).tAbs : Int) - ready.frameStart) ∧ 2 < smallCfg.nds ∧ 5 < smallCfg.bpf :=
  ⟨rfl, by decide, smallCfg_valid, by decide, by unfold Spec.InputFinite; decide +kernel, by decide, by decide, by decide⟩

/-- The offset fine timing picks without a window is 0; what the drift then comes to. -/
def drifted (d : F64) : F64 := Fp.add d (Fp.mul smallCfg.timingGain (Fp.ofInt 0))

/-- The pilot power of the next frame of a receiver. -/
def pilotPowerOf (m : Modem) : F64 :=
  Fp.mul (Fp.div Fp.one (Fp.ofNat m.cfg.nc))
    (Fp.sum ((List.range m.cfg.nc).map fun k => Cx.normSq ((Spec.pilotRow m m.cfg.ncp).getD k Cx.zero)))

theorem witness_AnEmissionAdvancesTheModem :
    (({ ready with timingEn := false } : Modem).timingEn = false ∧
      ({ ready with foffEn := false } : Modem).foffEn = false) ∧
    (ready.timingEn = true ∧ ready.foffEn = true ∧ ready.cfg.valid = true ∧ ready.cfg.Shaped) ∧
    (Spec.TriedBefore 0 (-1) ∧ Spec.TriedBefore (-1) 1 ∧ ¬ Spec.TriedBefore 1 (-1)) ∧
    Fp.le 0x3FF0000000000000#64 (drifted 0x3FF0000000000000#64) = true ∧
    (Fp.le 0x3FF0000000000000#64 (drifted 0xBFF0000000000000#64) = false ∧
      Fp.le (drifted 0xBFF0000000000000#64) 0xBFF0000000000000#64 = true) ∧
    (Fp.le 0x3FF0000000000000#64 (drifted 0x3FE0000000000000#64) = false ∧
      Fp.le (drifted 0x3FE0000000000000#64) 0xBFF0000000000000#64 = false) ∧
    Fp.isZero (pilotPowerOf { ready.append (Spec.input (ones ready) 4) with frameStart := 4 }) = false ∧
    Fp.isZero (pilotPowerOf (ready.append (Spec.input (zeros ready) 4))) = true :=
  ⟨⟨rfl, rfl⟩, ⟨rfl, rfl, smallCfg_valid, smallCfg_shaped⟩, by unfold Spec.TriedBefore; decide, by decide +kernel,
    by decide +kernel, by decide +kernel, by decide +kernel, by decide +kernel⟩

theorem witness_HardBitsAreAxisSigns : ready.cfg.valid = true ∧ ready.cfg.Shaped ∧ 2 < ready.cfg.nds :=
  ⟨smallCfg_valid, smallCfg_shaped, by decide⟩

theorem witness_ChannelWindowFollowsTheBandwidth :
    1 < v1Modem.cfg.nc ∧ v1Modem.phaseBw = .high ∧ ({ v1Modem with phaseBw := .low } : Modem).phaseBw = .low ∧
    v1Modem.prevValid = false ∧ ({ v1Modem with prevValid := true } : Modem).prevValid = true := by decide

theorem witness_SymbolCorrectionFollowsTheMode :
    smallModem.dpsk = false ∧ smallModem.phaseEn = true ∧ ({ smallModem with phaseEn := false } : Modem).phaseEn = false ∧
    ({ smallModem with dpsk := true } : Modem).dpsk = true ∧ Fp.lt Fp.zero Fp.one = true ∧
    Fp.lt Fp.zero Fp.zero = false ∧ (ready.cfg.valid = true ∧ ready.cfg.Shaped ∧ 2 < ready.cfg.nds) :=
  ⟨rfl, rfl, rfl, rfl, by decide, by decide, smallCfg_valid, smallCfg_shaped, by decide⟩

theorem witness_NinStaysWithinOneSample :
    (∃ t, step (configured smallModem) = .next t) ∧
    (∀ m, (configured smallModem).modem = some m →
      (m.nin + 1 = m.cfg.spf ∨ m.nin = m.cfg.spf ∨ m.nin = m.cfg.spf + 1) ∧ 1 ≤ m.cfg.spf) := by
  refine ⟨⟨_, rfl⟩, fun m h => ?_⟩
  have h' : smallModem = m := Option.some.inj h
  subst h'
  decide

/-- The same receiver with a timing window of one sample on each side. -/
def windowed : Modem := { Modem.fresh { smallCfg with ftWin := 1 } with tAbs := 4 }

theorem windowed_inv : windowed.Inv :=
  { fresh_inv (c := { smallCfg with ftWin := 1 }) (by decide +kernel)
      ⟨rfl, rfl, rfl, rfl, rfl, rfl, List.length_replicate⟩ with
    stream := .inr (by decide) }

theorem witness_EmissionReadsOnlyBufferedSamples :
    ready.Inv ∧ (List.replicate 4 Cx.zero).length = ready.nin ∧ (ready.append (List.replicate 4 Cx.zero)).emits = true ∧
    (ready.frameStart ≤ 4 ∧ (4 : Int) < ready.frameStart + smallCfg.spf + smallCfg.lookahead) ∧
    (windowed.Inv ∧ (List.replicate 4 Cx.zero).length = windowed.nin ∧
      (windowed.append (List.replicate 4 Cx.zero)).emits = true ∧
      (-1) ∈ 0 :: fineOffsets windowed.cfg.ftWin ∧ 1 ∈ 0 :: fineOffsets windowed.cfg.ftWin ∧
      (0 : Int) < windowed.cfg.symLen) :=
  ⟨ready_inv, by decide, by decide, by decide, windowed_inv, by decide, by decide, by decide, by decide, by decide⟩

theorem witness_SearchPicksTheEarliestBest : 1 ≤ smallModem.cfg.spf ∧ (0 : Int) ≤ 3 ∧ (3 : Int) < smallModem.cfg.spf ∧
    smallModem.cfg.ncp ≤ smallModem.cfg.m := by
  decide

theorem witness_SyncSearchLatchesOrRealigns :
    ((ones smallModem).modem = some smallModem ∧ (ones smallModem).arg0.toNat = smallModem.nin ∧
      Spec.InputFinite (ones smallModem) smallModem.nin ∧
      Fp.lt smallCfg.timingMxThresh (smallModem.append (Spec.input (ones smallModem) 4)).searchBest.2 = true) ∧
    ((zeros smallModem).modem = some smallModem ∧ (zeros smallModem).arg0.toNat = smallModem.nin ∧
      Spec.InputFinite (zeros smallModem) smallModem.nin ∧
      Fp.lt smallCfg.timingMxThresh (smallModem.append (Spec.input (zeros smallModem) 4)).searchBest.2 = false) :=
  ⟨⟨rfl, by decide, ones_finite, by decide +kernel⟩, ⟨rfl, by decide, zeros_finite, by decide +kernel⟩⟩

/-- The twelve rows, each with the values nearest to its neighbours: UW_THRESH = 1, TRIAL_FRAMES = FALLOUT_FRAMES = 2. -/
theorem witness_SyncTransitionsFollowTheTable :
    ({ smallModem with policy := .unsynced } : Modem).policy = .unsynced ∧
    (candidate.policy ≠ .unsynced ∧ candidate.syncState = .searching ∧ candidate.candValid = true) ∧
    smallModem.candValid = false ∧
    (let m : Modem := { smallModem with syncState := .trial, good := 1 }
     m.policy ≠ .unsynced ∧ m.syncState = .trial ∧ 0 < m.cfg.uwThresh ∧ m.good + 1 ≥ m.cfg.trialFrames ∧
      ¬ 1 < m.cfg.uwThresh) ∧
    (let m : Modem := { smallModem with syncState := .trial, good := 0 }
     0 < m.cfg.uwThresh ∧ m.good + 1 < m.cfg.trialFrames) ∧
    (let m : Modem := { smallModem with syncState := .synced, bad := 1 }
     m.policy = .auto ∧ m.syncState = .synced ∧ ¬ 1 < m.cfg.uwThresh ∧ m.bad + 1 ≥ m.cfg.falloutFrames) ∧
    (let m : Modem := { smallModem with syncState := .synced, bad := 0 }
     ¬ 1 < m.cfg.uwThresh ∧ m.bad + 1 < m.cfg.falloutFrames) ∧
    ({ smallModem with syncState := .synced, policy := .manual } : Modem).policy = .manual := by decide

theorem witness_LossOfSyncNeedsConsecutiveBadFrames :
    let m : Modem := { smallModem with syncState := .synced }
    m.syncState = .synced ∧ m.bad = 0 ∧ 1 ≤ m.cfg.falloutFrames ∧ (∀ e ∈ [1, 7], ¬ e < m.cfg.uwThresh) ∧
    m.policy = .auto ∧ ([7] : List Nat).length < m.cfg.falloutFrames ∧ ([1, 7] : List Nat).length = m.cfg.falloutFrames ∧
    ({ m with policy := .manual } : Modem).policy = .manual := by decide

theorem witness_AcquisitionTakesTrialFrames :
    candidate.policy ≠ .unsynced ∧ candidate.syncState = .searching ∧ candidate.candValid = true ∧
    1 ≤ candidate.cfg.trialFrames ∧ (∀ e ∈ [0, 0], e < candidate.cfg.uwThresh) ∧
    ([0] : List Nat).length < candidate.cfg.trialFrames ∧ ([0, 0] : List Nat).length = candidate.cfg.trialFrames := by
  decide

theorem witness_CodeTablesMeetTheirConstraints :
    (111 < (codeTable 0).m ∧ 223 < (codeTable 0).n) ∧
    Spec.CodeConstraints stockCode ∧ stockCode.n = 224 ∧ stockCode.m = 112 := by
  have h := (codeTable_cases 0).2 rfl
  rw [h.1, h.2]
  exact ⟨by decide, (codeWf_iff _).1 stockCode_wf, rfl, rfl⟩

/-- All-zero bits satisfy every check. -/
theorem zero_codeword (c : LdpcCode) (n : Nat) : passCount c (List.replicate n false) = c.m := by
  rw [passCount_iff]
  intro m _
  have h : ∀ l : List Nat, xorBits (l.map fun v => (List.replicate n false).getD v false) = false := by
    intro l
    induction l with
    | nil => rfl
    | cons v l ih =>
      rw [List.map_cons, xorBits_cons, ih, List.getD_eq_getElem?_getD, List.getElem?_replicate]
      split <;> rfl
  unfold checkHolds
  rw [h]
  rfl

theorem witness_LdpcEncodeCompletesACodeword :
    (2#8).toNat < 3 ∧ Memory.wf (configured smallModem).mem = true ∧ 0 < (codeTable 0).m ∧
    (let s := State.reset.writeBytes 0x050000 (List.replicate 112 0#8)
     Memory.wf s.mem = true ∧ (List.replicate (codeTable 0).m false).length = (codeTable 0).m ∧
      passCount (codeTable 0) (Spec.bitsAt s 0x050000 ((codeTable 0).n - (codeTable 0).m) ++
        List.replicate (codeTable 0).m false) = (codeTable 0).m) := by
  have h := (codeTable_cases 0).2 rfl
  refine ⟨by decide, rfl, by rw [h.2]; decide, Memory.setBytes_wf (l := []) rfl, List.length_replicate, ?_⟩
  have hz : Spec.bitsAt (State.reset.writeBytes 0x050000 (List.replicate 112 0#8)) 0x050000
      ((codeTable 0).n - (codeTable 0).m) = List.replicate 112 false := by
    rw [h.1, h.2]
    apply List.ext_getElem (by simp [Spec.bitsAt])
    intro i h1 _
    have hi : i < 112 := by simpa [Spec.bitsAt] using h1
    simp only [Spec.bitsAt, List.getElem_map, List.getElem_range]
    rw [State.readByte_writeBytes (s := State.reset) rfl, List.length_replicate, if_pos (by omega),
      List.getD_eq_getElem?_getD, List.getElem?_replicate, List.getElem_replicate, if_pos (by omega)]
    rfl
  rw [hz, List.replicate_append_replicate]
  exact zero_codeword _ _

/-- The bytes of 224 LLRs of value 1.0. -/
def llrBytes : List Byte := (List.replicate 224 ()).flatMap fun _ => bytesLE 8 0x3FF0000000000000

/-- These LLRs for slot 0, with the decoder's arguments. -/
def llrState : State := withArgs 1 1 224 ((configured smallModem).writeBytes 0x080000 llrBytes)

theorem withArgs_mem (a0 a1 a2 : Word) (s : State) :
    (withArgs a0 a1 a2 s).mem = s.mem ∧ (withArgs a0 a1 a2 s).porCount = s.porCount := ⟨rfl, rfl⟩

theorem llrState_mem : llrState.mem = ((configured smallModem).writeBytes 0x080000 llrBytes).mem ∧
    llrState.porCount = ((configured smallModem).writeBytes 0x080000 llrBytes).porCount := withArgs_mem _ _ _ _

theorem llrState_llrs : Spec.llrsAt llrState (codeTable 0).n = List.replicate 224 0x3FF0000000000000#64 := by
  rw [((codeTable_cases 0).2 rfl).1]
  apply List.ext_getElem
  · rw [Spec.llrsAt, List.length_map, List.length_range, List.length_replicate]
  intro i h1 _
  have hi : i < 224 := by rwa [Spec.llrsAt, List.length_map, List.length_range] at h1
  simp only [Spec.llrsAt, List.getElem_map, List.getElem_range, List.getElem_replicate, State.readF64]
  have h : ((configured smallModem).writeBytes 0x080000 llrBytes).readLE (0x080000 + (8 * i + 0)) 8 =
      0x3FF0000000000000 % 256 ^ 8 :=
    readLE_records (s := configured smallModem) (l := List.replicate 224 ()) (f := fun _ => bytesLE 8 0x3FF0000000000000)
      rfl (fun _ => bytesLE_length _ _) (by rw [List.length_replicate]; exact hi) (Nat.le_refl 8)
      (fun k _ => by rw [Nat.zero_add])
  rw [Nat.add_zero, ← readLE_mem llrState_mem.1 llrState_mem.2] at h
  rw [h]
  rfl

theorem llrState_ready : Spec.DecodeReady llrState (codeTable (0#8).toNat) where
  count := ((codeTable_cases 0).2 rfl).1.symm
  decType := by decide
  maxIter := by decide
  noNaN := by
    intro x hx
    rw [show codeTable (0#8).toNat = codeTable 0 from rfl, llrState_llrs] at hx
    rw [(List.mem_replicate.1 hx).2]
    decide

theorem llrState_wf : Memory.wf llrState.mem = true := by
  rw [llrState_mem.1]
  exact State.writeBytes_wf rfl

theorem ldpcDecode_next (s : State) : ∃ t, exec (.ldpcDecode 0) s = .next t := ⟨_, rfl⟩

theorem witness_LdpcDecodeReportsItsBits :
    (0#8).toNat < 3 ∧ llrState.modem = some smallModem ∧ Memory.wf llrState.mem = true ∧
    Spec.DecodeReady llrState (codeTable (0#8).toNat) := ⟨by decide, rfl, llrState_wf, llrState_ready⟩

theorem witness_MinSumDecodingOfACodewordIsIdempotent :
    (0#8).toNat < 3 ∧ llrState.modem = some smallModem ∧ smallModem.Inv ∧ Memory.wf llrState.mem = true ∧
    Spec.DecodeReady llrState (codeTable (0#8).toNat) ∧ llrState.arg1.toNat = 1 ∧ 1 ≤ llrState.arg0.toNat ∧
    (List.replicate 224 false).length = (codeTable (0#8).toNat).n ∧
    passCount (codeTable (0#8).toNat) (List.replicate 224 false) = (codeTable (0#8).toNat).m ∧
    (∀ v, v < (codeTable (0#8).toNat).n → let x := (Spec.llrsAt llrState (codeTable (0#8).toNat).n).getD v 0#64
      Fp.isFinite x = true ∧ Fp.isZero x = false ∧ Fp.lt x 0#64 = (List.replicate 224 false).getD v false) := by
  have h := ((codeTable_cases 0).2 rfl).1
  refine ⟨by decide, rfl, smallModem_inv, llrState_wf, llrState_ready, by decide, by decide, ?_, zero_codeword _ _, ?_⟩
  · rw [List.length_replicate]; exact h.symm
  · intro v hv
    have hv' : v < 224 := by rw [← h]; exact hv
    rw [show codeTable (0#8).toNat = codeTable 0 from rfl, llrState_llrs]
    simp only [List.getD_eq_getElem?_getD, List.getElem?_replicate, hv', if_true, Option.getD_some]
    decide

theorem witness_LdpcDecodeChecksInOrder :
    (0#8).toNat < 3 ∧ (configured smallModem).modem = some smallModem ∧
    ((configured smallModem).arg2.toNat ≠ (codeTable (0#8).toNat).n) ∧
    ((withArgs 65536 1 224 (configured smallModem)).arg2.toNat = (codeTable (0#8).toNat).n ∧
      65535 < (withArgs 65536 1 224 (configured smallModem)).arg0.toNat ∧
      1 < (withArgs 0 2 224 (configured smallModem)).arg1.toNat) ∧
    (let s := withArgs 65535 1 224 ((configured smallModem).writeBytes 0x080000 (bytesLE 8 0x7FF8000000000000))
     s.arg2.toNat = (codeTable (0#8).toNat).n ∧ s.arg1.toNat ≤ 1 ∧ s.arg0.toNat ≤ 65535 ∧
      ∃ x ∈ Spec.llrsAt s (codeTable (0#8).toNat).n, Fp.isNaN x = true) := by
  have h : (codeTable (0#8).toNat).n = 224 := ((codeTable_cases 0).2 rfl).1
  rw [h]
  refine ⟨by decide, rfl, by decide, by decide, by decide, by decide, by decide, 0x7FF8000000000000#64, ?_, by decide⟩
  exact List.mem_map.2 ⟨0, by decide, by decide +kernel⟩

/-- Two states that agree on what LDPC_DECODE reads, and differ. -/
theorem llr_pair (s : State) : let s' : State := { s with ctrl := 5 }
    s'.modem = s.modem ∧ s.arg0 = s'.arg0 ∧ s.arg1 = s'.arg1 ∧ s.arg2 = s'.arg2 ∧
    Spec.llrsAt s (codeTable 0).n = Spec.llrsAt s' (codeTable 0).n ∧
    (∃ t, exec (.ldpcDecode 0) s = .next t) ∧ ∃ t, exec (.ldpcDecode 0) s' = .next t :=
  ⟨rfl, rfl, rfl, rfl, rfl, ldpcDecode_next _, ldpcDecode_next _⟩

theorem witness_CodecReadsOnlyItsInputs :
    (0#8).toNat < 3 ∧ Memory.wf llrState.mem = true ∧
    (∃ t, exec (.ldpcEncode 0) State.reset = .next t) ∧ (∃ t, exec (.ldpcEncode 0) { State.reset with arg0 := 1 } = .next t) ∧
    (∀ i, i < (codeTable 0).n - (codeTable 0).m → (State.reset.readByte (0x050000 + i)).getLsbD 0 =
      (({ State.reset with arg0 := 1 } : State).readByte (0x050000 + i)).getLsbD 0) ∧
    (let s' : State := { llrState with ctrl := 5 }
     s'.modem = llrState.modem ∧ llrState.arg0 = s'.arg0 ∧ llrState.arg1 = s'.arg1 ∧ llrState.arg2 = s'.arg2 ∧
      Spec.llrsAt llrState (codeTable 0).n = Spec.llrsAt s' (codeTable 0).n ∧
      (∃ t, exec (.ldpcDecode 0) llrState = .next t) ∧ ∃ t, exec (.ldpcDecode 0) s' = .next t) :=
  ⟨by decide, llrState_wf, ⟨_, rfl⟩, ⟨_, rfl⟩, fun _ _ => rfl, llr_pair _⟩

theorem witness_PayloadSymbolsAreNpayMany : smallCfg.valid = true ∧ smallCfg.Shaped := ⟨smallCfg_valid, smallCfg_shaped⟩

/-- A synchronized receiver with a frame to push, and an interleaver of `n` frames. -/
def pusher (n : Nat) (st : IlState) : Modem :=
  { smallModem with
    cfg := { smallCfg with ilFrames := n }
    syncState := .synced
    outValid := true
    frameCount := 1
    ilState := st }

theorem witness_IlPushWithoutAnAttempt :
    (configured smallModem).modem = some smallModem ∧ smallModem.cfg.ilFrames = 0 ∧
    (1 ≤ ({ pusher 2 .search with outValid := false } : Modem).cfg.ilFrames ∧
      ({ pusher 2 .search with outValid := false } : Modem).outValid = false ∧
      ({ pusher 2 .search with syncState := .searching } : Modem).syncState = .searching ∧
      ({ pusher 2 .search with ilLast := 1 } : Modem).frameCount = ({ pusher 2 .search with ilLast := 1 } : Modem).ilLast) ∧
    (let m := pusher 2 .search
     1 ≤ m.cfg.ilFrames ∧ m.syncState ≠ .searching ∧ m.outValid = true ∧ m.frameCount ≠ m.ilLast ∧
      (m.ilState = .search → (if m.cfg.ilFrames < (m.ilRing ++ [m.frameRecord]).length then
        (m.ilRing ++ [m.frameRecord]).drop 1 else m.ilRing ++ [m.frameRecord]).length ≠ m.cfg.ilFrames) ∧
      (m.ilState ≠ .search → m.ilSince + 1 ≠ m.cfg.ilFrames)) ∧
    (pusher 2 .trial).ilSince + 1 ≠ (pusher 2 .trial).cfg.ilFrames := by
  refine ⟨rfl, ?_⟩; decide

/-- A valid configuration with an interleaver of one frame: NPAY = 112, half of the 224 bits of code 0. -/
def ilCfg : ModemConfig :=
  { v1Cfg with
    nc := 1
    ns := 114
    m := 1
    ncp := 0
    ilFrames := 1
    carrierBins := [0]
    pilots := [⟨0x3FF0000000000000, 0⟩]
    ilPerm := List.range 112 }

theorem ilCfg_valid : ilCfg.valid = true := by
  have h := (codeTable_cases 0).2 rfl
  have hc : ilCfg.code = codeTable 0 := rfl
  have hv : ilCfg.ilValidCfg = true := by
    unfold ModemConfig.ilValidCfg
    rw [hc, h.1, h.2]
    decide +kernel
  unfold ModemConfig.valid ModemConfig.checks
  rw [hv]
  decide +kernel

theorem ilCfg_shaped : ilCfg.Shaped := ⟨rfl, rfl, rfl, rfl, rfl, rfl, List.length_replicate⟩

/-- A synchronized receiver of that configuration with a frame to push, its ring empty. -/
def ilSearcher : Modem := { Modem.fresh ilCfg with syncState := .synced, outValid := true, frameCount := 1 }

theorem ilSearcher_inv : ilSearcher.Inv :=
  { fresh_inv ilCfg_valid ilCfg_shaped with
    unsynced := nofun
    searching := nofun
    trial := nofun
    lastLe := Nat.zero_le _
    outCounted := fun _ => Nat.le_refl _ }

/-- The same with its ring full and the interleaver machine in synced. -/
def ilTracker : Modem :=
  { ilSearcher with
    ilState := .synced
    ilRing := [⟨List.replicate 112 Cx.zero, List.replicate 112 Fp.zero, Fp.one⟩] }

theorem ilTracker_inv : ilTracker.Inv :=
  { ilSearcher_inv with
    searching := nofun
    ringLen := Nat.le_refl _
    ringShape := by
      intro r hr
      rw [List.mem_singleton.1 hr]
      exact ⟨List.length_replicate, List.length_replicate⟩
    ringFull := fun _ => rfl
    sinceLt := fun _ => Nat.zero_lt_one
    ilTrial := nofun }

/-- The LLR clause: an attempt from search, and one outside it. -/
theorem witness_IlPushAttemptsABlock_llrs :
    (let m := ilSearcher
     m.Inv ∧ 1 ≤ m.cfg.ilFrames ∧ m.syncState ≠ .searching ∧ m.outValid = true ∧ m.frameCount ≠ m.ilLast ∧
      m.ilState = .search ∧ 0 < m.cfg.ilFrames ∧ 111 < m.cfg.npay ∧
      (if m.cfg.ilFrames < (m.ilRing ++ [m.frameRecord]).length then
        (m.ilRing ++ [m.frameRecord]).drop 1 else m.ilRing ++ [m.frameRecord]).length = m.cfg.ilFrames) ∧
    (let m := ilTracker
     m.Inv ∧ m.ilState ≠ .search ∧ m.ilSince + 1 = m.cfg.ilFrames) :=
  ⟨⟨ilSearcher_inv, Nat.le_refl _, nofun, rfl, nofun, rfl, Nat.zero_lt_one, by decide, rfl⟩, ilTracker_inv, nofun, rfl⟩

theorem witness_IlPushAttemptsABlock :
    (let m := pusher 1 .search
     1 ≤ m.cfg.ilFrames ∧ m.syncState ≠ .searching ∧ m.outValid = true ∧ m.frameCount ≠ m.ilLast ∧
      m.ilState = .search ∧ (if m.cfg.ilFrames < (m.ilRing ++ [m.frameRecord]).length then
        (m.ilRing ++ [m.frameRecord]).drop 1 else m.ilRing ++ [m.frameRecord]).length = m.cfg.ilFrames) ∧
    (let m := pusher 1 .synced
     m.ilState ≠ .search ∧ m.ilSince + 1 = m.cfg.ilFrames) ∧
    Memory.wf (configured (pusher 1 .search)).mem = true := by decide

theorem witness_IlTransitionsFollowTheTable :
    (pusher 1 .search).ilState = .search ∧
    (let m : Modem := { pusher 1 .trial with cfg := { smallCfg with ilTrialBlocks := 2 }, ilGood := 1 }
     m.ilState = .trial ∧ m.ilGood + 1 ≥ m.cfg.ilTrialBlocks) ∧
    (let m : Modem := { pusher 1 .trial with cfg := { smallCfg with ilTrialBlocks := 2 }, ilGood := 0 }
     m.ilState = .trial ∧ m.ilGood + 1 < m.cfg.ilTrialBlocks) ∧
    (let m : Modem := { pusher 1 .synced with cfg := { smallCfg with ilFalloutBlocks := 2 }, ilBad := 1 }
     m.ilState = .synced ∧ m.policy = .auto ∧ m.ilBad + 1 ≥ m.cfg.ilFalloutBlocks) ∧
    (let m : Modem := { pusher 1 .synced with cfg := { smallCfg with ilFalloutBlocks := 2 }, ilBad := 0 }
     m.ilBad + 1 < m.cfg.ilFalloutBlocks) ∧
    ({ pusher 1 .synced with policy := .manual } : Modem).policy = .manual := by decide

/-- One access of each illegal kind, at the edges of the windows. -/
theorem witness_IllegalAccessesRecordBusError :
    (hostOp (.read 4 0x0C0000) State.reset).turns = .host (.read 4 0x0C0000) :: [] ∧ State.reset.faulted = false ∧
    (∀ op ∈ [HostOp.read 4 0x0C0000, .read 4 0x000100, .write 4 0x00FFFC 1, .read 2 0x00000C, .read 1 0x000004,
        .read 4 0x000002, .write 4 0x020002 1, .read 2 0x010001, .read 8 0x020000, .read 3 0x030000],
      ¬ Spec.LegalAccess op.width op.addr) := by
  refine ⟨rfl, rfl, ?_⟩
  unfold Spec.LegalAccess
  decide

theorem witness_BusyAccessesRecordHostRace :
    (let s : State := hostOp (.write 4 0x000014 0) (pending 1)
     s.turns = .host (.write 4 0x000014 0) :: [] ∧ s.faulted = false ∧ s.busy = true) ∧
    (∀ op ∈ [HostOp.write 4 0x000014 0, .write 4 0x000008 1, .read 4 0x010000, .write 1 0x0BFFFF 0, .write 4 0x0000FC 0],
      Spec.LegalAccess op.width op.addr ∧ ¬ Spec.AllowedWhileBusy op) := by
  refine ⟨⟨rfl, rfl, rfl⟩, ?_⟩
  simp only [List.forall_mem_cons, List.not_mem_nil, false_implies, implies_true, and_true, Spec.LegalAccess,
    Spec.AllowedWhileBusy, HostOp.width, HostOp.addr]
  decide

/-- A faulted machine. -/
def broken (ts : List Turn) : State := { State.reset with faulted := true, faultReason := some .busError, turns := ts }

theorem witness_AFaultedCoreTakesNoStep :
    (broken [.core]).faulted = true ∧ (broken [.core]).turns = .core :: [] ∧ (broken []).turns = [] ∧
    (broken [.host (.write 4 0x000008#24 1)]).turns = .host (.write 4 0x000008#24 1) :: [] ∧
    (∃ t, step (broken [.host (.write 4 0x000008#24 1)]) = .next t) ∧ (broken [.powerOn]).turns = .powerOn :: [] :=
  ⟨rfl, rfl, rfl, rfl, ⟨_, rfl⟩, rfl⟩

theorem witness_RegisterReadsShowTheirFields :
    let s := hostOp (.read 4 0x0000FC#24) (configured smallModem)
    s.turns = .host (.read 4 0x0000FC#24) :: [] ∧ s.faulted = false ∧ (0x0000FC#24).toNat < 0x100 ∧
    (0x0000FC#24).toNat % 4 = 0 ∧ 0x078 ≤ 0x078 ∧ 9 ≤ 9 ∧ s.modem = some smallModem ∧
    (let s' := hostOp (.read 4 0x000010#24) { State.reset with err := true, errcode := .badArgument }
     s'.turns = .host (.read 4 0x000010#24) :: [] ∧ s'.faulted = false ∧ s'.modem = none) :=
  ⟨rfl, rfl, by decide, by decide, by decide, by decide, rfl, rfl, rfl, rfl⟩

theorem witness_RegisterWritesStoreTheirFields :
    (let s := hostOp (.write 4 0x000004#24 7) (pending 4)
     s.faulted = false ∧ s.busy = true ∧ s.turns = .host (.write 4 0x000004#24 7) :: []) ∧
    State.reset.faulted = false ∧ State.reset.busy = false ∧
    (hostOp (.write 4 0x000004#24 7) State.reset).turns = .host (.write 4 0x000004#24 7) :: [] ∧
    ((0x000000#24).toNat < 0x100 ∧ (0x000000#24).toNat % 4 = 0 ∧
      (0x000000#24).toNat ∉ [0x004, 0x008, 0x014, 0x018, 0x01C, 0x020, 0x040, 0x044]) ∧
    ((0x0000FC#24).toNat < 0x100 ∧ (0x0000FC#24).toNat % 4 = 0 ∧
      (0x0000FC#24).toNat ∉ [0x004, 0x008, 0x014, 0x018, 0x01C, 0x020, 0x040, 0x044]) :=
  ⟨⟨rfl, rfl, rfl⟩, rfl, rfl, rfl, by decide, by decide⟩

theorem witness_WindowWritesReadBack :
    (let s : State := { State.reset with turns := [.host (.write 1 0x0BFFFF#24 7), .host (.read 1 0x0BFFFF#24)] }
     Memory.wf s.mem = true ∧ s.faulted = false ∧ s.busy = false ∧ 0x010000 ≤ (0x0BFFFF#24).toNat ∧
      (0x0BFFFF#24).toNat < 0x0C0000 ∧ (0x0BFFFF#24).toNat % 1 = 0 ∧
      s.turns = .host (.write 1 0x0BFFFF#24 7) :: .host (.read 1 0x0BFFFF#24) :: []) ∧
    ((0x010000#24).toNat % 4 = 0 ∧ (0x010002#24).toNat % 2 = 0) :=
  ⟨⟨rfl, rfl, rfl, by decide, by decide, by decide, rfl⟩, by decide⟩

theorem witness_CommandWritesAreAccepted :
    let s : State := { State.reset with turns := [.host (.write 4 0x000008#24 4), .core] }
    s.faulted = false ∧ s.busy = false ∧ s.turns = .host (.write 4 0x000008#24 4) :: .core :: [] := ⟨rfl, rfl, rfl⟩

theorem witness_PowerOnResetGivesTheResetValues :
    ({ pending 4 with turns := [.powerOn] } : State).turns = .powerOn :: [] := rfl

/-- A configured machine with a command to run satisfies the invariant, and takes a step. -/
theorem witness_EveryStepKeepsTheInvariant :
    let s : State := { pending 4 with modem := some ready }
    s.Inv ∧ ∃ t, step s = .next t := by
  refine ⟨⟨rfl, (fun p hp => by cases hp), rfl, rfl, rfl, rfl, rfl, fun _ => ⟨rfl, rfl⟩, (fun h => by cases h),
    (fun h => by cases h), fun m h => ?_⟩, ⟨_, rfl⟩⟩
  have h' : ready = m := Option.some.inj h
  subst h'
  exact ready_inv

end Sys2Proof.Tests
end

section
/-! Register reads and writes of the host port (10_state R44 to R51, 20_memory R129, R141): the bits of the views STATUS,
SYNC and MODE, which offsets show nothing, and the steps that read and write a register. -/

namespace Sys2Proof.Machine

/-! ## Words made of bits -/

theorem testBit_bitsWord (bs : List Bool) (j : Nat) : (bitsWord bs).testBit j = bs.getD j false := by
  induction bs generalizing j with
  | nil => simp [bitsWord]
  | cons b bs ih =>
    rw [bitsWord, Nat.add_comm]
    cases j with
    | zero => cases b <;> simp [Nat.testBit_zero]
    | succ j =>
      rw [Nat.testBit_succ, show (2 * bitsWord bs + b.toNat) / 2 = bitsWord bs by cases b <;> simp; omega, ih,
        List.getD_cons_succ]

theorem getLsbD_bitsWord {bs : List Bool} (h : bs.length ≤ 32) (j : Nat) :
    (BitVec.ofNat 32 (bitsWord bs)).getLsbD j = bs.getD j false := by
  rw [BitVec.getLsbD_ofNat, testBit_bitsWord]
  by_cases hj : j < 32
  · simp [hj]
  · rw [List.getD_eq_default _ _ (by omega), Bool.and_false]

/-! ## Views of the modem -/

theorem State.view_of_some {α : Type} {s : State} {m : Modem} (h : s.modem = some m) (d : α) (f : Modem → α) :
    s.view d f = f m := by simp [State.view, h]

theorem State.view_of_none {α : Type} {s : State} (h : s.modem = none) (d : α) (f : Modem → α) : s.view d f = d := by
  simp [State.view, h]

theorem State.status_getLsbD (s : State) (j : Nat) : s.status.getLsbD j =
    [s.busy, s.done, s.err, s.configured, s.view false Modem.outValid, s.view false Modem.candValid, s.nonconv,
      s.view false Modem.ilValid, s.view false Modem.ilConv].getD j false :=
  getLsbD_bitsWord (by simp) j

theorem Modem.modeWord_getLsbD (m : Modem) (j : Nat) : m.modeWord.getLsbD j =
    [decide (m.phaseBw = .high), m.timingEn, m.foffEn, m.phaseEn, m.dpsk].getD j false :=
  getLsbD_bitsWord (by simp) j

/-! ## The fields of SYNC (10_state R48) -/

theorem SyncState.code_le (x : SyncState) : x.code ≤ 2 := by cases x <;> decide
theorem IlState.code_le (x : IlState) : x.code ≤ 2 := by cases x <;> decide
theorem policy_code_le (x : Policy) : x.code ≤ 2 := by cases x <;> decide

/-- The five fields of SYNC stand side by side: a field is read off by a shift and a mask. -/
theorem Modem.syncWord_fields (m : Modem) :
    m.syncWord.extractLsb' 0 2 = BitVec.ofNat 2 m.syncState.code ∧
    m.syncWord.extractLsb' 2 2 = BitVec.ofNat 2 m.ilState.code ∧
    m.syncWord.extractLsb' 4 2 = BitVec.ofNat 2 m.policy.code ∧ m.syncWord.extractLsb' 6 2 = 0#2 ∧
    m.syncWord.extractLsb' 8 8 = BitVec.ofNat 8 (min m.good 255) ∧
    m.syncWord.extractLsb' 16 8 = BitVec.ofNat 8 (min m.bad 255) ∧ m.syncWord.extractLsb' 24 8 = 0#8 := by
  have hs := m.syncState.code_le
  have hi := m.ilState.code_le
  have hp := policy_code_le m.policy
  have hg := Nat.min_le_right m.good 255
  have hb := Nat.min_le_right m.bad 255
  unfold Modem.syncWord
  generalize min m.good 255 = good at *
  generalize min m.bad 255 = bad at *
  refine ⟨?_, ?_, ?_, ?_, ?_, ?_, ?_⟩ <;>
    (apply BitVec.eq_of_toNat_eq
     simp only [BitVec.extractLsb'_toNat, BitVec.toNat_ofNat, Nat.shiftRight_eq_div_pow]
     omega)

/-! ## What the offsets read as -/

/-- The offsets above the last register are reserved. -/
theorem State.readReg_reserved (s : State) {off : Nat} (h : 0x078 ≤ off) : s.readReg off = 0 := by
  unfold State.readReg
  split
  case h_30 => rfl
  all_goals omega

/-- The offsets that show a field of the modem. -/
def modemViewOffsets : List Nat :=
  [0x034, 0x038, 0x03C, 0x048, 0x04C, 0x050, 0x054, 0x058, 0x05C, 0x060, 0x064, 0x068, 0x06C, 0x070, 0x074]

theorem State.readReg_modemView {s : State} (h : s.modem = none) : ∀ off ∈ modemViewOffsets, s.readReg off = 0 := by
  simp [modemViewOffsets, State.readReg, State.view_of_none h]

/-! ## The steps that access a register -/

theorem region_of_lt {a : Nat} (h : a < 0x100) : region a = .reg := if_pos h

theorem legalAccess_reg {a : Nat} (h : a < 0x100) (h4 : a % 4 = 0) : legalAccess 4 a = true := by
  simp [legalAccess, region_of_lt h, h4]

/-- A legal access that does not race with the core is performed (20_memory R129, R141). -/
theorem step_access {s : State} {op : HostOp} {rest : List Turn} (ht : s.turns = .host op :: rest)
    (hf : s.faulted = false) (hl : op.legal = true) (hb : s.busy = false ∨ op.allowedBusy = true) :
    step s = .next (({ s with turns := rest } : State).access op) :=
  (step_host ht).trans (hostStep_ok (s := { s with turns := rest }) hf hl hb)

/-- A register read returns the register and changes nothing else, whether or not the core is busy (20_memory R129). -/
theorem step_readReg {s : State} {rest : List Turn} {a : BitVec 24} (ht : s.turns = .host (.read 4 a) :: rest)
    (hf : s.faulted = false) (ha : a.toNat < 0x100) (h4 : a.toNat % 4 = 0) :
    step s = .next { s with turns := rest, busData := s.readReg a.toNat } := by
  have hl : (HostOp.read 4 a).legal = true := legalAccess_reg ha h4
  have hb : (HostOp.read 4 a).allowedBusy = true := decide_eq_true (region_of_lt ha)
  rw [step_access ht hf hl (.inr hb), State.access, if_pos (region_of_lt ha)]
  rfl

/-- What a register write stores does not depend on the turns to come. -/
theorem State.writeReg_turns (s : State) (rest : List Turn) (off : Nat) (v : Word) :
    ({ s with turns := rest } : State).writeReg off v = { s.writeReg off v with turns := rest } := by
  unfold State.writeReg
  split <;> rfl

/-- A register write on a core it does not race with (20_memory R129, R141). -/
theorem step_writeReg {s : State} {rest : List Turn} {a : BitVec 24} {v : Word}
    (ht : s.turns = .host (.write 4 a v) :: rest) (hf : s.faulted = false) (ha : a.toNat < 0x100)
    (h4 : a.toNat % 4 = 0) (hb : s.busy = false ∨ (HostOp.write 4 a v).allowedBusy = true) :
    step s = .next { s.writeReg a.toNat v with turns := rest } := by
  have hl : (HostOp.write 4 a v).legal = true := legalAccess_reg ha h4
  rw [step_access ht hf hl hb, State.access, if_pos (region_of_lt ha), State.writeReg_turns]

theorem State.writeReg_ignored (s : State) {off : Nat} (v : Word)
    (h : off ∉ [0x004, 0x008, 0x014, 0x018, 0x01C, 0x020, 0x040, 0x044]) : s.writeReg off v = s := by
  unfold State.writeReg
  split
  case h_9 => rfl
  all_goals exact absurd (by decide) h

/-! ## The obligations -/

/-- Settles O53: each register's bits from the lemma about its view, and the step that reads it. -/
theorem registerReadsShowTheirFields : Obligations.RegisterReadsShowTheirFields := by
  unfold Obligations.RegisterReadsShowTheirFields
  intro s rest a ht hf ha h4
  refine ⟨step_readReg ht hf ha h4,
    ⟨rfl, rfl, rfl, rfl, rfl, rfl, rfl, rfl, rfl, rfl, rfl, rfl, rfl, fun _ => s.readReg_reserved⟩, ?errcode, ?status,
    fun m hm => ?views, fun m hm => ?sync, fun m hm => ?mode, fun hn => ⟨s.readReg_modemView hn, ?unset⟩⟩
  case errcode =>
    show BitVec.ofNat 32 s.errcode.code = _
    cases s.errcode <;> rfl
  case status =>
    have bit := s.status_getLsbD
    refine ⟨bit 0, bit 1, bit 2, bit 3, bit 6, fun j hj => (bit j).trans ?_⟩
    exact List.getD_eq_default _ _ hj
  case views =>
    have view {α : Type} (d : α) (f : Modem → α) : s.view d f = f m := State.view_of_some hm d f
    have bit := s.status_getLsbD
    exact ⟨view _ _, view _ _, view _ _, view _ _, view _ _, view _ _, view _ _, view _ _, view _ _, view _ _, view _ _,
      view _ _, view _ _, (bit 4).trans (view _ _), (bit 5).trans (view _ _), (bit 7).trans (view _ _),
      (bit 8).trans (view _ _)⟩
  case sync =>
    obtain ⟨hs, hi, hp, hz, hg, hb, hz'⟩ := m.syncWord_fields
    rw [show s.readReg 0x038 = m.syncWord from State.view_of_some hm _ _]
    refine ⟨hs.trans ?_, hi.trans ?_, hp.trans ?_, hz, ?_, ?_, hz'⟩
    · cases m.syncState <;> rfl
    · cases m.ilState <;> rfl
    · cases m.policy <;> rfl
    · rw [hg, BitVec.toNat_ofNat]; omega
    · rw [hb, BitVec.toNat_ofNat]; omega
  case mode =>
    have bit := m.modeWord_getLsbD
    rw [show s.readReg 0x03C = m.modeWord from State.view_of_some hm _ _]
    exact ⟨bit 0, bit 1, bit 2, bit 3, bit 4, fun j hj => (bit j).trans (List.getD_eq_default _ _ hj)⟩
  case unset =>
    have view (f : Modem → Bool) : s.view false f = false := State.view_of_none hn false f
    show ∀ j ∈ [3, 4, 5, 7, 8], s.status.getLsbD j = false
    simp [State.status_getLsbD, view, State.configured, hn]

/-- Settles O54: a write the core allows is the register map's write, at each register and elsewhere. -/
theorem registerWritesStoreTheirFields : Obligations.RegisterWritesStoreTheirFields := by
  unfold Obligations.RegisterWritesStoreTheirFields
  intro s rest v hf writes
  have allowed {a : BitVec 24} (ha : a.toNat < 0x100) (h4 : a.toNat % 4 = 0)
      (hb : s.busy = false ∨ (HostOp.write 4 a v).allowedBusy = true) : writes a (s.writeReg a.toNat v) :=
    fun ht => step_writeReg ht hf ha h4 hb
  refine ⟨allowed (by decide) (by decide) (.inr rfl), allowed (by decide) (by decide) (.inr rfl),
    allowed (by decide) (by decide) (.inr rfl), fun hb => ?idle⟩
  case idle =>
    refine ⟨allowed (by decide) (by decide) (.inl hb), allowed (by decide) (by decide) (.inl hb),
      allowed (by decide) (by decide) (.inl hb), allowed (by decide) (by decide) (.inl hb), fun a ha h4 hno => ?ignored⟩
    case ignored => exact s.writeReg_ignored v hno ▸ allowed ha h4 (.inl hb)

end Sys2Proof.Machine
end

section
/-! The host port as 20_memory states it: which accesses are legal (R121, R122, R127), which race with a pending command
(R141), and what a window write leaves (R123, R129). -/

namespace Sys2Proof.Machine

theorem region_eq_reg_iff (a : Nat) : region a = .reg ↔ a < 0x100 := by
  obtain ⟨ha, hr⟩ | ⟨ha, -, hr | hr⟩ | ⟨hr, ha, -⟩ := region_cases a <;> simp [hr] <;> omega

/-- The model's legal accesses are those of 20_memory R121, R122, R127. -/
theorem legalAccess_iff (w a : Nat) : legalAccess w a = true ↔ Spec.LegalAccess w a := by
  unfold legalAccess Spec.LegalAccess
  obtain ⟨ha, hr⟩ | ⟨hlo, hhi, hr | hr⟩ | ⟨hr, hreg, hwin⟩ := region_cases a
  · rw [hr]
    simp only [Bool.and_eq_true, decide_eq_true_eq]
    omega
  all_goals simp only [hr, Bool.and_eq_true, Bool.or_eq_true, decide_eq_true_eq]
  · rw [or_assoc]; exact ⟨fun h => .inr ⟨hlo, hhi, h⟩, fun h => (h.resolve_left (by omega)).2.2⟩
  · rw [or_assoc]; exact ⟨fun h => .inr ⟨hlo, hhi, h⟩, fun h => (h.resolve_left (by omega)).2.2⟩
  · exact ⟨nofun, fun h => (h.elim (fun h => hreg h.1) fun h => hwin ⟨h.1, h.2.1⟩).elim⟩

/-- What the model lets the host do while BUSY = 1 is what 20_memory R141 and 70_reset R570 say. -/
theorem allowedBusy_iff (op : HostOp) : op.allowedBusy = true ↔ Spec.AllowedWhileBusy op := by
  cases op with
  | read w a => simp [HostOp.allowedBusy, Spec.AllowedWhileBusy, region_eq_reg_iff]
  | write w a v => simp [HostOp.allowedBusy, Spec.AllowedWhileBusy, or_assoc]

/-- A legal access outside the register block lies in the windows with all its bytes: the windows end at a multiple of
every width. -/
theorem window_of_legal {w a : Nat} (h : Spec.LegalAccess w a) (ha : ¬ a < 0x100) :
    cfgBase ≤ a ∧ a + w ≤ windowEnd := by
  obtain ⟨hlt, -⟩ | ⟨hlo, hhi, rfl | rfl | rfl, hal⟩ := h
  · exact absurd hlt ha
  all_goals unfold cfgBase windowEnd; omega

/-- Byte `k` of a little-endian value (20_memory R123). -/
theorem bytesLE_getD {n k : Nat} (v : Nat) (hk : k < n) : ((bytesLE n v).getD k 0).toNat = v / 256 ^ k % 256 := by
  induction n generalizing v k with
  | zero => omega
  | succ n ih =>
    cases k with
    | zero => simp [bytesLE]
    | succ k => rw [bytesLE, List.getD_cons_succ, ih _ (by omega), Nat.div_div_eq_div_mul, pow_succ' 256 k]

/-- A window read on an idle core returns the bytes and changes nothing else (20_memory R129). -/
theorem step_readWindow {s : State} {rest : List Turn} {w : Nat} {a : BitVec 24}
    (ht : s.turns = .host (.read w a) :: rest) (hf : s.faulted = false) (hb : s.busy = false)
    (hl : Spec.LegalAccess w a.toNat) (ha : ¬ a.toNat < 0x100) :
    step s = .next { s with turns := rest, busData := BitVec.ofNat 32 (s.readLE a.toNat w) } := by
  have hl : (HostOp.read w a).legal = true := (legalAccess_iff _ _).2 hl
  rw [step_access ht hf hl (.inl hb), State.access, if_neg (by rwa [region_eq_reg_iff])]
  rw [readLE_mem (s := { s with turns := rest }) (t := s) rfl rfl]

/-- A window write on an idle core stores the value's low bytes and changes nothing else (20_memory R129). -/
theorem step_writeWindow {s : State} {rest : List Turn} {w : Nat} {a : BitVec 24} {v : Word}
    (ht : s.turns = .host (.write w a v) :: rest) (hf : s.faulted = false) (hb : s.busy = false)
    (hl : Spec.LegalAccess w a.toNat) (ha : ¬ a.toNat < 0x100) :
    step s = .next { s with turns := rest, mem := Memory.setBytes s.mem a.toNat (bytesLE w v.toNat) } := by
  have hl : (HostOp.write w a v).legal = true := (legalAccess_iff _ _).2 hl
  rw [step_access ht hf hl (.inl hb), State.access, if_neg (by rwa [region_eq_reg_iff])]
  rfl

/-- Settles O50: what is not legal fails the port's first test on an unfaulted machine, before BUSY is looked at. -/
theorem illegalAccessesRecordBusError : Obligations.IllegalAccessesRecordBusError := by
  unfold Obligations.IllegalAccessesRecordBusError
  intro s op rest ht hf hl
  have hl : op.legal = false := by
    rw [← Bool.not_eq_true, HostOp.legal, legalAccess_iff]
    exact hl
  rw [step_host ht, State.hostStep, if_neg (by simp [hf]), if_pos (by simp [hl])]
  rfl

/-- Settles O51: a legal access that R141 does not allow fails the port's second test while BUSY = 1. -/
theorem busyAccessesRecordHostRace : Obligations.BusyAccessesRecordHostRace := by
  unfold Obligations.BusyAccessesRecordHostRace
  intro s op rest ht hf hb hl ha
  have hl : op.legal = true := (legalAccess_iff _ _).2 hl
  have ha : op.allowedBusy = false := by
    rw [← Bool.not_eq_true, allowedBusy_iff]
    exact ha
  rw [step_host ht, State.hostStep, if_neg (by simp [hf]), if_neg (by simp [hl]), if_pos (by simp [hb, ha])]
  rfl

/-- Settles O55: the write is `writeBytes` of the value's bytes, whose laws give each byte, the frame and the read. -/
theorem windowWritesReadBack : Obligations.WindowWritesReadBack := by
  unfold Obligations.WindowWritesReadBack
  intro s w a v rest hwf hf hb hlo hhi hw hal ht
  have hl : Spec.LegalAccess w a.toNat := .inr ⟨hlo, hhi, hw, hal⟩
  refine ⟨Memory.setBytes s.mem a.toNat (bytesLE w v.toNat), step_writeWindow ht hf hb hl (by omega),
    fun k hk => ?byte, fun x hx => ?frame, Memory.setBytes_wf hwf, ?read⟩
  case byte =>
    rw [← bytesLE_getD v.toNat hk]
    refine congrArg BitVec.toNat ((State.readByte_writeBytes hwf).trans ?_)
    rw [if_pos (by rw [bytesLE_length]; omega), Nat.add_sub_cancel_left]
  case frame => exact State.readByte_writeBytes_outside hwf (by rw [bytesLE_length]; exact hx)
  case read =>
    rw [← State.readLE_writeBytes_bytesLE hwf, readLE_mem (s := s.writeBytes a.toNat _) (t := { s with
      mem := Memory.setBytes s.mem a.toNat (bytesLE w v.toNat), turns := .host (.read w a) :: rest }) rfl rfl]
    exact step_readWindow rfl hf hb hl (by omega)

/-- Settles O12: each field is its offset's read by definition, and each table is the list of the reads of its entries. -/
theorem createReadsTheCfgBlock : Obligations.CreateReadsTheCfgBlock := by
  unfold Obligations.CreateReadsTheCfgBlock
  intro s c
  have entry {α : Type} {f : Nat → α} {n limit i : Nat} {x : α} (hf : f i = x) (hn : i < n) (hl : i < limit) :
      ((List.range (min n limit)).map f)[i]? = some x := (map_range_get f _ i (lt_min hn hl)).trans (congrArg some hf)
  have word (off i : Nat) : s.readU32 (cfgBase + (off + 4 * i)) = s.readLE (cfgBase + off + 4 * i) 4 :=
    congrArg (s.readLE · 4) (Nat.add_assoc _ _ _).symm
  have real (off i : Nat) : s.readF64 (cfgBase + (off + i)) = s.readF64 (cfgBase + off + i) :=
    congrArg s.readF64 (Nat.add_assoc _ _ _).symm
  have bit (base i : Nat) : s.readBit base (0 + i) = (s.readByte (base + i)).getLsbD 0 := by
    rw [State.readBit, Nat.zero_add]
  have length {α : Type} (f : Nat → α) (n : Nat) : ((List.range n).map f).length = n := by
    rw [List.length_map, List.length_range]
  refine ⟨⟨rfl, rfl, rfl, rfl, rfl, rfl, rfl, rfl, rfl, rfl, rfl, rfl, rfl, rfl, rfl, rfl, rfl, rfl⟩,
    ⟨rfl, rfl, rfl, rfl, rfl, rfl, rfl, rfl⟩, fun i hi hl => ⟨entry (word _ i) hi hl, entry ?pilot hi hl⟩,
    fun i hi hl => ⟨entry (bit _ i) hi hl, entry (word _ i) hi hl⟩, fun i hi hl => entry (word _ i) hi hl,
    fun i hi hl => entry (real _ (8 * i)) hi hl, fun i hi hl => entry (bit _ i) hi hl,
    fun i hi hl => entry (word _ i) hi hl, length _ _, length _ _, length _ _, length _ _, length _ _, length _ _,
    length _ _, length _ _⟩
  case pilot => exact congrArg₂ C64.mk (real 0x0200 (16 * i)) (real 0x0208 (16 * i))

end Sys2Proof.Machine
end

section
/-! What a valid configuration fixes (40_control R201): the bounds the invariant needs, the table lengths of the CFG block
CREATE latches (20_memory R128), and the number of payload symbols (45_interleaver R450). -/

namespace Sys2Proof.Machine

namespace ModemConfig

/-- The bounds of R201 that the other rules rest on. -/
structure Bounds (c : ModemConfig) : Prop where
  nc : c.nc ≤ 64
  ns : 2 ≤ c.ns
  nds : c.nds ≤ 4096
  bps : c.bps = 2
  m : 1 ≤ c.m
  ncp : c.ncp ≤ c.m
  spf : c.spf ≤ 8191
  lookahead : c.lookahead ≤ c.spf - 1
  nuwbits : c.nuwbits ≤ 256
  ntxtbits : c.ntxtbits ≤ 256
  posLt : ∀ p ∈ c.uwPos ++ c.txtPos, p < c.bpf
  posNodup : (c.uwPos ++ c.txtPos).Nodup
  uwClosed : symbolClosed c.uwPos = true
  txtClosed : symbolClosed c.txtPos = true
  trialFrames : 1 ≤ c.trialFrames
  txFiltLen : c.txFiltLen ≤ 128
  timingGain : Fp.isFinite c.timingGain = true
  interleaver : c.ilFrames ≠ 0 → c.ilValidCfg = true

theorem bounds_of_valid {c : ModemConfig} (h : c.valid = true) : c.Bounds := by
  simp only [valid, checks, List.all_cons, List.all_nil, id, Bool.and_eq_true, Bool.or_eq_true, decide_eq_true_eq,
    List.all_eq_true, and_true] at h
  obtain ⟨⟨-, nc⟩, ns, nds, bps, m, ncp, spf, lookahead, -, -, -, ⟨⟨⟨nuwbits, ntxtbits⟩, -⟩, -⟩,
    ⟨⟨⟨posLt, posNodup⟩, uwClosed⟩, txtClosed⟩, ⟨trialFrames, -⟩, -, ⟨txFiltLen, -⟩, -, ⟨⟨-, timingGain⟩, -⟩, -, il⟩ := h
  exact { nc, ns, nds, bps, m, ncp, spf, lookahead, nuwbits, ntxtbits, posLt, posNodup, uwClosed, txtClosed,
          trialFrames, txFiltLen, timingGain, interleaver := il.resolve_left }

theorem Bounds.spf_pos {c : ModemConfig} (h : c.Bounds) : 1 ≤ c.spf :=
  Nat.mul_pos (by have := h.ns; omega) (by have := h.m; unfold symLen; omega)

theorem Bounds.lookahead_pos {c : ModemConfig} (h : c.Bounds) : 1 ≤ c.lookahead := by
  have := h.m
  unfold ModemConfig.lookahead symLen
  omega

theorem Bounds.bpf_eq {c : ModemConfig} (h : c.Bounds) : c.bpf = 2 * c.nds := by
  rw [bpf, h.bps, Nat.mul_comm, ModemConfig.nds]

/-- The table of a configured code has at most its limit of data bits (44_ldpc R401). -/
theorem code_bounds (c : ModemConfig) : c.code.m ≤ c.code.n ∧ c.code.n ≤ 32768 ∧ codeK c.code ≤ 4096 := by
  obtain ⟨-, -, -, -, -, -, -, -, ⟨-, hn, -, hmn, hk, -⟩, -⟩ := (codeWf_iff _).1 (codeTable_cases c.codeId).1
  exact ⟨hmn, hn, hk⟩

/-- What check 20 of R201 fixes of a configured interleaver. -/
theorem Bounds.il {c : ModemConfig} (h : c.Bounds) (h0 : c.ilFrames ≠ 0) :
    c.npay * 2 = c.code.n ∧ c.ilFrames * c.npay ≤ 14144 ∧ 1 ≤ c.ilTrialBlocks := by
  have hv := h.interleaver h0
  simp only [ilValidCfg, Bool.and_eq_true, decide_eq_true_eq] at hv
  obtain ⟨⟨⟨⟨⟨⟨⟨hn, hb⟩, -⟩, -⟩, -⟩, -⟩, ht⟩, -⟩ := hv
  exact ⟨hn, hb, ht⟩

/-- The decoded bits of a block have room in DEC_OUT. -/
theorem Bounds.block_le {c : ModemConfig} (h : c.Bounds) : c.ilFrames * codeK c.code ≤ 28288 := by
  by_cases h0 : c.ilFrames = 0
  · simp [h0]
  obtain ⟨hn, hb, -⟩ := h.il h0
  calc c.ilFrames * codeK c.code ≤ c.ilFrames * (c.npay * 2) := Nat.mul_le_mul_left _ (by unfold codeK; omega)
    _ = c.ilFrames * c.npay * 2 := (Nat.mul_assoc _ _ _).symm
    _ ≤ 28288 := by omega

end ModemConfig

/-- A valid CFG block is latched with every table at its count: no count passes the limit its table is read up to. -/
theorem readCfg_shaped {s : State} (h : s.readCfg.valid = true) : s.readCfg.Shaped := by
  have b := ModemConfig.bounds_of_valid h
  obtain ⟨-, -, hk⟩ := s.readCfg.code_bounds
  have length {α : Type} (f : Nat → α) {n limit : Nat} (hn : n ≤ limit) :
      ((List.range (min n limit)).map f).length = n := by
    rw [List.length_map, List.length_range, min_eq_left hn]
  exact
    { bins := length _ b.nc
      pilots := length _ b.nc
      uwBits := length _ b.nuwbits
      uwPos := length _ b.nuwbits
      txtPos := length _ b.ntxtbits
      txFilt := length _ b.txFiltLen
      testPattern := length _ hk }

/-! ## The payload symbols -/

/-- In a symbol-closed list the two bits of a symbol stand together (40_control R201 check 13). -/
theorem symbolClosed_pair {l : List Nat} (h : ModemConfig.symbolClosed l = true) (i : Nat) :
    2 * i ∈ l ↔ 2 * i + 1 ∈ l := by
  simp only [ModemConfig.symbolClosed, List.all_eq_true, List.contains_iff_mem] at h
  have heven : Nat.xor (2 * i) 1 = 2 * i + 1 := Nat.xor_one_of_even (even_two_mul i)
  have hodd : Nat.xor (2 * i + 1) 1 = 2 * i := Nat.xor_one_of_odd (odd_two_mul_add_one i)
  exact ⟨fun hm => heven ▸ h _ hm, fun hm => hodd ▸ h _ hm⟩

/-- A list of bit positions made of whole symbols is the pairs of its symbols' bits. -/
theorem perm_flatMap_pairs {l : List Nat} {n : Nat} (hn : l.Nodup) (hlt : ∀ p ∈ l, p < 2 * n)
    (hpair : ∀ i, 2 * i ∈ l ↔ 2 * i + 1 ∈ l) :
    l.Perm (((List.range n).filter fun i => l.contains (2 * i)).flatMap fun i => [2 * i, 2 * i + 1]) := by
  refine (List.perm_ext_iff_of_nodup hn ?nodup).2 fun p => ?mem
  case nodup =>
    refine List.nodup_flatMap.2 ⟨fun i _ => by simp, (List.nodup_range.filter _).imp fun {i j} hij => ?_⟩
    intro x hi hj
    simp only [List.mem_cons, List.not_mem_nil, or_false] at hi hj
    omega
  case mem =>
    simp only [List.mem_flatMap, List.mem_filter, List.mem_range, List.contains_iff_mem, List.mem_cons,
      List.not_mem_nil, or_false]
    constructor
    · intro hp
      have := hlt p hp
      obtain h | h : p = 2 * (p / 2) ∨ p = 2 * (p / 2) + 1 := by omega
      · exact ⟨p / 2, ⟨by omega, h ▸ hp⟩, .inl h⟩
      · exact ⟨p / 2, ⟨by omega, (hpair _).2 (h ▸ hp)⟩, .inr h⟩
    · rintro ⟨i, ⟨-, hi⟩, rfl | rfl⟩
      · exact hi
      · exact (hpair i).1 hi

/-- A frame has NPAY payload symbols (00_scope R10, 45_interleaver R450): the forced bits are whole symbols. -/
theorem payloadSymbols_length {c : ModemConfig} (hv : c.valid = true) (hs : c.Shaped) :
    (payloadSymbols c).length = c.npay := by
  have b := ModemConfig.bounds_of_valid hv
  have hpair (i : Nat) : 2 * i ∈ c.uwPos ++ c.txtPos ↔ 2 * i + 1 ∈ c.uwPos ++ c.txtPos := by
    rw [List.mem_append, List.mem_append, symbolClosed_pair b.uwClosed, symbolClosed_pair b.txtClosed]
  have hforced := (perm_flatMap_pairs b.posNodup (fun p hp => b.bpf_eq ▸ b.posLt p hp) hpair).length_eq
  rw [flatMap_len _ _ 2 (fun _ _ => rfl), List.length_append, hs.uwPos, hs.txtPos] at hforced
  have hsplit := List.length_eq_length_filter_add (l := List.range c.nds)
    (fun i => (c.uwPos ++ c.txtPos).contains (2 * i))
  have hpay : payloadSymbols c = (List.range c.nds).filter fun i => !(c.uwPos ++ c.txtPos).contains (2 * i) := by
    refine List.filter_congr fun i _ => ?_
    simp [List.contains_eq_mem]
  have hnpay : c.npay = c.nds - (c.nuwbits + c.ntxtbits) / 2 := rfl
  rw [hpay, hnpay]
  rw [List.length_range] at hsplit
  omega

end Sys2Proof.Machine
end

section
/-! The modem's invariant through the commands that change a modem: the demodulator (42_demodulator), the sync machine
(43_sync) and the interleaver (45_interleaver). -/

namespace Sys2Proof.Machine

theorem Modem.Inv.bounds {m : Modem} (hm : m.Inv) : m.cfg.Bounds := ModemConfig.bounds_of_valid hm.cfgValid

/-! ## The sample stream -/

theorem append_rx_length {m : Modem} (h : m.rx.length = m.cfg.rxbufLen) (xs : List C64) :
    (m.append xs).rx.length = m.cfg.rxbufLen := by
  simp only [Modem.append, List.length_drop, List.length_append, h]
  omega

/-- The distances from the frame start to the end of the stream at which a frame is emitted (42_demodulator R292). -/
def ModemConfig.LagOk (c : ModemConfig) (lag : Int) : Prop :=
  (c.spf : Int) + c.lookahead ≤ lag ∧ lag ≤ 2 * (c.spf : Int) + c.lookahead - 1

theorem ModemConfig.Bounds.lagOk_two_frames {c : ModemConfig} (h : c.Bounds) : c.LagOk (2 * c.spf) := by
  have hspf := h.spf_pos
  have hl := h.lookahead
  have hl0 := h.lookahead_pos
  unfold LagOk
  omega

/-- The stream is in place where the samples the next command brings make such a distance. -/
theorem streamOk_of_lagOk {m : Modem} {lag : Int} (h : m.cfg.LagOk lag)
    (heq : (m.tAbs : Int) - m.frameStart + m.nin = lag) : m.StreamOk := .inr (heq ▸ h)

/-- The distance once a command's samples are in: one frame right after CREATE, and otherwise one that emits. -/
theorem Modem.Inv.append_lag {m : Modem} (hm : m.Inv) {xs : List C64} (hx : xs.length = m.nin) :
    ((m.append xs).tAbs : Int) - m.frameStart = m.cfg.spf ∨
    m.cfg.LagOk (((m.append xs).tAbs : Int) - m.frameStart) := by
  have ht : ((m.append xs).tAbs : Int) = m.tAbs + m.nin := by rw [← hx]; rfl
  obtain ⟨hf, hn⟩ | hlag := hm.stream
  · left; omega
  · right
    rwa [show ((m.append xs).tAbs : Int) - m.frameStart = m.tAbs - m.frameStart + m.nin by omega]

theorem Modem.Inv.lag_of_emits {m : Modem} (hm : m.Inv) {xs : List C64} (hx : xs.length = m.nin)
    (he : (m.append xs).emits = true) : m.cfg.LagOk (((m.append xs).tAbs : Int) - m.frameStart) := by
  have he : (m.cfg.spf : Int) + m.cfg.lookahead ≤ ((m.append xs).tAbs : Int) - m.frameStart := of_decide_eq_true he
  have hl0 := hm.bounds.lookahead_pos
  exact (hm.append_lag hx).resolve_left (by omega)

theorem Modem.Inv.lag_of_not_emits {m : Modem} (hm : m.Inv) {xs : List C64} (hx : xs.length = m.nin)
    (he : (m.append xs).emits = false) : ((m.append xs).tAbs : Int) - m.frameStart = m.cfg.spf :=
  (hm.append_lag hx).resolve_right fun h => of_decide_eq_false he h.1

/-! ## DEMODULATE and SYNC_SEARCH -/

/-- DEMODULATE without a frame keeps the invariant (42_demodulator R292). -/
theorem Modem.Inv.demodulateQuiet {m : Modem} (hm : m.Inv) {xs : List C64} (hx : xs.length = m.nin)
    (he : (m.append xs).emits = false) :
    ({ m.append xs with outValid := false, nin := m.cfg.spf } : Modem).Inv :=
  { hm with
    rxLen := append_rx_length hm.rxLen xs
    ninNear := ⟨Nat.le_succ _, Nat.le_succ _⟩
    stream := streamOk_of_lagOk hm.bounds.lagOk_two_frames (by
      have hlag := hm.lag_of_not_emits hx he
      show ((m.append xs).tAbs : Int) - m.frameStart + m.cfg.spf = 2 * m.cfg.spf
      omega)
    outCounted := nofun }

/-- What an emission writes, and nothing else of the modem (42_demodulator R300). -/
theorem emit_frame (m : Modem) : m.emit.2 = { m with
    timingMx := m.emit.2.timingMx, driftAcc := m.fineTiming.2.driftAcc, outSigma2 := m.emit.2.outSigma2
    snrDb := m.emit.2.snrDb, foffEst := m.emit.2.foffEst, foffPhase := m.emit.2.foffPhase
    prevPilot := m.emit.2.prevPilot, prevValid := true, frameStart := m.frameStart + (m.cfg.spf + m.fineTiming.1)
    nin := (m.cfg.spf + m.fineTiming.1).toNat, clkAdjSum := m.emit.2.clkAdjSum, clkSamples := m.emit.2.clkSamples
    clockPpm := m.emit.2.clockPpm, outZ := m.emit.2.outZ, outA := m.emit.2.outA, outPhi := m.emit.2.outPhi
    outBits := m.emit.2.outBits, uwErrs := m.emit.2.uwErrs, outValid := true, frameCount := m.frameCount + 1 } := by
  have hft := (fineTiming_spec m).2.2
  unfold Modem.emit
  generalize m.fineTiming = ft at hft ⊢
  obtain ⟨adj, m1⟩ := ft
  obtain ⟨mx, drift, rfl⟩ : ∃ mx drift, m1 = { m with timingMx := mx, driftAcc := drift } := ⟨_, _, hft⟩
  rfl

theorem emit_prevPilot_length {m : Modem} (hm : m.cfg.Shaped) (hns : 2 ≤ m.cfg.ns) :
    m.emit.2.prevPilot.length = m.cfg.nc := by
  have hrow (xd : List C64) (f : Nat → Nat) : (pilotRemoved m.cfg
      (((List.range m.cfg.ns).map fun r => dftRow m.cfg xd (f r)).getD 0 [])).length = m.cfg.nc := by
    rw [List.getD_eq_getElem _ _ (by simp; omega)]
    simp [pilotRemoved, dftRow, hm.bins, hm.pilots]
  exact hrow _ _

/-- DEMODULATE with a frame keeps the invariant: the frame start moves by what the next command brings (42_demodulator
R292, R301, R310). -/
theorem Modem.Inv.emit {m : Modem} (hm : m.Inv) {xs : List C64} (hx : xs.length = m.nin)
    (he : (m.append xs).emits = true) : (m.append xs).emit.2.Inv := by
  have hlag := hm.lag_of_emits hx he
  have hp := hm.bounds.spf_pos
  have hadj := (fineTiming_spec (m.append xs)).1
  obtain ⟨hz, ha, hphi, hbits⟩ := emit_lengths (m.append xs)
  have hpilot : (m.append xs).emit.2.prevPilot.length = m.cfg.nc :=
    emit_prevPilot_length (m := m.append xs) hm.cfgShaped hm.bounds.ns
  rw [emit_frame]
  exact
    { hm with
      rxLen := append_rx_length hm.rxLen xs
      ninNear := by
        show m.cfg.spf ≤ ((m.cfg.spf : Int) + (m.append xs).fineTiming.1).toNat + 1 ∧
          ((m.cfg.spf : Int) + (m.append xs).fineTiming.1).toNat ≤ m.cfg.spf + 1
        omega
      stream := streamOk_of_lagOk hlag (by
        show ((m.append xs).tAbs : Int) - (m.frameStart + (m.cfg.spf + (m.append xs).fineTiming.1)) +
          ((m.cfg.spf : Int) + (m.append xs).fineTiming.1).toNat = ((m.append xs).tAbs : Int) - m.frameStart
        omega)
      noDrift := fun h => (fineTiming_noDrift (m := m.append xs) h hm.bounds.timingGain (hm.noDrift h)).2
      pilotLen := hpilot
      outLen := ⟨hz, ha, hphi, by rw [hbits, demapBits_length, hz]; exact hm.bounds.bpf_eq.symm⟩
      lastLe := hm.lastLe.trans (Nat.le_succ _)
      outCounted := fun _ => Nat.le_add_left _ _ }

/-- SYNC_SEARCH picks an offset of its window (42_demodulator R320). -/
theorem searchBest_mem {m : Modem} (h : 1 ≤ m.cfg.spf) : 0 ≤ m.searchBest.1 ∧ m.searchBest.1 < m.cfg.spf := by
  have hbest := bestOf_first m m.searchLo 0 ((List.range (m.cfg.spf - 1)).map fun (k : Nat) => ((k : Int) + 1))
  rw [Int.add_zero] at hbest
  obtain ⟨-, -, pre, post, hmem, -⟩ := hbest
  have hmem : m.searchBest.1 ∈ 0 :: (List.range (m.cfg.spf - 1)).map fun (k : Nat) => ((k : Int) + 1) := by
    rw [hmem]
    exact List.mem_append_right _ List.mem_cons_self
  simp only [List.mem_cons, List.mem_map, List.mem_range] at hmem
  obtain h0 | ⟨k, hk, h0⟩ := hmem <;> omega

/-- SYNC_SEARCH keeps the invariant: found or not, the frame start lies in the range the emission needs (42_demodulator
R292, R320). -/
theorem Modem.Inv.search {m : Modem} (hm : m.Inv) (xs : List C64) : (searchModem (m.append xs)).Inv := by
  obtain ⟨hb0, hb1⟩ := searchBest_mem (m := m.append xs) hm.bounds.spf_pos
  have hfound : m.cfg.LagOk (2 * m.cfg.spf + m.cfg.lookahead - 1 - (m.append xs).searchBest.1) := by
    have hb1 : (m.append xs).searchBest.1 < m.cfg.spf := hb1
    unfold ModemConfig.LagOk
    omega
  unfold searchModem
  split
  case isTrue =>
    exact
      { hm with
        rxLen := append_rx_length hm.rxLen xs
        ninNear := ⟨Nat.le_succ _, Nat.le_succ _⟩
        stream := streamOk_of_lagOk hfound (by
          show ((m.append xs).tAbs : Int) - (((m.append xs).tAbs : Int) - m.cfg.spf - m.cfg.lookahead + 1 +
            (m.append xs).searchBest.1) + m.cfg.spf = _
          omega)
        noDrift := fun _ => (by decide : Fp.isZero Fp.zero = true)
        outCounted := nofun }
  case isFalse =>
    exact
      { hm with
        rxLen := append_rx_length hm.rxLen xs
        ninNear := ⟨Nat.le_succ _, Nat.le_succ _⟩
        stream := streamOk_of_lagOk hm.bounds.lagOk_two_frames (by
          show ((m.append xs).tAbs : Int) - (((m.append xs).tAbs : Int) - m.cfg.spf) + m.cfg.spf = 2 * m.cfg.spf
          omega)
        outCounted := nofun }

/-- The transmit filter's history keeps its length (41_modulator R256). -/
theorem nextHist_length {hist : List C64} (h : hist.length = 127) (v : List C64) : (nextHist hist v).length = 127 := by
  simp [nextHist, h]

/-! ## The sync machine -/

/-- `enter_searching` restores the invariant under any policy (43_sync R368). -/
theorem Modem.Inv.enterSearching {m : Modem} (hm : m.Inv) (p : Policy) (d : Bool) :
    (({ m with policy := p } : Modem).enterSearching d).Inv :=
  { hm with
    unsynced := fun _ => rfl
    searching := fun _ => ⟨rfl, rfl, rfl, rfl, rfl⟩
    trial := nofun
    ringLen := Nat.zero_le _
    ringShape := nofun
    ringFull := fun h => absurd rfl h
    sinceLt := fun h => absurd rfl h
    ilTrial := nofun
    berLe := by
      show (if d then 0 else m.berErrs) ≤ if d then 0 else m.berBits
      split
      · exact Nat.le_refl 0
      · exact hm.berLe }

/-- In Synced the counters are free (43_sync R361 rows 9, 11, 12). -/
theorem Modem.Inv.syncedCounts {m : Modem} (hm : m.Inv) (hs : m.syncState = .synced) (good bad : Nat) :
    ({ m with good := good, bad := bad } : Modem).Inv :=
  { hm with
    searching := fun h => nomatch hs.symm.trans h
    trial := fun h => nomatch hs.symm.trans h }

/-- Every row of 43_sync R361 keeps the invariant. -/
theorem Modem.Inv.syncStep {m : Modem} (hm : m.Inv) (d : Bool) (ev : SyncEvent) : (m.syncStep d ev).Inv := by
  unfold Modem.syncStep syncRow
  split
  case h_1 => exact hm.enterSearching m.policy d
  case h_2 hs hpol =>
    split
    · exact
        { hm with
          unsynced := fun h => absurd h hpol
          searching := nofun
          trial := fun _ => ⟨hm.bounds.trialFrames, rfl⟩ }
    · exact hm
  case h_3 => exact hm
  case h_4 hs hpol =>
    split
    · split
      · exact
          { hm with
            unsynced := fun h => absurd h hpol
            searching := nofun
            trial := nofun }
      · exact
          { hm with
            searching := fun h => nomatch hs.symm.trans h
            trial := fun h => ⟨by show m.good + 1 < m.cfg.trialFrames; omega, (hm.trial h).2⟩ }
    · exact hm.enterSearching m.policy d
  case h_5 => exact hm
  case h_6 hs =>
    split
    · exact hm.syncedCounts hs _ _
    · split
      · exact hm.enterSearching m.policy d
      · exact hm.syncedCounts hs _ _
  case h_7 hs =>
    split
    · exact hm.syncedCounts hs _ _
    · exact hm.syncedCounts hs _ _

/-- SET_SYNC_POLICY keeps the invariant: Unsynced comes with Searching (40_control R210). -/
theorem Modem.Inv.setPolicy {m : Modem} (hm : m.Inv) (p : Policy) (d : Bool) : (m.setPolicy p d).Inv := by
  unfold Modem.setPolicy
  split
  · exact hm.enterSearching p d
  · rename_i hp
    exact { hm with unsynced := fun h => absurd h hp }

end Sys2Proof.Machine
end

section
/-! The modem's invariant through IL_PUSH (45_interleaver): the push of a frame record, a block attempt, the interleaver's
state machine and the BER count. -/

namespace Sys2Proof.Machine

/-! ## The push (R460) -/

theorem mayPush_sync {m : Modem} (h : m.mayPush = true) : m.syncState ≠ .searching := by
  simp only [Modem.mayPush, Bool.and_eq_true, decide_eq_true_eq] at h
  exact h.1.1

/-- A push fills the ring by one record and then keeps it full. -/
theorem pushFrame_ring_length {m : Modem} (h : m.ilRing.length ≤ m.cfg.ilFrames) :
    m.pushFrame.ilRing.length = min (m.ilRing.length + 1) m.cfg.ilFrames := by
  simp only [Modem.pushFrame, List.length_append, List.length_singleton]
  split
  · rw [List.length_drop, List.length_append, List.length_singleton]; omega
  · rw [List.length_append, List.length_singleton]; omega

theorem mem_pushFrame_ring {m : Modem} {r : IlRecord} (h : r ∈ m.pushFrame.ilRing) :
    r ∈ m.ilRing ∨ r = m.frameRecord := by
  have hmem : r ∈ m.ilRing ++ [m.frameRecord] := by
    simp only [Modem.pushFrame] at h
    split at h
    · exact List.mem_of_mem_drop h
    · exact h
  simpa using hmem

/-- A push keeps the invariant, but for the count of frames since the last attempt (R460, R462). -/
theorem Modem.Inv.pushFrame {m : Modem} (hm : m.Inv) (hsync : m.syncState ≠ .searching) {since : Nat}
    (hsince : m.ilState ≠ .search → since < m.cfg.ilFrames) :
    ({ m.pushFrame with ilSince := since } : Modem).Inv :=
  { hm with
    searching := fun h => absurd h hsync
    ringLen := by
      show m.pushFrame.ilRing.length ≤ m.cfg.ilFrames
      rw [pushFrame_ring_length hm.ringLen]
      exact min_le_right _ _
    ringShape := fun r hr => by
      obtain hr | rfl := mem_pushFrame_ring hr
      · exact hm.ringShape r hr
      · simp [Modem.frameRecord, payloadSymbols_length hm.cfgValid hm.cfgShaped, Modem.pushFrame]
    ringFull := fun h => by
      show m.pushFrame.ilRing.length = m.cfg.ilFrames
      rw [pushFrame_ring_length hm.ringLen, hm.ringFull h]
      exact min_eq_right (Nat.le_succ _)
    sinceLt := hsince
    lastLe := Nat.le_refl _ }

/-- A push without an attempt keeps the invariant (R460). -/
theorem Modem.Inv.pushQuiet {m : Modem} (hm : m.Inv) (hsync : m.syncState ≠ .searching)
    (ha : m.pushFrame.attempts = false) : m.pushFrame.Inv :=
  hm.pushFrame hsync fun hs => by
    have hlt := hm.sinceLt hs
    have hne : m.ilSince + 1 ≠ m.cfg.ilFrames := by
      simp only [Modem.attempts, Bool.or_eq_false_iff, Bool.and_eq_false_iff, decide_eq_false_iff_not] at ha
      exact ha.2.resolve_left (not_not_intro hs)
    omega

/-! ## A block attempt (R453) -/

/-- The least of a list of counts is one of them. -/
theorem minOf_mem {l : List Nat} (h : l ≠ []) : minOf l ∈ l := by
  cases l with
  | nil => exact absurd rfl h
  | cons x xs => exact List.min?_mem (xs := x :: xs) rfl

theorem minOf_le {l : List Nat} {b : Nat} (h : ∀ x ∈ l, x ≤ b) : minOf l ≤ b := by
  cases l with
  | nil => exact Nat.zero_le b
  | cons x xs => exact h _ (minOf_mem nofun)

/-- The decodes of a block: one per codeword, each of the code's length. -/
theorem blockDecodes_length (m : Modem) : m.blockDecodes.length = m.cfg.ilFrames := by simp [Modem.blockDecodes]

theorem blockDecodes_spec {m : Modem} {d : Decoded} (h : d ∈ m.blockDecodes) :
    d.hard.length = m.cfg.code.n ∧ d.pass ≤ m.cfg.code.m := by
  obtain ⟨j, -, rfl⟩ := List.mem_map.1 h
  obtain ⟨hlen, hpass, -⟩ := bpDecode_spec m.cfg.code (bpParams m.cfg m.cfg.decType)
    (codewordLlrs m.cfg m.blockSymbols j) m.cfg.code.maxIter
  exact ⟨hlen, hpass ▸ passCount_le _ _⟩

/-- An attempt's results keep the invariant (R453): whole codewords of data bits, and the least pass count. -/
theorem Modem.Inv.storeAttempt {m : Modem} (hm : m.Inv) (h0 : m.cfg.ilFrames ≠ 0) :
    (m.storeAttempt m.blockDecodes).Inv :=
  { hm with
    decLen := by
      show (m.blockDecodes.flatMap fun d => d.hard.take (codeK m.cfg.code)).length = _
      rw [flatMap_len _ _ (codeK m.cfg.code), blockDecodes_length]
      · rfl
      · intro d hd
        rw [List.length_take, (blockDecodes_spec hd).1]
        exact min_eq_left (Nat.sub_le _ _)
    passLe := minOf_le fun x hx => by
      obtain ⟨d, hd, rfl⟩ := List.mem_map.1 hx
      exact (blockDecodes_spec hd).2
    convPass := fun h => by
      have hne : m.blockDecodes.map Decoded.pass ≠ [] := by
        rw [ne_eq, List.map_eq_nil_iff, ← List.length_eq_zero_iff, blockDecodes_length]
        exact h0
      obtain ⟨d, hd, hpass⟩ := List.mem_map.1 (minOf_mem hne)
      exact ⟨rfl, hpass.symm.trans (of_decide_eq_true (List.all_eq_true.1 h d hd))⟩ }

/-! ## The interleaver's state machine (R461, R462) -/

/-- Outside search every row ends the count of frames since the last attempt, whatever it was (R462). Unsynced, for which
the table has no row, comes with Searching. -/
theorem ilStep_since {m : Modem} (hs : m.ilState ≠ .search) (hp : m.policy ≠ .unsynced) (good : Bool) :
    m.ilStep good = ({ m with ilSince := 0 } : Modem).ilStep good := by
  unfold Modem.ilStep ilRow
  dsimp only
  split
  case h_1 h => exact absurd h hs
  case h_2 h => exact absurd h hs
  case h_8 h => exact absurd h hp
  case h_3 => split <;> rfl
  case h_6 => split <;> rfl
  all_goals rfl

/-- After an attempt, which the ring is full for, the state and the counters may move to any that keep the trial's limit. -/
theorem Modem.Inv.ilMove {m : Modem} (hm : m.Inv) (hsync : m.syncState ≠ .searching) (h0 : m.cfg.ilFrames ≠ 0)
    (hfull : m.ilRing.length = m.cfg.ilFrames) {st : IlState} {good bad : Nat}
    (htrial : st = .trial → good < m.cfg.ilTrialBlocks ∧ bad = 0) :
    ({ m with ilState := st, ilGood := good, ilBad := bad, ilSince := 0 } : Modem).Inv :=
  { hm with
    searching := fun h => absurd h hsync
    ringFull := fun _ => hfull
    sinceLt := fun _ => Nat.pos_of_ne_zero h0
    ilTrial := htrial }

/-- Every row of R461 keeps the invariant where an attempt runs: synchronized, with a full ring. -/
theorem Modem.Inv.ilStep {m : Modem} (hm : m.Inv) (hsync : m.syncState ≠ .searching) (h0 : m.cfg.ilFrames ≠ 0)
    (hfull : m.ilRing.length = m.cfg.ilFrames) (good : Bool) : (m.ilStep good).Inv := by
  have move {st : IlState} {good bad : Nat} (h : st = .trial → good < m.cfg.ilTrialBlocks ∧ bad = 0) :=
    hm.ilMove hsync h0 hfull h
  unfold Modem.ilStep ilRow
  split
  case h_1 => exact move fun _ => ⟨(hm.bounds.il h0).2.2, rfl⟩
  case h_2 => exact hm
  case h_3 =>
    split
    · exact move nofun
    · exact move fun h => ⟨by omega, (hm.ilTrial h).2⟩
  case h_4 => exact move nofun
  case h_5 hs => exact move fun h => nomatch hs.symm.trans h
  case h_6 hs _ =>
    split
    · exact move nofun
    · exact move fun h => nomatch hs.symm.trans h
  case h_7 hs _ => exact move fun h => nomatch hs.symm.trans h
  case h_8 => exact hm

/-! ## The BER count and the whole attempt (R453, R460, R470) -/

/-- No more bits differ from the pattern than are counted (R470). -/
theorem Modem.Inv.berCount {m : Modem} (hm : m.Inv) : m.berCount.Inv :=
  { hm with
    berLe := by
      have herr : berErrors (codeK m.cfg.code) m.cfg.testPattern m.ilDecBits ≤ m.cfg.ilFrames * codeK m.cfg.code :=
        List.countP_le_length.trans (by rw [List.length_range, hm.decLen])
      exact Nat.add_le_add hm.berLe herr }

theorem Modem.Inv.afterAttempt {m : Modem} (hm : m.Inv) (hsync : m.syncState ≠ .searching) (h0 : m.cfg.ilFrames ≠ 0)
    (hfull : m.ilRing.length = m.cfg.ilFrames) (b : Bool) : (m.afterAttempt b).Inv := by
  have hstep := (hm.storeAttempt h0).ilStep hsync h0 hfull (goodBlock m.cfg m.blockDecodes)
  unfold Modem.afterAttempt
  dsimp only
  split
  · exact hstep.berCount
  · exact hstep

/-- A push with an attempt keeps the invariant (R460, R462): outside search the attempt ends the count that has reached
IL_FRAMES. -/
theorem Modem.Inv.pushAttempt {m : Modem} (hm : m.Inv) (hsync : m.syncState ≠ .searching) (h0 : m.cfg.ilFrames ≠ 0)
    (ha : m.pushFrame.attempts = true) (b : Bool) : (m.pushFrame.afterAttempt b).Inv := by
  by_cases hs : m.ilState = .search
  · have hfull : m.pushFrame.ilRing.length = m.cfg.ilFrames := by
      simp only [Modem.attempts, Bool.or_eq_true, Bool.and_eq_true, decide_eq_true_eq] at ha
      exact (ha.resolve_right fun h => h.1 hs).2
    exact (hm.pushFrame hsync fun h => absurd hs h).afterAttempt hsync h0 hfull b
  · have hreset := hm.pushFrame hsync fun _ => Nat.pos_of_ne_zero h0
    have hpol : m.policy ≠ .unsynced := fun h => hsync (hm.unsynced h)
    have heq : m.pushFrame.afterAttempt b = ({ m.pushFrame with ilSince := 0 } : Modem).afterAttempt b := by
      unfold Modem.afterAttempt
      dsimp only
      rw [ilStep_since (m := m.pushFrame.storeAttempt _) hs hpol]
      rfl
    rw [heq]
    exact hreset.afterAttempt hsync h0 (hreset.ringFull hs) b

end Sys2Proof.Machine
end

section
/-! Every step keeps the machine's invariant: the parts a command keeps in its own way (memory, NONCONV, the modem), the
registers, and the three kinds of turn (60_exceptions R540). -/

namespace Sys2Proof.Machine

/-! ## Memory confined to the windows (20_memory R121, R131) -/

/-- Canonical memory confined to the windows. -/
structure Memory.Windowed (mem : List Host.Cell) : Prop where
  wf : Memory.wf mem = true
  within : ∀ p ∈ mem, cfgBase ≤ p.1 ∧ p.1 < windowEnd

theorem Memory.Windowed.setBytes {mem : List Host.Cell} (h : Memory.Windowed mem) {x : Nat} {bs : List Byte}
    (hlo : cfgBase ≤ x) (hhi : x + bs.length ≤ windowEnd) : Memory.Windowed (Memory.setBytes mem x bs) where
  wf := Memory.setBytes_wf h.wf
  within := fun p hp => (Memory.mem_setBytes hp).elim (fun h => ⟨by omega, by omega⟩) (h.within p)

/-- The part of the invariant each command keeps in its own way: memory, and NONCONV clear while unset. -/
structure State.Stored (s : State) : Prop where
  windowed : Memory.Windowed s.mem
  nonconv : s.nonconv = true → s.configured = true

theorem State.Inv.stored {s : State} (hs : s.Inv) : s.Stored := ⟨⟨hs.memWf, hs.memIn⟩, hs.nonconvConfigured⟩

theorem State.Stored.completeError {s : State} (hs : s.Stored) (code : ErrCode) : (s.completeError code).Stored :=
  ⟨hs.windowed, hs.nonconv⟩

theorem State.Stored.completeOk {s : State} (hs : s.Stored) : s.completeOk.Stored := ⟨hs.windowed, hs.nonconv⟩

theorem State.Stored.needModem {s : State} {f : Modem → State} (hs : s.Stored)
    (hf : ∀ m, s.modem = some m → (f m).Stored) : (s.needModem f).Stored := by
  unfold State.needModem
  split
  · exact hf _ ‹_›
  · exact hs.completeError _

theorem State.Stored.destroyBody {s : State} (hs : s.Stored) : s.destroyBody.Stored := by
  unfold State.destroyBody
  split
  · exact ⟨hs.windowed, nofun⟩
  · exact hs

theorem State.Stored.updateModem {s : State} (hs : s.Stored) (f : Modem → Modem) : (s.updateModem f).Stored :=
  hs.needModem fun _ _ => ⟨hs.windowed, fun _ => rfl⟩

theorem State.Stored.withStream {s : State} {f : Modem → State} (hs : s.Stored)
    (hf : ∀ m, s.modem = some m → (f (m.append (s.inputSamples m.nin))).Stored) : (s.withStream f).Stored := by
  refine hs.needModem fun m hm => ?_
  split_ifs
  · exact hs.completeError _
  · exact hs.completeError _
  · exact hf m hm

/-- MODULATE writes a frame of SPF samples, for which SAMPLE_OUT has room (41_modulator R250). -/
theorem modulateFrame_stored {s : State} {m : Modem} (hs : s.Stored) (hm : m.Inv) : (s.modulateFrame m).Stored where
  windowed := by
    have hspf := hm.bounds.spf
    refine hs.windowed.setBytes (by decide) ?_
    rw [flatMap_len _ _ 8 fun u _ => sampleBytes_length u, List.length_map, txFilter_length,
      frameSamples_length _ _ _ hm.bounds.ncp (Nat.le_of_succ_le hm.bounds.ns)]
    unfold sampleOutBase windowEnd
    omega
  nonconv := fun _ => rfl

theorem symBytes_length_le (e : Emission) : e.symBytes.length ≤ e.z.length * 16 := by
  unfold Emission.symBytes
  rw [flatMap_len _ _ 16 fun p _ => symbolBytes_length _ _ _, List.length_zip]
  exact Nat.mul_le_mul_right 16 (min_le_left _ _)

/-- DEMODULATE writes NDS symbol records and two bits each, for which SYM_OUT and BIT_OUT have room (42_demodulator
R313). -/
theorem demodulateFrame_stored {s : State} {m : Modem} (hs : s.Stored) (hm : m.cfg.Bounds) :
    (s.demodulateFrame m).Stored := by
  unfold State.demodulateFrame
  split
  · obtain ⟨hz, -, -, hbits⟩ := emit_lengths m
    obtain ⟨hez, -, -, heb⟩ := emit_out m
    have hnds := hm.nds
    refine ⟨(hs.windowed.setBytes (by decide) ?syms).setBytes (by decide) ?bits, fun _ => rfl⟩
    case syms =>
      have := symBytes_length_le m.emit.1
      rw [hez, hz] at this
      unfold symOutBase windowEnd
      omega
    case bits =>
      rw [List.length_map, heb, hbits, demapBits_length, hz]
      unfold bitOutBase windowEnd
      omega
  · exact ⟨hs.windowed, fun _ => rfl⟩

/-- IL_PUSH writes the data bits of a block, for which DEC_OUT has room (45_interleaver R453). -/
theorem execIlPush_stored {s t : State} (hs : s.Inv) (h : exec .ilPush s = .next t) : t.Stored := by
  obtain rfl := Host.Outcome.next.inj h
  refine hs.stored.needModem fun m hm => ?_
  have hinv := hs.modemInv m hm
  split_ifs with h0 hpush
  · exact hs.stored.completeError _
  · dsimp only
    split_ifs with hatt
    · have hlen := (hinv.pushAttempt (mayPush_sync hpush) h0 hatt s.berTestEn).decLen
      rw [afterAttempt_cfg] at hlen
      have hroom := hinv.bounds.block_le
      refine ⟨hs.stored.windowed.setBytes (by decide) ?_, fun _ => rfl⟩
      rw [List.length_map, hlen]
      unfold decOutBase windowEnd
      show _ + m.cfg.ilFrames * codeK m.cfg.code ≤ _
      omega
    · exact ⟨hs.stored.windowed, fun _ => rfl⟩
  · exact ⟨hs.stored.windowed, fun _ => rfl⟩

/-- The code tables' sizes leave room for a codeword in BIT_OUT (44_ldpc R401). -/
theorem codeTable_sizes (slot : Nat) : (codeTable slot).m ≤ 32768 ∧ (codeTable slot).n ≤ 32768 := by
  obtain ⟨-, -, -, -, -, -, -, -, ⟨-, hn, -, hmn, -⟩, -⟩ := (codeWf_iff _).1 (codeTable_cases slot).1
  exact ⟨hmn.trans hn, hn⟩

theorem writeBits_windowed {s : State} (hs : s.Stored) {bs : List Bool} (h : bs.length ≤ 32768) :
    Memory.Windowed (s.writeBits bitOutBase bs).mem :=
  hs.windowed.setBytes (by decide) (by rw [List.length_map]; unfold bitOutBase windowEnd; omega)

/-- Every command leaves canonical memory within the windows, and NONCONV clear where the modem is unset. -/
theorem exec_stored {i : Instr} {s t : State} (hs : s.Inv) (h : exec i s = .next t) : t.Stored := by
  have hst := hs.stored
  cases i with
  | ilPush => exact execIlPush_stored hs h
  | create =>
    obtain rfl := Host.Outcome.next.inj h
    unfold State.create
    split
    · exact ⟨hst.destroyBody.windowed, nofun⟩
    · exact hst.destroyBody.completeError _
  | destroy =>
    obtain rfl := Host.Outcome.next.inj h
    exact hst.destroyBody.completeOk
  | modulate =>
    obtain rfl := Host.Outcome.next.inj h
    refine hst.needModem fun m hm => ?_
    split_ifs
    · exact hst.completeError _
    · exact hst.completeError _
    · exact modulateFrame_stored hst (hs.modemInv m hm)
  | demodulate =>
    obtain rfl := Host.Outcome.next.inj h
    exact hst.withStream fun m hm => demodulateFrame_stored hst (hs.modemInv m hm).bounds
  | syncSearch =>
    obtain rfl := Host.Outcome.next.inj h
    exact hst.withStream fun m hm => ⟨hst.windowed, fun _ => rfl⟩
  | ldpcEncode slot =>
    obtain rfl := Host.Outcome.next.inj h
    split
    · exact ⟨writeBits_windowed hst (by rw [encodeParity_length]; exact (codeTable_sizes _).1), hst.nonconv⟩
    · exact hst.completeError _
  | ldpcDecode slot =>
    obtain rfl := Host.Outcome.next.inj h
    split
    · refine hst.needModem fun m hm => ?_
      dsimp only
      split_ifs
      · exact hst.completeError _
      · exact hst.completeError _
      · exact hst.completeError _
      · exact hst.completeError _
      · refine ⟨writeBits_windowed hst ?_, fun _ => congrArg Option.isSome hm⟩
        rw [(bpDecode_spec _ _ _ _).1]
        exact (codeTable_sizes _).2
    · exact hst.completeError _
  | getNin =>
    obtain rfl := Host.Outcome.next.inj h
    exact hst.needModem fun _ _ => ⟨hst.windowed, hst.nonconv⟩
  | getStats =>
    obtain rfl := Host.Outcome.next.inj h
    exact hst.needModem fun _ _ => ⟨hst.windowed, hst.nonconv⟩
  | berReset =>
    obtain rfl := Host.Outcome.next.inj h
    exact hst.needModem fun _ _ => ⟨hst.windowed, fun _ => rfl⟩
  | runSyncSm src =>
    obtain rfl := Host.Outcome.next.inj h
    exact hst.needModem fun _ _ => ⟨by simpa using hst.windowed, fun _ => by simp [State.configured]⟩
  | setSyncPolicy p =>
    obtain rfl := Host.Outcome.next.inj h
    exact hst.needModem fun _ _ => ⟨by simpa using hst.windowed, fun _ => by simp [State.configured]⟩
  | setPhaseBw b => exact Host.Outcome.next.inj h ▸ hst.updateModem _
  | enableTiming f => exact Host.Outcome.next.inj h ▸ hst.updateModem _
  | enableFreq f => exact Host.Outcome.next.inj h ▸ hst.updateModem _
  | enablePhase f => exact Host.Outcome.next.inj h ▸ hst.updateModem _
  | setDpsk f => exact Host.Outcome.next.inj h ▸ hst.updateModem _

/-! ## The modem a command leaves -/

/-- Every modem a command leaves satisfies the invariant: case by case, the lemma of the operation it comes from. -/
theorem exec_modemInv {i : Instr} {s t : State} (hs : s.Inv) (h : exec i s = .next t) :
    ∀ m, t.modem = some m → m.Inv := by
  intro m' hm'
  obtain hsame | ⟨rfl, hv⟩ | ⟨m, hm, hcase⟩ := modem_cases h hm'
  · exact hs.modemInv m' hsame
  · exact fresh_inv hv (readCfg_shaped hv)
  have hinv := hs.modemInv m hm
  obtain ⟨v, rfl⟩ | ⟨xs, hx, ⟨he, rfl⟩ | ⟨he, rfl⟩ | rfl⟩ | ⟨d, ev, rfl⟩ | ⟨d, p, rfl⟩ | ⟨b, t, f, p, d, rfl⟩ |
    ⟨h0, hpush, ⟨ha, rfl⟩ | ⟨b, ha, rfl⟩⟩ | rfl := hcase
  · exact { hinv with histLen := nextHist_length hinv.histLen v }
  · exact hinv.emit hx he
  · exact hinv.demodulateQuiet hx he
  · exact hinv.search xs
  · exact hinv.syncStep d ev
  · exact hinv.setPolicy p d
  · exact { hinv with }
  · exact hinv.pushQuiet (mayPush_sync hpush) ha
  · exact hinv.pushAttempt (mayPush_sync hpush) h0 ha b
  · exact { hinv with berLe := Nat.le_refl 0 }

/-! ## Registers -/

/-- Bits 31:4 stay 0 under an OR (10_state R50). -/
theorem lowFour_or {a b : Word} (ha : lowFour a = a) (hb : lowFour b = b) : lowFour (a ||| b) = a ||| b := by
  unfold lowFour at *
  rw [BitVec.and_or_distrib_right, ha, hb]

/-- Bits 31:4 stay 0 under any mask. -/
theorem lowFour_and {a : Word} (ha : lowFour a = a) (b : Word) : lowFour (a &&& b) = a &&& b := by
  unfold lowFour at *
  rw [BitVec.and_assoc, BitVec.and_comm b, ← BitVec.and_assoc, ha]

theorem lowFour_lowFour (a : Word) : lowFour (lowFour a) = lowFour a := by
  unfold lowFour
  rw [BitVec.and_assoc, BitVec.and_self]

/-- An effect before completion leaves the pending bits 31:4 at 0 (60_exceptions R520). -/
theorem Kept.irqPend_low {i : Instr} {s u : State} (h : Kept i s u) (hs : lowFour s.irqPend = s.irqPend) :
    lowFour u.irqPend = u.irqPend := by
  rw [h.2]
  refine lowFour_or (lowFour_or hs ?_) ?_
  · split_ifs <;> decide
  · split_ifs <;> decide

/-- Every command keeps the machine's invariant: its completion settles the status and the pending bits (60_exceptions
R501, R503), the host's side stays, and the rest is `exec_stored` and `exec_modemInv`. -/
theorem exec_inv {i : Instr} {s t : State} (hs : s.Inv) (h : exec i s = .next t) : t.Inv := by
  have hst := exec_stored hs h
  have hmod := exec_modemInv hs h
  have hdone : lowFour irqDone = irqDone := by decide
  have herr : lowFour irqErr = irqErr := by decide
  obtain ⟨-, code, hcode, he⟩ | ⟨rfl, he⟩ | ⟨u, hu, he⟩ := exec_cases i s
  · obtain rfl := Host.Outcome.next.inj (he.symm.trans h)
    exact
      { hs with
        irqPendLow := lowFour_or (lowFour_or hs.irqPendLow hdone) herr
        busyClear := nofun
        errCoded := fun _ => ⟨rfl, hcode⟩ }
  · obtain rfl := Host.Outcome.next.inj (he.symm.trans h)
    obtain ⟨hctrl, -, -, -, -, hirqEn, -, hcmdCtrl, hfaulted, hreason, -⟩ :=
      (destroyBody_kept (i := .create) s nofun rfl).1
    exact
      { memWf := hst.windowed.wf
        memIn := hst.windowed.within
        ctrlLow := by simpa [hctrl] using hs.ctrlLow
        cmdCtrlLow := by simpa [hcmdCtrl] using hs.cmdCtrlLow
        irqEnLow := by simpa [hirqEn] using hs.irqEnLow
        irqPendLow := by simpa [destroyBody_irqPend] using lowFour_or (lowFour_or hs.irqPendLow hdone) herr
        faultKnown := by simpa [hfaulted, hreason] using hs.faultKnown
        busyClear := nofun
        errCoded := fun _ => ⟨rfl, nofun⟩
        nonconvConfigured := hst.nonconv
        modemInv := hmod }
  · obtain rfl := Host.Outcome.next.inj (he.symm.trans h)
    obtain ⟨hctrl, -, -, -, -, hirqEn, -, hcmdCtrl, hfaulted, hreason, -⟩ := hu.1
    exact
      { memWf := hst.windowed.wf
        memIn := hst.windowed.within
        ctrlLow := by simpa [hctrl] using hs.ctrlLow
        cmdCtrlLow := by simpa [hcmdCtrl] using hs.cmdCtrlLow
        irqEnLow := by simpa [hirqEn] using hs.irqEnLow
        irqPendLow := lowFour_or (hu.irqPend_low hs.irqPendLow) hdone
        faultKnown := by simpa [hfaulted, hreason] using hs.faultKnown
        busyClear := nofun
        errCoded := nofun
        nonconvConfigured := hst.nonconv
        modemInv := hmod }

/-! ## The three kinds of turn -/

/-- The queue of turns is no part of the invariant. -/
theorem State.Inv.withTurns {s : State} (hs : s.Inv) (rest : List Turn) : ({ s with turns := rest } : State).Inv :=
  { hs with }

theorem State.Inv.coreStep {s t : State} (hs : s.Inv) (h : coreStep s = .next t) : t.Inv := by
  unfold Machine.coreStep at h
  split at h
  · split at h
    · exact exec_inv hs h
    · obtain rfl := Host.Outcome.next.inj h
      exact
        { hs with
          irqPendLow := lowFour_or (lowFour_or hs.irqPendLow (by decide)) (by decide)
          busyClear := nofun
          errCoded := fun _ => ⟨rfl, nofun⟩ }
  · obtain rfl := Host.Outcome.next.inj h
    exact hs

/-- Every register write keeps the invariant (20_memory R129). -/
theorem State.Inv.writeReg {s : State} (hs : s.Inv) (off : Nat) (v : Word) : (s.writeReg off v).Inv := by
  unfold State.writeReg
  split
  case h_1 => exact { hs with ctrlLow := lowFour_lowFour v }
  case h_2 => exact { hs with cmdCtrlLow := hs.ctrlLow, busyClear := fun _ => ⟨rfl, rfl⟩, errCoded := nofun }
  case h_7 => exact { hs with irqEnLow := lowFour_lowFour v }
  case h_8 => exact { hs with irqPendLow := lowFour_and hs.irqPendLow _ }
  all_goals exact { hs with }

/-- Every legal access keeps the invariant: a window write stays within the windows. -/
theorem State.Inv.access {s : State} (hs : s.Inv) {op : HostOp} (hl : op.legal = true) : (s.access op).Inv := by
  cases op with
  | read w a =>
    simp only [State.access]
    split
    · exact { hs with }
    · exact { hs with }
  | write w a v =>
    simp only [State.access]
    split
    case isTrue => exact hs.writeReg _ v
    case isFalse hreg =>
      obtain ⟨hlo, hhi⟩ := window_of_legal ((legalAccess_iff _ _).1 hl) (mt (region_eq_reg_iff _).2 hreg)
      have hmem := hs.stored.windowed.setBytes (bs := bytesLE w v.toNat) hlo (by rw [bytesLE_length]; exact hhi)
      exact { hs with memWf := hmem.wf, memIn := hmem.within }

theorem State.Inv.hostStep {s t : State} (hs : s.Inv) {op : HostOp} (h : State.hostStep op s = .next t) : t.Inv := by
  unfold State.hostStep at h
  split_ifs at h with hf hcmd hl hb <;> obtain rfl := Host.Outcome.next.inj h
  · exact hs
  · exact { hs with faultKnown := rfl }
  · exact { hs with faultKnown := rfl }
  · exact hs.access (by simpa using hl)

/-- The state after reset satisfies the invariant (70_reset R550 to R552). -/
theorem reset_inv : State.reset.Inv where
  memWf := rfl
  memIn := fun _ h => absurd h List.not_mem_nil
  ctrlLow := rfl
  cmdCtrlLow := rfl
  irqEnLow := rfl
  irqPendLow := rfl
  faultKnown := rfl
  busyClear := nofun
  errCoded := nofun
  nonconvConfigured := nofun
  modemInv := fun m (h : none = some m) => nomatch h

/-- A power-on reset brings the invariant from any state. -/
theorem powerOn_inv (s : State) : s.powerOn.Inv := { reset_inv with }

/-- Settles O60, turn by turn: a core step, a host access or a power-on reset. -/
theorem everyStepKeepsTheInvariant : Obligations.EveryStepKeepsTheInvariant := by
  unfold Obligations.EveryStepKeepsTheInvariant
  intro s t hs h
  unfold step at h
  split at h
  · exact hs.coreStep h
  · exact (hs.withTurns _).coreStep h
  · exact (hs.withTurns _).hostStep h
  · obtain rfl := Host.Outcome.next.inj h
    exact powerOn_inv _

end Sys2Proof.Machine
end

section
/-! The decoder as 30_encoding R162 and R163 state it: it accepts a word exactly where the word is the encoding of a
well-formed command, which are the words with RSV, OPC and IMM8 of the table. -/

namespace Sys2Proof

/-! ## The fields of a word (R160) -/

theorem spec_opc_eq (w : Word) : Spec.opc w = opcField w := by
  simp [Spec.opc, opcField]

theorem spec_imm8_eq (w : Word) : Spec.imm8 w = immField w := by
  simp [Spec.imm8, immField, Nat.shiftRight_eq_div_pow]

theorem spec_rsv_eq (w : Word) : Spec.rsv w = rsvField w := by
  have := w.isLt
  simp only [Spec.rsv, rsvField, BitVec.extractLsb'_toNat, Nat.shiftRight_eq_div_pow]
  omega

/-- The fields of every command's word: the per-constructor lemmas of `Laws.Encodes` together. -/
theorem encode_fields : ∀ i : Instr, Laws.Encodes.Statement i
  | .create => Laws.Encodes.create
  | .destroy => Laws.Encodes.destroy
  | .modulate => Laws.Encodes.modulate
  | .getNin => Laws.Encodes.getNin
  | .demodulate => Laws.Encodes.demodulate
  | .syncSearch => Laws.Encodes.syncSearch
  | .runSyncSm src => Laws.Encodes.runSyncSm src
  | .setSyncPolicy p => Laws.Encodes.setSyncPolicy p
  | .setPhaseBw b => Laws.Encodes.setPhaseBw b
  | .enableTiming f => Laws.Encodes.enableTiming f
  | .enableFreq f => Laws.Encodes.enableFreq f
  | .enablePhase f => Laws.Encodes.enablePhase f
  | .setDpsk f => Laws.Encodes.setDpsk f
  | .getStats => Laws.Encodes.getStats
  | .ldpcEncode slot => Laws.Encodes.ldpcEncode slot
  | .ldpcDecode slot => Laws.Encodes.ldpcDecode slot
  | .ilPush => Laws.Encodes.ilPush
  | .berReset => Laws.Encodes.berReset

/-- Three fields make the whole word: a word with RSV = 0 and a command's OPC and IMM8 is that command's encoding. -/
theorem encode_eq_of_fields {w : Word} {i : Instr} (hrsv : rsvField w = 0) (hopc : i.opc = opcField w)
    (himm : i.imm8 = immField w) : encode i = w := by
  apply BitVec.eq_of_toNat_eq
  simp only [encode, hopc, himm, BitVec.toNat_ofNat, rsvField, opcField, immField] at hrsv ⊢
  omega

/-! ## What each operand decoder accepts (R163, column "legal IMM8") -/

theorem decodeZero_ok {imm : Nat} {i j : Instr} (h : decodeZero imm i = .ok j) : imm = 0 ∧ j = i := by
  unfold decodeZero at h
  split at h
  · exact ⟨‹_›, (Except.ok.inj h).symm⟩
  · cases h

theorem decodeFlag_ok {imm : Nat} {i : Bool → Instr} {j : Instr} (h : decodeFlag imm i = .ok j) :
    ∃ f : Bool, imm = f.toNat ∧ j = i f := by
  unfold decodeFlag at h
  split at h
  · exact ⟨false, rfl, (Except.ok.inj h).symm⟩
  · exact ⟨true, rfl, (Except.ok.inj h).symm⟩
  · cases h

theorem decodeSource_ok {imm : Nat} {j : Instr} (h : decodeSource imm = .ok j) :
    ∃ src, imm = src.code ∧ j = .runSyncSm src := by
  unfold decodeSource at h
  split at h
  · exact ⟨.arg0, rfl, (Except.ok.inj h).symm⟩
  · exact ⟨.lastFrame, rfl, (Except.ok.inj h).symm⟩
  · cases h

theorem decodePolicy_ok {imm : Nat} {j : Instr} (h : decodePolicy imm = .ok j) :
    ∃ p, imm = p.code ∧ j = .setSyncPolicy p := by
  unfold decodePolicy at h
  split at h
  · exact ⟨.unsynced, rfl, (Except.ok.inj h).symm⟩
  · exact ⟨.auto, rfl, (Except.ok.inj h).symm⟩
  · exact ⟨.manual, rfl, (Except.ok.inj h).symm⟩
  · cases h

theorem decodeBw_ok {imm : Nat} {j : Instr} (h : decodeBw imm = .ok j) : ∃ b, imm = b.code ∧ j = .setPhaseBw b := by
  unfold decodeBw at h
  split at h
  · exact ⟨.low, rfl, (Except.ok.inj h).symm⟩
  · exact ⟨.high, rfl, (Except.ok.inj h).symm⟩
  · cases h

theorem decodeSlot_ok {imm : Nat} {i : BitVec 8 → Instr} {j : Instr} (h : decodeSlot imm i = .ok j) :
    ∃ slot : BitVec 8, legalSlot slot = true ∧ imm = slot.toNat ∧ j = i slot := by
  unfold decodeSlot at h
  split at h
  · have hslot : (BitVec.ofNat 8 imm).toNat = imm := by
      rw [BitVec.toNat_ofNat]
      omega
    exact ⟨_, decide_eq_true (hslot.symm ▸ ‹imm < 3›), hslot.symm, (Except.ok.inj h).symm⟩
  · cases h

theorem decodeSlot_of_legal {slot : BitVec 8} (h : legalSlot slot = true) (i : BitVec 8 → Instr) :
    decodeSlot slot.toNat i = .ok (i slot) := by
  rw [decodeSlot, if_pos (of_decide_eq_true h), BitVec.ofNat_toNat, BitVec.setWidth_eq]

/-! ## The opcode map (R163) -/

/-- A well-formed command is what its own opcode and immediate select. -/
theorem decodeOpc_of_wellFormed {i : Instr} (hi : i.wellFormed = true) : decodeOpc i.opc i.imm8 = .ok i := by
  cases i with
  | ldpcEncode slot => exact decodeSlot_of_legal hi _
  | ldpcDecode slot => exact decodeSlot_of_legal hi _
  | runSyncSm src => cases src <;> rfl
  | setSyncPolicy p => cases p <;> rfl
  | setPhaseBw b => cases b <;> rfl
  | enableTiming f => cases f <;> rfl
  | enableFreq f => cases f <;> rfl
  | enablePhase f => cases f <;> rfl
  | setDpsk f => cases f <;> rfl
  | _ => rfl

/-- The opcode map selects a command by that command's opcode and immediate alone: row by row, its operand decoder. -/
theorem decodeOpc_ok_iff {opc imm : Nat} {i : Instr} :
    decodeOpc opc imm = .ok i ↔ i.wellFormed = true ∧ i.opc = opc ∧ i.imm8 = imm := by
  refine ⟨fun h => ?selected, fun ⟨hwf, hopc, himm⟩ => hopc ▸ himm ▸ decodeOpc_of_wellFormed hwf⟩
  unfold decodeOpc at h
  split at h
  case h_7 =>
    obtain ⟨src, rfl, rfl⟩ := decodeSource_ok h
    exact ⟨rfl, rfl, rfl⟩
  case h_8 =>
    obtain ⟨p, rfl, rfl⟩ := decodePolicy_ok h
    exact ⟨rfl, rfl, rfl⟩
  case h_9 =>
    obtain ⟨b, rfl, rfl⟩ := decodeBw_ok h
    exact ⟨rfl, rfl, rfl⟩
  case h_10 | h_11 | h_12 | h_13 =>
    obtain ⟨f, rfl, rfl⟩ := decodeFlag_ok h
    exact ⟨rfl, rfl, rfl⟩
  case h_15 | h_16 =>
    obtain ⟨slot, hslot, rfl, rfl⟩ := decodeSlot_ok h
    exact ⟨hslot, rfl, rfl⟩
  case h_19 => cases h
  all_goals
    obtain ⟨rfl, rfl⟩ := decodeZero_ok h
    exact ⟨rfl, rfl, rfl⟩

/-- Each legal pair of the table as 30_encoding R163 restates it selects a command. -/
theorem decodeOpc_of_legalImm8 (opc : Nat) : ∀ imm ∈ Spec.legalImm8 opc, ∃ i, decodeOpc opc imm = .ok i := by
  unfold Spec.legalImm8
  split
  case h_10 | h_11 | h_12 | h_13 | h_14 | h_15 =>
    exact List.forall_mem_cons.2 ⟨⟨_, rfl⟩, List.forall_mem_singleton.2 ⟨_, rfl⟩⟩
  case h_16 | h_17 | h_18 =>
    exact List.forall_mem_cons.2 ⟨⟨_, rfl⟩, List.forall_mem_cons.2 ⟨⟨_, rfl⟩, List.forall_mem_singleton.2 ⟨_, rfl⟩⟩⟩
  case h_19 => exact List.forall_mem_nil _
  all_goals exact List.forall_mem_singleton.2 ⟨_, rfl⟩

theorem legalSlot_mem {slot : BitVec 8} (h : legalSlot slot = true) : slot.toNat ∈ [0, 1, 2] := by
  have := of_decide_eq_true h
  simp only [List.mem_cons, List.not_mem_nil]
  omega

/-- The immediate of a well-formed command is legal for its opcode. -/
theorem imm8_mem_legalImm8 {i : Instr} (hi : i.wellFormed = true) : i.imm8 ∈ Spec.legalImm8 i.opc := by
  cases i with
  | ldpcEncode slot => exact legalSlot_mem hi
  | ldpcDecode slot => exact legalSlot_mem hi
  | runSyncSm src => cases src <;> decide
  | setSyncPolicy p => cases p <;> decide
  | setPhaseBw b => cases b <;> decide
  | enableTiming f => cases f <;> decide
  | enableFreq f => cases f <;> decide
  | enablePhase f => cases f <;> decide
  | setDpsk f => cases f <;> decide
  | _ => exact List.mem_singleton.2 rfl

/-! ## The decoder (R162) -/

theorem decode_ok_iff_fields {w : Word} {i : Instr} : decode w = .ok i ↔
    rsvField w = 0 ∧ i.wellFormed = true ∧ i.opc = opcField w ∧ i.imm8 = immField w := by
  rw [decode, ← decodeOpc_ok_iff]
  split
  · simp [*]
  · simp [*]

/-- A word decodes to a command exactly if that command is well formed and the word is its encoding. -/
theorem decode_ok_iff {w : Word} {i : Instr} : decode w = .ok i ↔ i.wellFormed = true ∧ encode i = w := by
  rw [decode_ok_iff_fields]
  constructor
  · rintro ⟨hrsv, hwf, hopc, himm⟩
    exact ⟨hwf, encode_eq_of_fields hrsv hopc himm⟩
  · rintro ⟨hwf, rfl⟩
    obtain ⟨hrsv, hopc, himm, -⟩ := encode_fields i hwf
    exact ⟨hrsv, hwf, hopc.symm, himm.symm⟩

/-- The words the decoder accepts are those whose three fields stand in the table (R165). -/
theorem exists_decode_ok_iff {w : Word} :
    (∃ i, decode w = .ok i) ↔ Spec.rsv w = 0 ∧ Spec.imm8 w ∈ Spec.legalImm8 (Spec.opc w) := by
  rw [spec_rsv_eq, spec_imm8_eq, spec_opc_eq]
  constructor
  · rintro ⟨i, h⟩
    obtain ⟨hrsv, hwf, hopc, himm⟩ := decode_ok_iff_fields.1 h
    exact ⟨hrsv, hopc ▸ himm ▸ imm8_mem_legalImm8 hwf⟩
  · rintro ⟨hrsv, himm⟩
    obtain ⟨i, h⟩ := decodeOpc_of_legalImm8 _ _ himm
    exact ⟨i, (if_pos hrsv).trans h⟩

/-! ## The obligations -/

/-- Settles O1: the word is a well-formed command's encoding, and its bytes decode as the word does. -/
theorem decodeReadsBackEveryEncoding : Obligations.DecodeReadsBackEveryEncoding := by
  unfold Obligations.DecodeReadsBackEveryEncoding
  intro i rest hwf
  have hword : decode (encode i) = .ok i := decode_ok_iff.2 ⟨hwf, rfl⟩
  exact ⟨hword, by rw [decodeBytes_bytesOfWord, hword]⟩

/-- Settles O2: the fields of an accepted word are its command's, and the three fields are all 32 bits. -/
theorem acceptedWordsAreEncodings : Obligations.AcceptedWordsAreEncodings := by
  unfold Obligations.AcceptedWordsAreEncodings
  intro w i h
  obtain ⟨hwf, henc⟩ := decode_ok_iff.1 h
  obtain ⟨hrsv, -, hopc, himm⟩ := decode_ok_iff_fields.1 h
  exact ⟨hwf, henc, (spec_rsv_eq w).trans hrsv, (spec_opc_eq w).trans hopc.symm, (spec_imm8_eq w).trans himm.symm⟩

/-- Settles O4, each word by running the decoder. -/
theorem sampleWordsDecode : Obligations.SampleWordsDecode := by
  unfold Obligations.SampleWordsDecode
  decide

end Sys2Proof
end

section
/-! The errors of 30_encoding R162: a word that is no command, and a command that needs a modem on a core without one, complete
with their error and change nothing else (60_exceptions R503). -/

namespace Sys2Proof.Machine

/-- The model's error completion is the one 60_exceptions R503 states: DONE and ERR are bits 0 and 1 of IRQ_PEND. -/
theorem completeError_eq_errorOf (s : State) (code : ErrCode) : s.completeError code = Spec.errorOf s code := by
  have hpend : s.irqPend ||| irqDone ||| irqErr = s.irqPend ||| 0x3#32 := BitVec.or_assoc _ _ _
  rw [State.completeError, hpend, Spec.errorOf]

/-! ## A word that is no command (R162 steps 1 to 3) -/

theorem step_core {s : State} {rest : List Turn} (ht : s.turns = .core :: rest) :
    step s = coreStep { s with turns := rest } := by
  rw [step, ht]

/-- A core step on a word the decoder rejects, whatever the reason. -/
theorem coreStep_of_reject {s : State} {r : Reject} (hb : s.busy = true) (hf : s.faulted = false)
    (hr : decode s.cmd = .error r) : coreStep s = .next (Spec.errorOf s .illegalCommand) := by
  have hen : s.coreEnabled = true := by rw [State.coreEnabled, hb, hf]; rfl
  rw [coreStep, if_pos hen, State.fetch, hr, ← completeError_eq_errorOf]
  rfl

/-- Settles O3: such a word decodes to no command, so the decoder's answer is a rejection; every other one decodes to a
command, which is well formed. -/
theorem illegalWordsRaiseIllegalCommand : Obligations.IllegalWordsRaiseIllegalCommand := by
  unfold Obligations.IllegalWordsRaiseIllegalCommand
  refine ⟨fun s rest ht hb hf hill => ?illegal, fun w hrsv himm => ?legal⟩
  case illegal =>
    cases hd : decode s.cmd with
    | ok i =>
      obtain ⟨hrsv, himm⟩ := exists_decode_ok_iff.1 ⟨i, hd⟩
      exact (hill.elim (· hrsv) (· himm)).elim
    | error r => exact (step_core ht).trans (coreStep_of_reject (s := { s with turns := rest }) hb hf hd)
  case legal =>
    obtain ⟨i, hi⟩ := exists_decode_ok_iff.2 ⟨hrsv, himm⟩
    exact ⟨i, (decode_ok_iff.1 hi).1, hi⟩

/-! ## A command that needs a modem (R162 step 4) -/

theorem State.needModem_of_none {s : State} (h : s.modem = none) (f : Modem → State) :
    s.needModem f = s.completeError .notConfigured := by
  rw [State.needModem, h]

/-- Every command of "cfg yes" asks for the modem before it does anything else. -/
theorem exec_eq_needModem {i : Instr} (hwf : i.wellFormed = true) (hcfg : Spec.needsConfigured i = true) (s : State) :
    ∃ f, exec i s = .next (s.needModem f) := by
  cases i with
  | create => cases hcfg
  | destroy => cases hcfg
  | ldpcEncode slot => cases hcfg
  | ldpcDecode slot => exact ⟨_, congrArg Host.Outcome.next (if_pos hwf)⟩
  | _ => exact ⟨_, rfl⟩

/-- Settles O8: the command's first question is for the modem, and there is none. -/
theorem unconfiguredCommandsRaiseNotConfigured : Obligations.UnconfiguredCommandsRaiseNotConfigured := by
  unfold Obligations.UnconfiguredCommandsRaiseNotConfigured
  intro i s hwf hcfg hm
  obtain ⟨f, hf⟩ := exec_eq_needModem hwf hcfg s
  rw [hf, State.needModem_of_none hm, completeError_eq_errorOf]

end Sys2Proof.Machine
end

section
/-! The lifecycle and control commands as 40_control states them: which configurations are valid (R201), what CREATE and DESTROY
leave (R200, R202, R205), the reports (R207, R220) and the setters (R210 to R217). -/

namespace Sys2Proof.Fp

/-- What the binary32 views of a fresh modem show. -/
theorem toF32_zero : toF32 zero = 0#32 := by decide +kernel

end Sys2Proof.Fp

namespace Sys2Proof.Cx

theorem isFinite_iff (p : C64) : isFinite p = true ↔ Fp.isFinite p.re = true ∧ Fp.isFinite p.im = true := by
  rw [isFinite, Bool.and_eq_true]

/-- A pilot is nonzero when it is not zero in both components. -/
theorem not_isZero_iff (p : C64) :
    (!isZero p) = true ↔ ¬ (Fp.isZero p.re = true ∧ Fp.isZero p.im = true) := by
  rw [isZero, Bool.not_eq_true', ← Bool.not_eq_true, Bool.and_eq_true]

end Sys2Proof.Cx

namespace Sys2Proof.Machine

/-! ## The twenty checks (R201) -/

namespace ModemConfig

theorem symbolClosed_iff (l : List Nat) : symbolClosed l = true ↔ ∀ p ∈ l, p ^^^ 1 ∈ l := by
  simp only [symbolClosed, List.all_eq_true, List.contains_iff_mem]
  rfl

/-- Check 8 without the truncated subtraction: with `M >= 1` the look-ahead is not 0. -/
theorem lookahead_check_iff {c : ModemConfig} (hm : 1 ≤ c.m) : c.lookahead ≤ c.spf - 1 ↔ c.lookahead + 1 ≤ c.spf := by
  have : 1 ≤ c.lookahead := by unfold lookahead symLen; omega
  omega

/-- Check 20 says that the interleaver's table is a permutation: it has its length, stays below it and repeats nothing. -/
theorem perm_range_iff {l : List Nat} {n : Nat} :
    l.Perm (List.range n) ↔ l.length = n ∧ (∀ i ∈ l, i < n) ∧ l.Nodup := by
  constructor
  · intro h
    exact ⟨h.length_eq.trans List.length_range, fun i hi => List.mem_range.1 (h.mem_iff.1 hi),
      h.nodup_iff.2 List.nodup_range⟩
  · rintro ⟨hlen, hlt, hnodup⟩
    have hsub : l.Subperm (List.range n) := List.subperm_of_subset hnodup fun i hi => List.mem_range.2 (hlt i hi)
    exact hsub.perm_of_length_le (by rw [List.length_range, hlen])

theorem ilValidCfg_iff (c : ModemConfig) : c.ilValidCfg = true ↔
    c.npay * 2 = c.code.n ∧ c.ilFrames * c.npay ≤ 14144 ∧ c.ilPerm.Perm (List.range (c.ilFrames * c.npay)) ∧
      c.ilPassMin ≤ c.code.m ∧ 1 ≤ c.ilTrialBlocks ∧ 1 ≤ c.ilFalloutBlocks := by
  simp only [ilValidCfg, perm_range_iff, Bool.and_eq_true, decide_eq_true_eq, List.all_eq_true, and_assoc]

end ModemConfig

/-- Settles O11: the checks in the model's order, each restated; check 8 rests on check 5. -/
theorem validityIsTheTwentyChecks : Obligations.ValidityIsTheTwentyChecks := by
  unfold Obligations.ValidityIsTheTwentyChecks
  intro c
  have interleaved (q : Prop) : (c.ilFrames = 0 ∨ q) ↔ (1 ≤ c.ilFrames → q) := by
    rw [Nat.one_le_iff_ne_zero, ← or_iff_not_imp_left]
  simp only [ModemConfig.valid, ModemConfig.checks, List.all_cons, List.all_nil, List.forall_mem_cons, List.not_mem_nil,
    false_imp_iff, implies_true, id, Bool.and_eq_true, Bool.or_eq_true, decide_eq_true_eq, List.all_eq_true, interleaved,
    Cx.isFinite_iff, Cx.not_isZero_iff, ModemConfig.symbolClosed_iff, ModemConfig.ilValidCfg_iff, and_assoc, and_true]
  by_cases hm : 1 ≤ c.m
  · rw [ModemConfig.lookahead_check_iff hm]
    rfl
  · simp only [hm, false_and, and_false]

/-! ## DESTROY (R205) -/

/-- The model's success completion is the one 60_exceptions R501 states: DONE is bit 0 of IRQ_PEND. -/
theorem completeOk_eq (s : State) : s.completeOk = { s with
    busy := false, done := true, err := false, errcode := .none, irqPend := s.irqPend ||| 0x1#32 } := rfl

theorem destroyBody_of_configured {s : State} (h : s.configured = true) :
    s.destroyBody = { s with modem := none, nonconv := false } := if_pos h

theorem destroyBody_of_unconfigured {s : State} (h : s.configured = false) : s.destroyBody = s :=
  if_neg (Bool.eq_false_iff.1 h)

theorem destroyBody_eq_destroyed (s : State) : s.destroyBody = Spec.destroyed s := by
  unfold Spec.destroyed
  split
  case h_1 m hm => exact destroyBody_of_configured (by rw [State.configured, hm]; rfl)
  case h_2 hm => exact destroyBody_of_unconfigured (by rw [State.configured, hm]; rfl)

/-- Settles O14: the body of DESTROY on both kinds of core, and the views of a core without a modem. -/
theorem destroyUnsetsTheModem : Obligations.DestroyUnsetsTheModem := by
  unfold Obligations.DestroyUnsetsTheModem
  intro s
  have hexec : exec .destroy s = .next s.destroyBody.completeOk := rfl
  refine ⟨fun hc => ?configured, fun hc => ?unconfigured, fun hc t ht => ?views⟩
  case configured => rw [hexec, destroyBody_of_configured hc, completeOk_eq]
  case unconfigured => rw [hexec, destroyBody_of_unconfigured hc, completeOk_eq]
  case views =>
    obtain rfl : s.destroyBody.completeOk = t := Host.Outcome.next.inj (hexec.symm.trans ht)
    refine ⟨?status, State.readReg_modemView (destroyBody_modem s)⟩
    rw [destroyBody_of_configured hc]
    rfl

/-! ## CREATE (R200, R202) -/

/-- CREATE overwrites all that the body of DESTROY clears. -/
theorem install_destroyBody (c : ModemConfig) (s : State) : s.destroyBody.install c = s.install c := by
  cases hc : s.configured with
  | true => rw [destroyBody_of_configured hc]; rfl
  | false => rw [destroyBody_of_unconfigured hc]

theorem exec_create_of_valid {s : State} (h : s.readCfg.valid = true) :
    exec .create s = .next (s.install s.readCfg).completeOk := by
  rw [exec, execCreate, State.create, if_pos h, install_destroyBody]

theorem exec_create_of_invalid {s : State} (h : s.readCfg.valid = false) :
    exec .create s = .next (Spec.errorOf (Spec.destroyed s) .configError) := by
  rw [exec, execCreate, State.create, if_neg (Bool.eq_false_iff.1 h), destroyBody_eq_destroyed, completeError_eq_errorOf]

/-- Settles O13: the modem is `Modem.fresh`, whose fields are the "after CREATE" values, and the registers are its views. -/
theorem createInstallsAValidConfiguration : Obligations.CreateInstallsAValidConfiguration := by
  unfold Obligations.CreateInstallsAValidConfiguration
  intro s
  refine ⟨fun hv => ⟨Modem.fresh s.readCfg, ?exec, ?fields⟩, fun hv t ht => ?registers, exec_create_of_invalid⟩
  case exec => rw [exec_create_of_valid hv, completeOk_eq]; rfl
  case fields =>
    generalize s.readCfg = c
    exact ⟨rfl, ⟨rfl, rfl, rfl, rfl⟩, ⟨rfl, rfl, rfl, rfl⟩, ⟨rfl, rfl⟩, ⟨rfl, rfl, rfl, rfl, rfl, rfl, rfl, rfl, rfl⟩,
      ⟨rfl, rfl, rfl⟩, ⟨rfl, rfl, rfl⟩, ⟨rfl, rfl, rfl, rfl⟩, ⟨rfl, rfl, rfl, rfl, rfl⟩, rfl,
      ⟨rfl, rfl, rfl, rfl, rfl, rfl⟩, ⟨rfl, rfl, rfl, rfl, rfl⟩, ⟨rfl, rfl⟩⟩
  case registers =>
    obtain rfl : (s.install s.readCfg).completeOk = t := Host.Outcome.next.inj ((exec_create_of_valid hv).symm.trans ht)
    generalize s.readCfg = c
    refine ⟨?status, ?errcode, ?nin, ?sync, ?mode, ?zeros⟩
    case zeros =>
      have view {α : Type} (d : α) (f : Modem → α) : (s.install c).completeOk.view d f = f (Modem.fresh c) := rfl
      simp [State.readReg, view, Modem.fresh, viewU32, Fp.toF32_zero]
    all_goals rfl

/-! ## The commands of a configured core -/

theorem State.needModem_of_some {s : State} {m : Modem} (h : s.modem = some m) (f : Modem → State) :
    s.needModem f = f m := by
  rw [State.needModem, h]

theorem State.updateModem_of_some {s : State} {m : Modem} (h : s.modem = some m) (f : Modem → Modem) :
    s.updateModem f = { s with
      modem := some (f m), busy := false, done := true, err := false, errcode := .none,
      irqPend := s.irqPend ||| 0x1#32 } := by
  rw [State.updateModem, State.needModem_of_some h, completeOk_eq]

/-- Settles O15: both commands only write result registers before they complete. -/
theorem getNinAndGetStatsOnlyReport : Obligations.GetNinAndGetStatsOnlyReport := by
  unfold Obligations.GetNinAndGetStatsOnlyReport
  intro s m hm
  refine ⟨?nin, ?stats⟩
  case nin => rw [exec, execGetNin, State.needModem_of_some hm, completeOk_eq]
  case stats =>
    rw [exec, execGetStats, State.needModem_of_some hm, completeOk_eq]
    cases m.syncState <;> rfl

/-! ## The mode setters (R212 to R217) -/

/-- The bits of MODE (10_state R49), least significant first. -/
def Modem.modeBits (m : Modem) : List Bool := [decide (m.phaseBw = .high), m.timingEn, m.foffEn, m.phaseEn, m.dpsk]

theorem readReg_mode {s : State} {m : Modem} (h : s.modem = some m) (j : Nat) :
    (s.readReg 0x03C).getLsbD j = m.modeBits.getD j false := by
  rw [show s.readReg 0x03C = m.modeWord from State.view_of_some h _ _]
  exact m.modeWord_getLsbD j

/-- A modem that differs in one mode field shows it in one bit of MODE. -/
theorem readReg_mode_of_set {s t : State} {m m' : Modem} {k : Nat} {v : Bool} (hs : s.modem = some m)
    (ht : t.modem = some m') (hk : k < 5) (h : m'.modeBits = m.modeBits.set k v) (j : Nat) :
    (t.readReg 0x03C).getLsbD j = if j = k then v else (s.readReg 0x03C).getLsbD j := by
  rw [readReg_mode hs, readReg_mode ht, h, List.getD_eq_getElem?_getD, List.getD_eq_getElem?_getD]
  have hk : k < m.modeBits.length := hk
  split
  case isTrue hj => rw [hj, List.getElem?_set_self hk]; rfl
  case isFalse hj => rw [List.getElem?_set_ne (Ne.symm hj)]

/-- Settles O16: each setter is an update of its field, and that field is one of the bits of MODE. -/
theorem settersWriteTheirModeField : Obligations.SettersWriteTheirModeField := by
  unfold Obligations.SettersWriteTheirModeField
  intro s m b f hm done onlyBit
  have updates (g : Modem → Modem) : .next (s.updateModem g) = (.next (done (g m)) : Host.Outcome State Fault Refusal) :=
    congrArg _ (State.updateModem_of_some hm g)
  have shows {m' : Modem} {k : Nat} {v : Bool} (hk : k < 5) (h : m'.modeBits = m.modeBits.set k v) :
      onlyBit (done m') k v := readReg_mode_of_set hm rfl hk h
  exact ⟨⟨updates _, shows (by decide) rfl⟩, ⟨updates _, shows (by decide) rfl⟩, ⟨updates _, shows (by decide) rfl⟩,
    ⟨updates _, shows (by decide) rfl⟩, ⟨updates _, shows (by decide) rfl⟩⟩

/-! ## SET_SYNC_POLICY (R210) -/

theorem setPolicy_of_ne {p : Policy} (h : p ≠ .unsynced) (discard : Bool) (m : Modem) :
    m.setPolicy p discard = { m with policy := p } := if_neg h

/-- Unsynced runs `enter_searching()` (43_sync R368). -/
theorem setPolicy_unsynced (discard : Bool) (m : Modem) :
    m.setPolicy .unsynced discard = Spec.searching discard { m with policy := .unsynced } := rfl

theorem State.raiseIrqIf_eq (s : State) (c : Bool) (bits : Word) :
    s.raiseIrqIf c bits = { s with irqPend := if c then s.irqPend ||| bits else s.irqPend } := by
  cases c <;> rfl

/-- SET_SYNC_POLICY on a configured core: SYNC_CHANGE is bit 2 of IRQ_PEND (43_sync R369). -/
theorem exec_setSyncPolicy {s : State} {m m' : Modem} {p : Policy} (h : s.modem = some m)
    (hp : m.setPolicy p (s.cmdCtrl.getLsbD 1) = m') :
    exec (.setSyncPolicy p) s = .next { s with
      modem := some m', busy := false, done := true, err := false, errcode := .none,
      irqPend := (if m.syncState = m'.syncState then s.irqPend else s.irqPend ||| 0x4#32) ||| 0x1#32 } := by
  have hpend : (if decide (m'.syncState ≠ m.syncState) = true then s.irqPend ||| irqSyncChange else s.irqPend) =
      if m.syncState = m'.syncState then s.irqPend else s.irqPend ||| 0x4#32 := by
    simp only [decide_eq_true_eq, ne_eq, ite_not, eq_comm (a := m'.syncState) (b := m.syncState), irqSyncChange]
  rw [exec, execSetSyncPolicy, State.needModem_of_some h, State.discardOnLoss, hp]
  dsimp only
  rw [State.raiseIrqIf_eq, hpend, completeOk_eq]

/-- Settles O17: Auto and Manual leave the sync state, Unsynced leaves Searching. -/
theorem setSyncPolicyEntersSearchingForUnsynced : Obligations.SetSyncPolicyEntersSearchingForUnsynced := by
  unfold Obligations.SetSyncPolicyEntersSearchingForUnsynced
  intro s m p hm
  refine ⟨fun hp => ?other, exec_setSyncPolicy hm (setPolicy_unsynced _ m)⟩
  case other => rw [exec_setSyncPolicy hm (setPolicy_of_ne hp _ m), if_pos rfl]

end Sys2Proof.Machine
end

section
/-! The modulator as 41_modulator states it: the bits of a frame (R250), the rows they are mapped to (R251 to R253), a row on the
wire (R254, R255), the transmit filter and its history (R256), and MODULATE (R250, R257). -/

namespace Sys2Proof.Machine

/-! ## The bits of a frame (R250) -/

/-- The bit positions of a valid configuration repeat nothing, within a table and across both, and lie in the frame (40_control
R201 check 13). -/
theorem uwPos_txtPos_of_valid {c : ModemConfig} (h : c.valid = true) :
    c.uwPos.Nodup ∧ c.txtPos.Nodup ∧ c.uwPos.Disjoint c.txtPos ∧
      (∀ p ∈ c.uwPos, p < c.bpf) ∧ ∀ p ∈ c.txtPos, p < c.bpf := by
  have b := ModemConfig.bounds_of_valid h
  obtain ⟨huw, htxt, hdisj⟩ := List.nodup_append'.1 b.posNodup
  exact ⟨huw, htxt, hdisj, fun p hp => b.posLt p (List.mem_append_left _ hp),
    fun p hp => b.posLt p (List.mem_append_right _ hp)⟩

/-- Settles O20: each list is placed at its own positions, and neither moves what stands at the other's. -/
theorem uniqueWordAndTextAreForced : Obligations.UniqueWordAndTextAreForced := by
  unfold Obligations.UniqueWordAndTextAreForced
  intro c caller text hv hs hcaller htext
  obtain ⟨huw, htxt, hdisj, huwLt, htxtLt⟩ := uwPos_txtPos_of_valid hv
  obtain ⟨uwAt, uwElse⟩ := placeBits_get caller huw (hs.uwBits.trans hs.uwPos.symm) (hcaller ▸ huwLt)
  obtain ⟨txtAt, txtElse⟩ := placeBits_get (placeBits caller c.uwPos c.uwBits) htxt (htext.trans hs.txtPos.symm)
    (by rw [placeBits_length, hcaller]; exact htxtLt)
  have mem {l : List Nat} {k : Nat} (hk : k < l.length) : l.getD k 0 ∈ l := by
    rw [List.getD_eq_getElem _ _ hk]
    exact List.getElem_mem hk
  refine ⟨fun k hk => ?uw, fun k hk => ?txt, fun p hp => ⟨uwElse p hp, fun hp' => ?caller⟩⟩
  case uw =>
    rw [← hs.uwPos] at hk
    exact ⟨uwAt k hk, (txtElse _ (hdisj (mem hk))).trans (uwAt k hk)⟩
  case txt =>
    rw [← hs.txtPos] at hk
    exact ⟨txtAt k hk, uwElse _ fun huw => hdisj huw (mem hk)⟩
  case caller => exact (txtElse p hp').trans (uwElse p hp)

/-! ## The rows of a frame (R251 to R253) -/

theorem getD_map_range {α : Type} (f : Nat → α) (d : α) {n i : Nat} (h : i < n) :
    ((List.range n).map f).getD i d = f i := by
  rw [List.getD_eq_getElem?_getD, map_range_get f n i h, Option.getD_some]

theorem getD_zipWith {α β γ : Type} (f : α → β → γ) {l : List α} {l' : List β} {i : Nat} (a : α) (b : β) (d : γ)
    (h : i < l.length) (h' : i < l'.length) : (List.zipWith f l l').getD i d = f (l.getD i a) (l'.getD i b) := by
  rw [List.getD_eq_getElem _ _ (by rw [List.length_zipWith]; exact lt_min h h'), List.getElem_zipWith,
    List.getD_eq_getElem _ _ h, List.getD_eq_getElem _ _ h']

/-- The carrier values of data row `r` after the row `prev` (R253). -/
def nextRow (c : ModemConfig) (dpsk : Bool) (b : List Bool) (r : Nat) (prev : List C64) : List C64 :=
  if dpsk then List.zipWith Cx.mul (rowPoints c b r) prev else rowPoints c b r

theorem dataRows_succ (c : ModemConfig) (dpsk : Bool) (b : List Bool) (count r : Nat) (prev : List C64) :
    dataRows c dpsk b (count + 1) r prev =
      nextRow c dpsk b r prev :: dataRows c dpsk b count (r + 1) (nextRow c dpsk b r prev) := rfl

theorem rowPoints_length (c : ModemConfig) (b : List Bool) (r : Nat) : (rowPoints c b r).length = c.nc := by
  rw [rowPoints, List.length_map, List.length_range]

theorem nextRow_length (c : ModemConfig) (dpsk : Bool) (b : List Bool) (r : Nat) {prev : List C64}
    (h : prev.length = c.nc) : (nextRow c dpsk b r prev).length = c.nc := by
  cases dpsk
  case false => exact rowPoints_length c b r
  case true =>
    rw [nextRow, if_pos rfl, List.length_zipWith, rowPoints_length, h, Nat.min_self]

/-- Row `j` after the row `prev` is made from the row before it. -/
theorem dataRows_getD (c : ModemConfig) (dpsk : Bool) (b : List Bool) {count j : Nat} (r : Nat) (prev : List C64)
    (h : j < count) : (dataRows c dpsk b count r prev).getD j [] =
      nextRow c dpsk b (j + r) ((prev :: dataRows c dpsk b count r prev).getD j []) := by
  induction j generalizing count r prev with
  | zero =>
    obtain ⟨count, rfl⟩ := Nat.exists_eq_succ_of_ne_zero (Nat.ne_of_gt h)
    rw [Nat.zero_add]
    rfl
  | succ j ih =>
    obtain ⟨count, rfl⟩ := Nat.exists_eq_succ_of_ne_zero (Nat.ne_zero_of_lt h)
    rw [dataRows_succ, List.getD_cons_succ, List.getD_cons_succ, ih (r + 1) _ (Nat.lt_of_succ_lt_succ h),
      Nat.add_right_comm j 1 r]
    rfl

/-- Every row of a frame has a value for each carrier. -/
theorem rows_length (c : ModemConfig) (dpsk : Bool) (b : List Bool) {count j : Nat} (r : Nat) {prev : List C64}
    (hp : prev.length = c.nc) (h : j ≤ count) :
    ((prev :: dataRows c dpsk b count r prev).getD j []).length = c.nc := by
  induction j with
  | zero => exact hp
  | succ j ih =>
    rw [List.getD_cons_succ, dataRows_getD c dpsk b r prev h]
    exact nextRow_length c dpsk b _ (ih (Nat.le_of_succ_le h))

theorem rowPoints_getD (c : ModemConfig) (b : List Bool) (r : Nat) {k : Nat} (h : k < c.nc) :
    (rowPoints c b r).getD k Cx.zero =
      qpsk (b.getD (2 * ((r - 1) * c.nc + k)) false) (b.getD (2 * ((r - 1) * c.nc + k) + 1) false) :=
  getD_map_range _ _ h

/-- With DPSK a carrier's value is its point times the value of the row before (R253). -/
theorem nextRow_dpsk_getD (c : ModemConfig) (b : List Bool) (r : Nat) {prev : List C64} {k : Nat}
    (hp : prev.length = c.nc) (h : k < c.nc) : (nextRow c true b r prev).getD k Cx.zero =
      Cx.mul ((rowPoints c b r).getD k Cx.zero) (prev.getD k Cx.zero) :=
  getD_zipWith Cx.mul _ _ _ (by rwa [rowPoints_length]) (by rwa [hp])

theorem neg_one_bits : Fp.neg Fp.one = 0xBFF0000000000000#64 := by decide

/-- The axis values of R252, with the numbers written out. -/
theorem axisPoint_eq (x : Bool) : axisPoint x =
    Fp.mul (if x then 0xBFF0000000000000#64 else 0x3FF0000000000000#64) (Fp.sqrt 0x3FE0000000000000#64) := by
  rw [axisPoint, neg_one_bits]
  rfl

/-- Settles O21: a data row is `nextRow` of the row before, and the frame is the rows' symbol rows end to end. -/
theorem dataRowsCarryTheMappedBits : Obligations.DataRowsCarryTheMappedBits := by
  unfold Obligations.DataRowsCarryTheMappedBits
  intro c b r hr axis rows
  refine ⟨fun k h1 hk hpil => ?row, fun dpsk n _ hncp hn => ⟨?length, frameSamples_get c dpsk b hncp hr hn⟩⟩
  case row =>
    obtain ⟨j, rfl⟩ := Nat.exists_eq_add_of_le' h1
    have hrow (dpsk : Bool) : (rows dpsk).getD (j + 1) [] = nextRow c dpsk b (j + 1) ((rows dpsk).getD j []) :=
      dataRows_getD c dpsk b 1 c.pilots (by omega)
    have hpoint := rowPoints_getD c b (j + 1) hk
    rw [qpsk, axisPoint_eq, axisPoint_eq] at hpoint
    rw [hrow, hrow]
    refine ⟨hpoint, ?_⟩
    rw [nextRow_dpsk_getD c b _ (rows_length c true b 1 hpil (by omega)) hk, hpoint]
    rfl
  case length => exact frameSamples_length c dpsk b hncp (by omega)

/-! ## A row on the wire (R254, R255) -/

theorem zipWith_eq_map_range {α β γ : Type} (f : α → β → γ) {l : List α} {l' : List β} (a : α) (b : β)
    (h : l.length = l'.length) :
    List.zipWith f l l' = (List.range l'.length).map fun k => f (l.getD k a) (l'.getD k b) := by
  refine List.ext_getElem (by simp [h]) fun k hk _ => ?_
  rw [List.length_zipWith, h, Nat.min_self] at hk
  rw [List.getElem_zipWith, List.getElem_map, List.getElem_range, List.getD_eq_getElem _ _ hk,
    List.getD_eq_getElem _ _ (h ▸ hk)]

/-- `u[n]` of R255: sample `n` of the inverse transform of the carrier values `x`. -/
def transformSample (c : ModemConfig) (x : List C64) (n : Nat) : C64 :=
  Cx.smul (Fp.div Fp.one (Fp.ofNat c.m))
    (Cx.sum ((List.range c.carrierBins.length).map fun k =>
      Cx.mul (x.getD k Cx.zero) (Cx.twiddle c.m (c.carrierBins.getD k 0 * n))))

theorem symbolRow_eq {c : ModemConfig} {x : List C64} (hx : x.length = c.carrierBins.length) :
    symbolRow c x = ((List.range c.m).map (transformSample c x)).drop (c.m - c.ncp) ++
      (List.range c.m).map (transformSample c x) := by
  have hu : transformSample c x = fun n => Cx.smul (Fp.div Fp.one (Fp.ofNat c.m))
      (Cx.sum (List.zipWith (fun v b => Cx.mul v (Cx.twiddle c.m (b * n))) x c.carrierBins)) :=
    funext fun n => by rw [zipWith_eq_map_range _ Cx.zero 0 hx, transformSample]
  rw [hu, symbolRow]

/-- A row's first NCP samples are the transform's last, so the row reads the transform cyclically. -/
theorem symbolRow_getD {c : ModemConfig} {x : List C64} (hncp : c.ncp ≤ c.m) (hx : x.length = c.carrierBins.length)
    {n : Nat} (hn : n < c.m + c.ncp) :
    (symbolRow c x).getD n Cx.zero = transformSample c x ((n + c.m - c.ncp) % c.m) := by
  have hlast : (((List.range c.m).map (transformSample c x)).drop (c.m - c.ncp)).length = c.ncp := by
    rw [List.length_drop, List.length_map, List.length_range]
    omega
  rw [symbolRow_eq hx]
  by_cases h : n < c.ncp
  · rw [List.getD_append _ _ _ _ (by rwa [hlast]), List.getD_eq_getElem?_getD, List.getElem?_drop,
      map_range_get _ _ _ (by omega), Option.getD_some, Nat.mod_eq_of_lt (by omega)]
    congr 1
    omega
  · rw [List.getD_append_right _ _ _ _ (by omega), hlast, getD_map_range _ _ (by omega),
      show n + c.m - c.ncp = n - c.ncp + c.m by omega, Nat.add_mod_right, Nat.mod_eq_of_lt (by omega)]

/-- The twiddles of R254, with the four quadrant values written out. -/
theorem twiddle_eq (m k : Nat) : Cx.twiddle m k =
    if k % m = 0 then ⟨0x3FF0000000000000#64, 0#64⟩
    else if 4 * (k % m) = m then ⟨0#64, 0x3FF0000000000000#64⟩
    else if 2 * (k % m) = m then ⟨0xBFF0000000000000#64, 0#64⟩
    else if 4 * (k % m) = 3 * m then ⟨0#64, 0xBFF0000000000000#64⟩
    else Cx.expj (Fp.div (Fp.mul Fp.twoPi (Fp.ofNat (k % m))) (Fp.ofNat m)) := by
  rw [Cx.twiddle, neg_one_bits]
  rfl

/-- Settles O22: the row is the transform with its end before it, and the twiddles are the branches of their definition. -/
theorem symbolRowIsThePrefixedInverseTransform : Obligations.SymbolRowIsThePrefixedInverseTransform := by
  unfold Obligations.SymbolRowIsThePrefixedInverseTransform
  intro c x _ hncp hx u
  refine ⟨symbolRow_length c x hncp, fun n hn => symbolRow_getD hncp hx hn, ?twiddle⟩
  case twiddle =>
    intro k r
    refine ⟨fun h0 => ?one, fun h0 h4 => ?j, fun h0 h2 => ?minusOne, fun h0 h43 => ?minusJ, fun h0 h4 h2 h43 => ?other⟩
    case one => rw [twiddle_eq, if_pos h0]
    case j => rw [twiddle_eq, if_neg h0, if_pos h4]
    case minusOne => rw [twiddle_eq, if_neg h0, if_neg (by omega), if_pos h2]
    case minusJ => rw [twiddle_eq, if_neg h0, if_neg (by omega), if_neg (by omega), if_pos h43]
    case other => rw [twiddle_eq, if_neg h0, if_neg h4, if_neg h2, if_neg h43]

/-! ## The transmit filter (R256) -/

theorem txFilter_of_no_taps {c : ModemConfig} (h : c.txFiltLen = 0) (e : Bool) (hist v : List C64) :
    txFilter c e hist v = v :=
  if_neg (by simp [h])

theorem txFilter_getD {c : ModemConfig} (h : 1 ≤ c.txFiltLen) (hist : List C64) {v : List C64} {n : Nat}
    (hn : n < v.length) : (txFilter c true hist v).getD n Cx.zero =
      Cx.sum ((List.range c.txFiltLen).map fun k => Cx.smul (c.txFilt.getD k Fp.zero) (delayed v hist n k)) := by
  rw [txFilter, if_pos (by simp [h]), getD_map_range _ _ hn]

/-- The history is the stream read backwards: the frame, then what was the history before it. -/
theorem nextHist_getD (hist v : List C64) {i : Nat} (hi : i < 127) : (nextHist hist v).getD i Cx.zero =
    if i < v.length then v.getD (v.length - 1 - i) Cx.zero else hist.getD (i - v.length) Cx.zero := by
  rw [nextHist, List.getD_eq_getElem?_getD, List.getElem?_take_of_lt hi, ← List.getD_eq_getElem?_getD]
  split
  case isTrue h => rw [List.getD_append _ _ _ _ (by rwa [List.length_reverse]), List.getD_reverse _ h]
  case isFalse h =>
    rw [List.getD_append_right _ _ _ _ (by rw [List.length_reverse]; omega), List.length_reverse]

/-- Settles O23: the filter sample by sample, and the history entry by entry. -/
theorem transmitFilterFollowsTheStream : Obligations.TransmitFilterFollowsTheStream := by
  unfold Obligations.TransmitFilterFollowsTheStream
  intro c hist v hhist _ before
  exact ⟨rfl, fun h => txFilter_of_no_taps h true hist v,
    fun h => ⟨txFilter_length c true hist v, fun n hn => txFilter_getD h hist hn⟩, nextHist_length hhist v,
    fun i hi => nextHist_getD hist v hi⟩

/-! ## MODULATE (R250, R257) -/

/-- A bit window from an element on is the bits from that element's address on (20_memory R124). -/
theorem readBits_eq_bitsAt (s : State) (base start n : Nat) :
    s.readBits base start n = Spec.bitsAt s (base + start) n :=
  List.map_congr_left fun i _ => by rw [State.readBit, Nat.add_assoc]

/-- A component of an array of samples that one write stored (20_memory R124). -/
theorem readF32_writeSamples {s : State} (h : Memory.wf s.mem = true) {a n : Nat} {us : List C64} (hn : n < us.length) :
    (s.writeSamples a us).readF32 (a + 8 * n) = Fp.toF32 (us.getD n Cx.zero).re ∧
    (s.writeSamples a us).readF32 (a + 4 + 8 * n) = Fp.toF32 (us.getD n Cx.zero).im := by
  rw [List.getD_eq_getElem _ _ hn]
  constructor
  · refine readF32_of_readLE (readLE_records h sampleBytes_length hn (off := 0) (by decide) fun k hk => ?_)
    rw [Nat.zero_add, sampleBytes, List.getD_append _ _ _ _ (by rwa [f32Bytes_length])]
    rfl
  · rw [Nat.add_assoc, Nat.add_comm 4]
    refine readF32_of_readLE (readLE_records h sampleBytes_length hn (off := 4) (by decide) fun k hk => ?_)
    rw [sampleBytes, List.getD_append_right _ _ _ _ (by rw [f32Bytes_length]; omega), f32Bytes_length,
      Nat.add_sub_cancel_left]
    rfl

/-- A binary32 value depends on memory alone. -/
theorem readF32_mem {s t : State} (h : s.mem = t.mem) (hp : s.porCount = t.porCount) (a : Nat) :
    s.readF32 a = t.readF32 a :=
  congrArg (BitVec.ofNat 32) (readLE_mem h hp a 4)

/-- MODULATE with a wrong count (R250). -/
theorem exec_modulate_of_wrong_count {s : State} {m : Modem} (hm : s.modem = some m)
    (h : s.arg0.toNat ≠ m.cfg.bpf ∨ (s.arg1.toNat ≠ 0 ∧ s.arg1.toNat ≠ m.cfg.ntxtbits)) :
    exec .modulate s = .next (Spec.errorOf s .contractViolation) := by
  rw [exec, execModulate, State.needModem_of_some hm, ← completeError_eq_errorOf]
  by_cases h0 : s.arg0.toNat ≠ m.cfg.bpf
  · rw [if_pos h0]
  · rw [if_neg h0, if_pos (h.resolve_left h0)]

/-- MODULATE with the right counts sends the frame (R250). -/
theorem exec_modulate_of_right_counts {s : State} {m : Modem} (hm : s.modem = some m) (h0 : s.arg0.toNat = m.cfg.bpf)
    (h1 : s.arg1.toNat = 0 ∨ s.arg1.toNat = m.cfg.ntxtbits) : exec .modulate s = .next (s.modulateFrame m) := by
  rw [exec, execModulate, State.needModem_of_some hm, if_neg (not_not.2 h0), if_neg fun h => h1.elim h.1 h.2]

/-- What MODULATE leaves, with the frame's bits at their addresses: the written samples, the new history and RES0. -/
theorem modulateFrame_eq (s : State) (m : Modem) :
    let bits := frameBits m.cfg (Spec.bitsAt s 0x050000 m.cfg.bpf)
      (if s.arg1.toNat = m.cfg.ntxtbits then some (Spec.bitsAt s 0x058000 m.cfg.ntxtbits) else none)
    let v := frameSamples m.cfg m.dpsk bits
    let w := txFilter m.cfg (s.cmdCtrl.getLsbD 3) m.filtHist v
    s.modulateFrame m = { s with
      mem := (s.writeSamples 0x030000 (w.map (Cx.smul m.cfg.txScale))).mem
      modem := some { m with filtHist := nextHist m.filtHist v }
      res0 := BitVec.ofNat 32 m.cfg.spf, busy := false, done := true, err := false, errcode := .none,
      irqPend := s.irqPend ||| 0x1#32 } := by
  rw [State.modulateFrame, completeOk_eq, readBits_eq_bitsAt, readBits_eq_bitsAt]
  rfl

/-- Settles O19: the outcome is `modulateFrame`, whose one write stores the scaled samples as records. -/
theorem modulateSendsAFrame : Obligations.ModulateSendsAFrame := by
  unfold Obligations.ModulateSendsAFrame
  intro s m hm
  refine ⟨exec_modulate_of_wrong_count hm, ?frame⟩
  case frame =>
    intro hwf hv h0 h1 bits v w
    have b := ModemConfig.bounds_of_valid hv
    have hvlen : v.length = m.cfg.spf := frameSamples_length _ _ _ b.ncp (Nat.le_of_succ_le b.ns)
    have hwlen : w.length = m.cfg.spf := (txFilter_length _ _ _ _).trans hvlen
    let us := w.map (Cx.smul m.cfg.txScale)
    have huslen : us.length = m.cfg.spf := (List.length_map _).trans hwlen
    refine ⟨(s.writeSamples 0x030000 us).mem, hvlen, hwlen, ?exec, fun n hn => ?sample, fun a ha => ?outside⟩
    case exec => rw [exec_modulate_of_right_counts hm h0 h1, modulateFrame_eq]
    case sample =>
      have hscaled : us.getD n Cx.zero = Cx.smul m.cfg.txScale (w.getD n Cx.zero) := by
        rw [List.getD_eq_getElem _ _ (huslen ▸ hn), List.getElem_map, List.getD_eq_getElem _ _ (hwlen ▸ hn)]
      obtain ⟨hre, him⟩ := readF32_writeSamples (a := 0x030000) hwf (huslen ▸ hn)
      rw [hscaled] at hre him
      exact ⟨(readF32_mem rfl rfl _).trans hre, (readF32_mem rfl rfl _).trans him⟩
    case outside =>
      have hbytes : (us.flatMap sampleBytes).length = 8 * m.cfg.spf := by
        rw [flatMap_length _ _ 8 sampleBytes_length, huslen]
      exact (readByte_mem rfl rfl a).trans
        (State.readByte_writeBytes_outside (s := s) (bs := us.flatMap sampleBytes) hwf (by rwa [hbytes]))

end Sys2Proof.Machine
end

section
/-! The sample stream (42_demodulator R290, R291, 00_scope R18): what DEMODULATE and SYNC_SEARCH check and read, and where the
append leaves each sample. -/

namespace Sys2Proof.Machine

/-! ## The input samples (R290) -/

theorem sampleRe_eq (s : State) (i : Nat) : s.sampleRe i = s.readF32 (0x020000 + 8 * i) := rfl

theorem sampleIm_eq (s : State) (i : Nat) : s.sampleIm i = s.readF32 (0x020004 + 8 * i) := by
  rw [State.sampleIm, sampleInBase, Nat.add_right_comm]

theorem inputFinite_iff (s : State) (n : Nat) : s.inputFinite n = true ↔ Spec.InputFinite s n := by
  simp only [State.inputFinite, State.realIn, sampleRe_eq, sampleIm_eq, List.all_eq_true, List.mem_range,
    Bool.and_eq_true, Bool.or_eq_true, Spec.InputFinite]

theorem inputSamples_eq (s : State) (n : Nat) : s.inputSamples n = Spec.input s n :=
  List.map_congr_left fun i _ => by rw [State.inputSample, sampleRe_eq, sampleIm_eq]; rfl

theorem input_length (s : State) (n : Nat) : (Spec.input s n).length = n := by
  rw [Spec.input, List.length_map, List.length_range]

/-! ## The checks (R290, R291) -/

theorem withStream_of_bad_input {s : State} {m : Modem} (hm : s.modem = some m)
    (h : s.arg0.toNat ≠ m.nin ∨ ¬ Spec.InputFinite s m.nin) (f : Modem → State) :
    s.withStream f = Spec.errorOf s .contractViolation := by
  rw [State.withStream, State.needModem_of_some hm, ← completeError_eq_errorOf]
  by_cases h0 : s.arg0.toNat ≠ m.nin
  · rw [if_pos h0]
  · have hf : s.inputFinite m.nin = false := Bool.eq_false_iff.2 ((inputFinite_iff s m.nin).not.2 (h.resolve_left h0))
    rw [if_neg h0, hf, if_pos (by rfl)]

theorem withStream_of_good_input {s : State} {m : Modem} (hm : s.modem = some m) (h0 : s.arg0.toNat = m.nin)
    (hf : Spec.InputFinite s m.nin) (f : Modem → State) :
    s.withStream f = f (m.append (Spec.input s m.nin)) := by
  rw [State.withStream, State.needModem_of_some hm, if_neg (not_not.2 h0), (inputFinite_iff s m.nin).2 hf,
    if_neg (by decide), inputSamples_eq]

/-- Settles O24: both commands begin with the same check of their input. -/
theorem streamCommandsCheckTheirInput : Obligations.StreamCommandsCheckTheirInput := by
  unfold Obligations.StreamCommandsCheckTheirInput
  intro s m hm h
  exact ⟨congrArg _ (withStream_of_bad_input hm h _), congrArg _ (withStream_of_bad_input hm h _)⟩

/-! ## The append (R291, 00_scope R18) -/

theorem sample_of_ge {m : Modem} {i : Int} (h : (m.tAbs : Int) - m.cfg.rxbufLen ≤ i) :
    m.sample i = m.rx.getD (i - (m.tAbs - m.cfg.rxbufLen)).toNat Cx.zero :=
  if_pos (by omega)

theorem append_tAbs (m : Modem) (xs : List C64) : ((m.append xs).tAbs : Int) = m.tAbs + xs.length := by
  push_cast [Modem.append]
  rfl

/-- From the new buffer's first index on, the stream is the old buffer followed by the new samples. -/
theorem append_sample {m : Modem} (hrx : m.rx.length = m.cfg.rxbufLen) {xs : List C64} {i : Int}
    (h : ((m.append xs).tAbs : Int) - m.cfg.rxbufLen ≤ i) :
    (m.append xs).sample i = (m.rx ++ xs).getD (i - (m.tAbs - m.cfg.rxbufLen)).toNat Cx.zero := by
  have ht := append_tAbs m xs
  have hbuf : (m.append xs).rx = (m.rx ++ xs).drop xs.length := by
    rw [Modem.append, List.length_append, hrx, Nat.add_sub_cancel_left]
  rw [sample_of_ge h, hbuf, List.getD_eq_getElem?_getD, List.getElem?_drop, ← List.getD_eq_getElem?_getD]
  congr 1
  show xs.length + (i - ((m.append xs).tAbs - m.cfg.rxbufLen)).toNat = _
  omega

/-- Settles O25: a new sample stands after the old buffer, an older one in it, at its index in both. -/
theorem appendedSamplesHaveTheirIndex : Obligations.AppendedSamplesHaveTheirIndex := by
  unfold Obligations.AppendedSamplesHaveTheirIndex
  intro m xs hrx hxs m'
  have ht : (m'.tAbs : Int) = m.tAbs + xs.length := append_tAbs m xs
  refine ⟨rfl, append_rx_length hrx xs, fun k hk => ?new, fun i hlo hi => ?old, rfl⟩
  case new =>
    have hlo : (m'.tAbs : Int) - m.cfg.rxbufLen ≤ m.tAbs + k := by omega
    rw [append_sample hrx hlo, List.getD_append_right _ _ _ _ (by omega)]
    congr 1
    omega
  case old =>
    rw [append_sample hrx hlo, List.getD_append _ _ _ _ (by omega), sample_of_ge (by omega)]

end Sys2Proof.Machine
end

section
/-! The timing metric and SYNC_SEARCH (42_demodulator R304, R320 to R323). -/

namespace Sys2Proof.Machine

/-! ## The metric (R304) -/

theorem map_eq_map_range {α β : Type} (f : α → β) (l : List α) (d : α) :
    l.map f = (List.range l.length).map fun n => f (l.getD n d) := by
  refine List.ext_getElem (by simp) fun n hn _ => ?_
  rw [List.length_map] at hn
  rw [List.getElem_map, List.getElem_map, List.getElem_range, List.getD_eq_getElem _ _ hn]

/-- The metric sample by sample: the window against the pilot row, over the energies of both. -/
theorem mx_eq {m : Modem} (h : m.cfg.ncp ≤ m.cfg.m) (t : Int) :
    let p (n : Nat) : C64 := (symbolRow m.cfg m.cfg.pilots).getD n Cx.zero
    let overRow {α : Type} (f : Nat → α) : List α := (List.range (m.cfg.m + m.cfg.ncp)).map f
    let corr := Cx.sum (overRow fun n => Cx.mul (m.sample (t + n)) (Cx.conj (p n)))
    let energy := Fp.mul (Fp.sum (overRow fun n => Cx.normSq (m.sample (t + n)))) (Fp.sum (overRow fun n => Cx.normSq (p n)))
    m.mx t = if Fp.lt 0#64 energy = true then Fp.div (Cx.normSq corr) energy else 0#64 := by
  intro p overRow corr energy
  have hlen : (symbolRow m.cfg m.cfg.pilots).length = m.cfg.m + m.cfg.ncp := symbolRow_length _ _ h
  have hsample {α : Type} (f : Nat → C64 → α) :
      ((List.range (m.cfg.m + m.cfg.ncp)).map fun n => f n ((m.window t m.cfg.symLen).getD n Cx.zero)) =
        overRow fun n => f n (m.sample (t + n)) :=
    List.map_congr_left fun n hn => by rw [window_getD m t m.cfg.symLen n (List.mem_range.1 hn)]
  have hwindow : (m.window t m.cfg.symLen).length = m.cfg.m + m.cfg.ncp := by
    rw [Modem.window, List.length_map, List.length_range, ModemConfig.symLen]
  rw [Modem.mx, correlation, pilotWave, zipWith_eq_map_range _ Cx.zero Cx.zero (hwindow.trans hlen.symm), hlen,
    map_eq_map_range Cx.normSq (m.window t m.cfg.symLen) Cx.zero, hwindow,
    map_eq_map_range Cx.normSq (symbolRow m.cfg m.cfg.pilots) Cx.zero, hlen,
    hsample fun n x => Cx.mul x (Cx.conj (p n)), hsample fun _ x => Cx.normSq x]
  rfl

/-! ## The best start (R320) -/

/-- The starts SYNC_SEARCH tries, the first and the ones after it, are the offsets below SPF in order. -/
theorem searchOffsets_eq {n : Nat} (h : 1 ≤ n) :
    (0 : Int) :: (List.range (n - 1)).map (fun (k : Nat) => (k : Int) + 1) = (List.range n).map Nat.cast := by
  obtain ⟨j, rfl⟩ := Nat.exists_eq_add_of_le' h
  rw [Nat.add_sub_cancel, List.range_succ_eq_map, List.map_cons, List.map_map]
  rfl

/-- SYNC_SEARCH picks the first of its starts with the greatest metric. -/
theorem searchBest_spec {m : Modem} (h : 1 ≤ m.cfg.spf) :
    m.searchBest.2 = m.mx (m.searchLo + m.searchBest.1) ∧
    (∀ k : Int, 0 ≤ k → k < m.cfg.spf → Fp.lt m.searchBest.2 (m.mx (m.searchLo + k)) = false) ∧
    ∀ k : Int, 0 ≤ k → k < m.searchBest.1 → Fp.le m.searchBest.2 (m.mx (m.searchLo + k)) = false := by
  have hbest := bestOf_first m m.searchLo 0 ((List.range (m.cfg.spf - 1)).map fun (k : Nat) => ((k : Int) + 1))
  rw [Int.add_zero, searchOffsets_eq h] at hbest
  obtain ⟨hval, hmax, pre, post, hsplit, hpre⟩ := hbest
  have hmem {k : Int} (h0 : 0 ≤ k) (hk : k < m.cfg.spf) : k ∈ (List.range m.cfg.spf).map (Nat.cast : Nat → Int) :=
    List.mem_map.2 ⟨k.toNat, List.mem_range.2 (by omega), Int.toNat_of_nonneg h0⟩
  refine ⟨hval, fun k h0 hk => hmax k (hmem h0 hk), fun k h0 hk => hpre k ?earlier⟩
  case earlier =>
    have hsorted : ((List.range m.cfg.spf).map (Nat.cast : Nat → Int)).Pairwise (· < ·) :=
      List.pairwise_lt_range.map _ fun _ _ => Int.ofNat_lt.2
    have hk' := hmem h0 (hk.trans (searchBest_mem h).2)
    rw [hsplit] at hsorted hk'
    obtain ⟨-, hafter, -⟩ := List.pairwise_append.1 hsorted
    have hpost := (List.pairwise_cons.1 hafter).1
    obtain hk' | hk' := List.mem_append.1 hk'
    · exact hk'
    · obtain rfl | hk' := List.mem_cons.1 hk'
      · exact absurd hk (lt_irrefl _)
      · exact absurd hk (hpost k hk').le.not_gt

/-- Settles O34: the fold over the starts keeps the first greatest, and the metric is R304's formula. -/
theorem searchPicksTheEarliestBest : Obligations.SearchPicksTheEarliestBest := by
  unfold Obligations.SearchPicksTheEarliestBest
  intro m h lo best
  obtain ⟨hval, hmax, hfirst⟩ := searchBest_spec h
  obtain ⟨h0, hspf⟩ := searchBest_mem h
  exact ⟨h0, hspf, hval, hmax, hfirst, fun hncp t => mx_eq hncp t⟩

/-! ## What SYNC_SEARCH leaves (R320, R322, R323) -/

/-- SYNC_SEARCH on good input, as one record update. -/
theorem exec_syncSearch_of_good_input {s : State} {m : Modem} (hm : s.modem = some m) (h0 : s.arg0.toNat = m.nin)
    (hf : Spec.InputFinite s m.nin) :
    let m1 := m.append (Spec.input s m.nin)
    exec .syncSearch s = .next { s with
      modem := some (searchModem m1), res0 := BitVec.ofNat 32 (Fp.lt m.cfg.timingMxThresh m1.searchBest.2).toNat,
      res1 := BitVec.ofInt 32 m1.searchBest.1, res2 := Fp.toF32 m1.searchBest.2,
      busy := false, done := true, err := false, errcode := .none, irqPend := s.irqPend ||| 0x1#32 } := by
  rw [exec, execSyncSearch, withStream_of_good_input hm h0 hf]
  rfl

theorem searchModem_of_found {m : Modem} (h : Fp.lt m.cfg.timingMxThresh m.searchBest.2 = true) :
    searchModem m = { m.latchCandidate (m.searchLo + m.searchBest.1) with
      timingMx := m.searchBest.2, nin := m.cfg.spf, outValid := false } := by
  rw [searchModem, if_pos h]

theorem searchModem_of_not_found {m : Modem} (h : Fp.lt m.cfg.timingMxThresh m.searchBest.2 = false) :
    searchModem m = { m with
      frameStart := (m.tAbs : Int) - m.cfg.spf, timingMx := m.searchBest.2, nin := m.cfg.spf, outValid := false } := by
  rw [searchModem, if_neg (Bool.eq_false_iff.1 h)]

/-- The NCP samples at a start against their copy M samples later, both counted from the start (R322). -/
theorem coarseFoff_eq (m : Modem) (t : Int) : m.coarseFoff t = Fp.div
    (Fp.mul (Cx.arg (Cx.sum ((List.range m.cfg.ncp).map fun n =>
      Cx.mul (m.sample (t + ((m.cfg.m + n : Nat) : Int))) (Cx.conj (m.sample (t + (n : Int))))))) m.cfg.fs)
    (Fp.mul Fp.twoPi (Fp.ofNat m.cfg.m)) := by
  simp only [Nat.cast_add, ← Int.add_assoc]
  rfl

/-- Settles O35: the two branches of the search, with the coarse frequency of the candidate. -/
theorem syncSearchLatchesOrRealigns : Obligations.SyncSearchLatchesOrRealigns := by
  unfold Obligations.SyncSearchLatchesOrRealigns
  intro s m hm h0 hf m1 lo best x foff t
  refine ⟨fun hfound => ?found, fun hnot => ?notFound⟩
  case found =>
    have hfoff : m1.coarseFoff (lo + best.1) = foff := coarseFoff_eq m1 _
    rw [exec_syncSearch_of_good_input hm h0 hf, searchModem_of_found hfound, hfound, ← hfoff]
    rfl
  case notFound =>
    rw [exec_syncSearch_of_good_input hm h0 hf, searchModem_of_not_found hnot, hnot]
    rfl

end Sys2Proof.Machine
end

section
/-! The channel estimate and the symbol correction (42_demodulator R305, R306). -/

namespace Sys2Proof.Machine

/-! ## The averaging window (R305) -/

/-- The carriers of `c - 1`, `c`, `c + 1` that exist, counted from `c - 1` on. -/
theorem neighbours_eq {nc c : Nat} (hc : c < nc) (h : List C64) : neighbours nc h c =
    ((List.range 3).filter fun d => decide (1 ≤ c + d ∧ c + d - 1 < nc)).map fun d => h.getD (c + d - 1) Cx.zero := by
  have hpred : c - 1 < nc := by omega
  rw [neighbours, show List.range 3 = [0, 1, 2] from rfl]
  by_cases hbelow : 1 ≤ c <;> by_cases habove : c + 1 < nc <;>
    simp [hc, hpred, hbelow, habove]

theorem neighbours_length_pos (nc : Nat) (h : List C64) (c : Nat) : 1 ≤ (neighbours nc h c).length := by
  simp only [neighbours, List.length_map, List.length_append, List.length_singleton]
  omega

theorem channelTerms_of_no_history {m : Modem} (h : m.phaseBw = .high ∨ m.prevValid = false) (ht hn : List C64)
    (c : Nat) : m.channelTerms ht hn c = neighbours m.cfg.nc ht c ++ neighbours m.cfg.nc hn c := by
  have hsets : m.pilotSets ht hn = [ht, hn] := by
    rw [Modem.pilotSets, if_neg (by rcases h with h | h <;> simp [h])]
    rfl
  rw [Modem.channelTerms, hsets, List.flatMap_cons, List.flatMap_cons, List.flatMap_nil, List.append_nil]

theorem channelTerms_of_history {m : Modem} (hb : m.phaseBw = .low) (hp : m.prevValid = true) (ht hn : List C64)
    (c : Nat) : m.channelTerms ht hn c =
      neighbours m.cfg.nc m.prevPilot c ++ (neighbours m.cfg.nc ht c ++ neighbours m.cfg.nc hn c) := by
  have hsets : m.pilotSets ht hn = [m.prevPilot, ht, hn] := by
    rw [Modem.pilotSets, if_pos (by simp [hb, hp])]
    rfl
  rw [Modem.channelTerms, hsets, List.flatMap_cons, List.flatMap_cons, List.flatMap_cons, List.flatMap_nil,
    List.append_nil]

theorem channelTerms_length_ge (m : Modem) (ht hn : List C64) (c : Nat) : 2 ≤ (m.channelTerms ht hn c).length := by
  have h1 := neighbours_length_pos m.cfg.nc ht c
  have h2 := neighbours_length_pos m.cfg.nc hn c
  simp only [Modem.channelTerms, Modem.pilotSets, List.flatMap_append, List.flatMap_cons, List.flatMap_nil,
    List.length_append, List.append_nil]
  omega

/-- Settles O30: the window is the neighbours in each pilot set, and the estimates are defined on it. -/
theorem channelWindowFollowsTheBandwidth : Obligations.ChannelWindowFollowsTheBandwidth := by
  unfold Obligations.ChannelWindowFollowsTheBandwidth
  intro m ht hn c hc window
  have hwindow (h : List C64) : neighbours m.cfg.nc h c = window h := neighbours_eq hc h
  refine ⟨fun hb => ?high, fun _ hp => ?first, fun hb hp => ?low, channelTerms_length_ge m ht hn c, rfl, rfl⟩
  case high => rw [channelTerms_of_no_history (.inl hb), hwindow, hwindow]
  case first => rw [channelTerms_of_no_history (.inr hp), hwindow, hwindow]
  case low => rw [channelTerms_of_history hb hp, hwindow, hwindow, hwindow]

/-! ## The correction (R306) -/

theorem correct_of_coherent {m : Modem} (hd : m.dpsk = false) (phi a : F64) (pilot y yPrev : C64) :
    m.correct phi a pilot y yPrev = if m.phaseEn then Cx.mul y (Cx.expj (Fp.neg phi)) else y :=
  if_neg (Bool.eq_false_iff.1 hd)

theorem correct_of_dpsk {m : Modem} (hd : m.dpsk = true) (phi a : F64) (pilot y yPrev : C64) :
    m.correct phi a pilot y yPrev = if Fp.lt Fp.zero a then
      Cx.divReal (Cx.mul y (Cx.conj yPrev)) (Fp.mul a (Cx.normSq pilot)) else Cx.zero :=
  if_pos hd

end Sys2Proof.Machine
end

section
/-! An emission (42_demodulator R300 to R313): the frame it reads, what it stores of it, and how the modem moves on. -/

namespace Sys2Proof.Machine

/-! ## The emission as one update

Fine timing changes only its own two fields, so the rest of the emission may read the modem as it was before. -/

/-- How far F advances: SPF and the step of fine timing (R300, R301). -/
def Modem.frameLen (m : Modem) : Int := (m.cfg.spf : Int) + m.fineTiming.1

/-- The carrier values of the emitted frame's row whose body starts at `off`, as the emission computes them (R303). -/
def Modem.frameRow (m : Modem) (off : Nat) : List C64 :=
  dftRow m.cfg (m.derotate (m.frameLen.toNat + m.cfg.symLen)) off

/-- The carrier values of rows 0 .. NS-1 of the emitted frame (R300). -/
def Modem.frameRows (m : Modem) : List (List C64) :=
  (List.range m.cfg.ns).map fun r => m.frameRow (r * m.cfg.symLen + m.cfg.ncp)

/-- `Ht`: the pilot row of the emitted frame, as the emission computes it (R300). -/
def Modem.pilotsHere (m : Modem) : List C64 := pilotRemoved m.cfg (m.frameRows.getD 0 [])

/-- `Hn`: the pilot row of the frame after it (R300). -/
def Modem.pilotsNext (m : Modem) : List C64 := pilotRemoved m.cfg (m.frameRow (m.frameLen.toNat + m.cfg.ncp))

/-- The symbols and bits of the emitted frame (R306, R307, R313). -/
def Modem.frameSymbols (m : Modem) : Emission := m.symbols m.frameRows m.pilotsHere m.pilotsNext

theorem emit_eq (m : Modem) : m.emit = (m.frameSymbols, { m with
    timingMx := m.fineTiming.2.timingMx, driftAcc := m.fineTiming.2.driftAcc
    outSigma2 := noiseVar m.cfg m.pilotsHere m.pilotsNext
    snrDb := snrOf (pilotPower m.cfg m.pilotsHere) (noiseVar m.cfg m.pilotsHere m.pilotsNext)
    foffEst := m.fineFreq m.pilotsHere m.pilotsNext m.frameLen, foffPhase := m.nextPhase m.frameLen
    prevPilot := m.pilotsHere, prevValid := true, frameStart := m.frameStart + m.frameLen, nin := m.frameLen.toNat
    clkAdjSum := m.clkAdjSum + m.fineTiming.1, clkSamples := m.clkSamples + m.frameLen
    clockPpm := clockPpmOf (m.clkAdjSum + m.fineTiming.1) (m.clkSamples + m.frameLen)
    outZ := m.frameSymbols.z, outA := m.frameSymbols.a, outPhi := m.frameSymbols.phi, outBits := m.frameSymbols.bits
    uwErrs := uwErrors m.cfg m.frameSymbols.bits, outValid := true, frameCount := m.frameCount + 1 }) := by
  have hft := (fineTiming_spec m).2.2
  unfold Modem.emit Modem.frameSymbols Modem.pilotsNext Modem.pilotsHere Modem.frameRows Modem.frameRow Modem.frameLen
  generalize m.fineTiming = ft at hft ⊢
  obtain ⟨adj, m1⟩ := ft
  obtain ⟨mx, drift, rfl⟩ : ∃ mx drift, m1 = { m with timingMx := mx, driftAcc := drift } := ⟨_, _, hft⟩
  rfl

theorem emit_frameStart (m : Modem) : m.emit.2.frameStart = m.frameStart + m.frameLen := by rw [emit_eq]

theorem emit_nin (m : Modem) : m.emit.2.nin = m.frameLen.toNat := by rw [emit_eq]

/-! ## The rows an emission reads (R302, R303) -/

/-- A row whose body lies in the de-rotated samples holds the carriers of the frame at F. -/
theorem dftRow_derotate {m : Modem} (hs : m.cfg.Shaped) {len off : Nat} (h : off + m.cfg.m ≤ len) :
    dftRow m.cfg (m.derotate len) off = (List.range m.cfg.nc).map (Spec.carrier m off) := by
  rw [dftRow, map_eq_map_range _ _ 0, hs.bins]
  refine List.map_congr_left fun k _ => dftBin_congr fun n hn => ?_
  rw [derotate_getD m len (off + n) (by omega)]
  rfl

theorem pilotRemoved_carriers {m : Modem} (hs : m.cfg.Shaped) (off : Nat) :
    pilotRemoved m.cfg ((List.range m.cfg.nc).map (Spec.carrier m off)) = Spec.pilotRow m off := by
  have hlen : ((List.range m.cfg.nc).map (Spec.carrier m off)).length = m.cfg.pilots.length := by
    rw [List.length_map, List.length_range, hs.pilots]
  rw [pilotRemoved, zipWith_eq_map_range Cx.div Cx.zero Cx.zero hlen, hs.pilots]
  exact List.map_congr_left fun k hk => by rw [getD_map_range _ _ (List.mem_range.1 hk)]

theorem pilotRow_length (m : Modem) (off : Nat) : (Spec.pilotRow m off).length = m.cfg.nc := by
  rw [Spec.pilotRow, List.length_map, List.length_range]

theorem pilotsNext_eq {m : Modem} (hs : m.cfg.Shaped) :
    m.pilotsNext = Spec.pilotRow m (m.frameLen.toNat + m.cfg.ncp) := by
  have hsym : m.cfg.symLen = m.cfg.m + m.cfg.ncp := rfl
  rw [Modem.pilotsNext, Modem.frameRow, dftRow_derotate hs (by omega), pilotRemoved_carriers hs]

section
variable {m : Modem} (hv : m.cfg.valid = true) (hs : m.cfg.Shaped)
include hv hs

/-- The bodies of the frame's own rows lie in the samples the emission de-rotates: the frame is at most one sample short of
SPF, and a symbol row longer than that follows it. -/
theorem frameRows_getD {r : Nat} (hr : r < m.cfg.ns) : m.frameRows.getD r [] =
    (List.range m.cfg.nc).map (Spec.carrier m (r * m.cfg.symLen + m.cfg.ncp)) := by
  have hadj := (fineTiming_spec m).1
  have hm := (ModemConfig.bounds_of_valid hv).m
  have hsym : m.cfg.symLen = m.cfg.m + m.cfg.ncp := rfl
  have hrow : r * m.cfg.symLen + m.cfg.symLen ≤ m.cfg.spf := by
    rw [← Nat.succ_mul]
    exact Nat.mul_le_mul_right _ hr
  rw [Modem.frameRows, getD_map_range _ _ hr, Modem.frameRow, dftRow_derotate hs]
  unfold Modem.frameLen
  omega

theorem pilotsHere_eq : m.pilotsHere = Spec.pilotRow m m.cfg.ncp := by
  have hns := (ModemConfig.bounds_of_valid hv).ns
  rw [Modem.pilotsHere, frameRows_getD hv hs (by omega), Nat.zero_mul, Nat.zero_add, pilotRemoved_carriers hs]

end

/-! ## The estimators, carrier by carrier (R308, R311) -/

theorem noiseVar_eq {c : ModemConfig} {ht hn : List C64} (h : ht.length = c.nc) (h' : hn.length = c.nc) :
    noiseVar c ht hn = Fp.max c.sigma2Min (Fp.mul (Fp.div Fp.one (Fp.ofNat (2 * c.nc)))
      (Fp.sum ((List.range c.nc).map fun k => Cx.normSq (Cx.sub (hn.getD k Cx.zero) (ht.getD k Cx.zero))))) := by
  rw [noiseVar, zipWith_eq_map_range _ Cx.zero Cx.zero (h.trans h'.symm), h']

theorem pilotPower_eq {c : ModemConfig} {ht : List C64} (h : ht.length = c.nc) :
    pilotPower c ht = Fp.mul (Fp.div Fp.one (Fp.ofNat c.nc))
      (Fp.sum ((List.range c.nc).map fun k => Cx.normSq (ht.getD k Cx.zero))) := by
  rw [pilotPower, map_eq_map_range _ _ Cx.zero, h]

theorem phaseStep_eq {nc : Nat} {ht hn : List C64} (h : ht.length = nc) (h' : hn.length = nc) :
    phaseStep ht hn = Cx.arg (Cx.sum ((List.range nc).map fun k =>
      Cx.mul (hn.getD k Cx.zero) (Cx.conj (ht.getD k Cx.zero)))) := by
  rw [phaseStep, zipWith_eq_map_range _ Cx.zero Cx.zero (h.trans h'.symm), h']

theorem fineFreq_of_disabled {m : Modem} (h : m.foffEn = false) (ht hn : List C64) (len : Int) :
    m.fineFreq ht hn len = m.foffEst := if_neg (Bool.eq_false_iff.1 h)

theorem fineFreq_of_enabled {m : Modem} (h : m.foffEn = true) (ht hn : List C64) (len : Int) :
    m.fineFreq ht hn len = Fp.add m.foffEst
      (Fp.div (Fp.mul (Fp.mul m.cfg.foffEstGain (phaseStep ht hn)) m.cfg.fs) (Fp.mul Fp.twoPi (Fp.ofInt len))) :=
  if_pos h

/-! ## Fine timing (R301) -/

/-- What fine timing finds, and the step and the drift that follow from it. -/
theorem fineTiming_of_enabled {m : Modem} (h : m.timingEn = true) : ∃ tau : Int,
    (tau.natAbs ≤ m.cfg.ftWin ∧ m.fineTiming.2.timingMx = m.mx (m.frameStart + m.cfg.spf + tau) ∧
      ∀ u : Int, u.natAbs ≤ m.cfg.ftWin →
        Fp.lt (m.mx (m.frameStart + m.cfg.spf + tau)) (m.mx (m.frameStart + m.cfg.spf + u)) = false ∧
        (Spec.TriedBefore u tau →
          Fp.le (m.mx (m.frameStart + m.cfg.spf + tau)) (m.mx (m.frameStart + m.cfg.spf + u)) = false)) ∧
    (m.fineTiming.1, m.fineTiming.2.driftAcc) =
      driftStep (Fp.add m.driftAcc (Fp.mul m.cfg.timingGain (Fp.ofInt tau))) := by
  obtain ⟨hwin, hval, hbest⟩ := fineBest_spec m (m.frameStart + m.cfg.spf)
  rw [hval] at hbest
  rw [Modem.fineTiming, if_pos h]
  exact ⟨_, ⟨hwin, hval, hbest⟩, rfl⟩

theorem driftStep_of_one_le {x : F64} (h : Fp.le Fp.one x = true) : driftStep x = (1, Fp.sub x Fp.one) := if_pos h

theorem driftStep_of_le_neg_one {x : F64} (h : Fp.le Fp.one x = false) (h' : Fp.le x (Fp.neg Fp.one) = true) :
    driftStep x = (-1, Fp.add x Fp.one) := by
  rw [driftStep, h, if_neg Bool.false_ne_true, if_pos h']

theorem driftStep_of_between {x : F64} (h : Fp.le Fp.one x = false) (h' : Fp.le x (Fp.neg Fp.one) = false) :
    driftStep x = (0, x) := by
  rw [driftStep, h, if_neg Bool.false_ne_true, h', if_neg Bool.false_ne_true]

end Sys2Proof.Machine
end

section
/-! What an emission stores of the frame and how it advances the modem (42_demodulator R300 to R313), as the statements put it. -/

namespace Sys2Proof.Machine

/-! ## How the modem moves on (R300, R301, R308, R309, R311, R312) -/

/-- Settles O28: an emission is the update of `emit_eq`, whose pilot rows are the frame's, and fine timing is the search of
`fineTiming_of_enabled`. -/
theorem anEmissionAdvancesTheModem : Obligations.AnEmissionAdvancesTheModem := by
  unfold Obligations.AnEmissionAdvancesTheModem
  intro m
  refine ⟨m.fineTiming.1, (fineTiming_spec m).1, ?_⟩
  rw [emit_eq]
  refine ⟨fun h => ?noTiming, fun h => ?timing, fun hv hs => ?estimates, rfl, rfl, rfl, rfl, rfl, rfl,
    fun h => fineFreq_of_disabled h _ _ _, rfl, rfl, rfl, Fp.max_not_lt _ _, rfl⟩
  case noTiming =>
    have hft : m.fineTiming = (0, m) := (fineTiming_spec m).2.1 h
    rw [hft]
    exact ⟨rfl, rfl, rfl⟩
  case timing =>
    obtain ⟨tau, ⟨hwin, hval, hbest⟩, hstep⟩ := fineTiming_of_enabled h
    refine ⟨tau, hwin, hval, hbest, fun h1 => ?later, fun h1 h2 => ?earlier, fun h1 h2 => ?stay⟩
    case later => exact Prod.mk.inj (hstep.trans (driftStep_of_one_le h1))
    case earlier => exact Prod.mk.inj (hstep.trans (driftStep_of_le_neg_one h1 (neg_one_bits ▸ h2)))
    case stay => exact Prod.mk.inj (hstep.trans (driftStep_of_between h1 (neg_one_bits ▸ h2)))
  case estimates =>
    have hht := pilotRow_length m m.cfg.ncp
    have hhn := pilotRow_length m (m.frameLen.toNat + m.cfg.ncp)
    rw [pilotsHere_eq hv hs, pilotsNext_eq hs, noiseVar_eq hht hhn, pilotPower_eq hht]
    refine ⟨rfl, rfl, fun h => if_pos h, fun h => if_neg (Bool.eq_false_iff.1 h), fun h => ?foff⟩
    rw [fineFreq_of_enabled h, phaseStep_eq hht hhn]
    rfl

/-! ## Symbols and bits (R306, R307, R313) -/

/-- The unique-word error count, position by position (R307). -/
theorem uwErrors_eq {c : ModemConfig} (hs : c.Shaped) (bits : List Bool) : uwErrors c bits =
    ((List.range c.nuwbits).filter fun k => bits.getD (c.uwPos.getD k 0) false != c.uwBits.getD k false).length := by
  have hzip : List.zip c.uwPos c.uwBits =
      (List.range c.nuwbits).map fun k => (c.uwPos.getD k 0, c.uwBits.getD k false) := by
    rw [List.zip, zipWith_eq_map_range _ 0 false (hs.uwPos.trans hs.uwBits.symm), hs.uwBits]
  rw [uwErrors, hzip, List.countP_map, List.countP_eq_length_filter]
  rfl

/-- Settles O29: the stored bits are the demapped symbols, and UW_ERRS counts over the pairs of the two tables. -/
theorem hardBitsAreAxisSigns : Obligations.HardBitsAreAxisSigns := by
  unfold Obligations.HardBitsAreAxisSigns
  intro m hv hs m2
  obtain ⟨hz, ha, hphi, hbits⟩ := emit_lengths m
  refine ⟨hz, ha, hphi, ?length, fun i hi => ?bits, ?uwErrs⟩
  case length =>
    rw [hbits, demapBits_length, hz, (ModemConfig.bounds_of_valid hv).bpf_eq]
  case bits =>
    rw [hbits]
    exact demapBits_get _ i (hz ▸ hi)
  case uwErrs => exact uwErrors_eq hs m2.outBits

/-- Settles O31: the four cases of the correction, and the rows an emission corrects are the frame's. -/
theorem symbolCorrectionFollowsTheMode : Obligations.SymbolCorrectionFollowsTheMode := by
  unfold Obligations.SymbolCorrectionFollowsTheMode
  refine ⟨fun m phi a pilot y yPrev => ⟨fun hd hp => ?rotated, fun hd hp => ?raw, fun hd ha => ?dpsk, fun hd ha => ?zero⟩,
    fun m i hv hs hi => ?stored⟩
  case rotated => rw [correct_of_coherent hd, if_pos hp]
  case raw => rw [correct_of_coherent hd, if_neg (Bool.eq_false_iff.1 hp)]
  case dpsk => rw [correct_of_dpsk hd, if_pos ha]
  case zero => rw [correct_of_dpsk hd, if_neg (Bool.eq_false_iff.1 ha)]; rfl
  case stored =>
    intro m2 ht hn r k body
    have hnc : 0 < m.cfg.nc := Nat.pos_of_ne_zero fun h0 => by simp [ModemConfig.nds, h0] at hi
    have hr : r < m.cfg.ns := Nat.add_lt_of_lt_sub' (Nat.div_lt_of_lt_mul hi)
    have hcarrier {row : Nat} (hrow : row < m.cfg.ns) :
        (m.frameRows.getD row []).getD k Cx.zero = Spec.carrier m (body row) k := by
      rw [frameRows_getD hv hs hrow, getD_map_range _ _ (Nat.mod_lt i hnc)]
    obtain ⟨ha, hphi, hz⟩ := symbols_get m m.frameRows m.pilotsHere m.pilotsNext i hi
    rw [hcarrier hr, hcarrier (lt_of_le_of_lt (Nat.sub_le _ _) hr)] at hz
    have hht : ht = m.pilotsHere := (pilotsHere_eq hv hs).symm
    have hhn : hn = m.pilotsNext := by rw [pilotsNext_eq hs, ← emit_nin]
    rw [hht, hhn]
    simp only [m2, emit_eq]
    exact ⟨ha, hphi, hz⟩

end Sys2Proof.Machine
end

section
/-! DEMODULATE (42_demodulator R292, R300, R313) and the stream position (R292, R310): what the command leaves with and without a
frame, that `nin` stays within one sample of SPF, and that an emission reads inside the sample buffer. -/

namespace Sys2Proof.Machine

/-! ## Without a frame (R292) -/

theorem demodulateFrame_of_not_emits {s : State} {m : Modem} (h : m.emits = false) : s.demodulateFrame m = { s with
    modem := some { m with outValid := false, nin := m.cfg.spf }, res0 := BitVec.ofNat 32 m.cfg.spf, res1 := 0,
    busy := false, done := true, err := false, errcode := .none, irqPend := s.irqPend ||| 0x1#32 } := by
  rw [State.demodulateFrame, h, if_neg Bool.false_ne_true, completeOk_eq]

/-- Settles O26: on good input DEMODULATE is `demodulateFrame`, here its branch without a frame. -/
theorem demodulateWithoutAFrame : Obligations.DemodulateWithoutAFrame := by
  unfold Obligations.DemodulateWithoutAFrame
  intro s m hm h0 hf m1 hlag
  have hemits : m1.emits = false := decide_eq_false (not_le.2 hlag)
  rw [exec, execDemodulate, withStream_of_good_input hm h0 hf, demodulateFrame_of_not_emits hemits]
  rfl

/-! ## The frame in SYM_OUT and BIT_OUT (R313, 20_memory R124) -/

/-- A write leaves a binary32 value that lies beside it. -/
theorem readF32_writeBytes_outside {s : State} (h : Memory.wf s.mem = true) {a x : Nat} {bs : List Byte}
    (hx : x + 4 ≤ a ∨ a + bs.length ≤ x) : (s.writeBytes a bs).readF32 x = s.readF32 x :=
  congrArg (BitVec.ofNat 32) (State.readLE_congr fun k hk => State.readByte_writeBytes_outside h (by omega))

/-- Field `j` of a symbol record: re, im, amplitude, phase. -/
theorem symbolBytes_getD (z : C64) (a phi : F64) {j k : Nat} (hj : j < 4) (hk : k < 4) :
    (symbolBytes z a phi).getD (4 * j + k) 0 = (f32Bytes ([z.re, z.im, a, phi].getD j Fp.zero)).getD k 0 := by
  have hfields : symbolBytes z a phi = [z.re, z.im, a, phi].flatMap f32Bytes := by
    simp only [symbolBytes, List.flatMap_cons, List.flatMap_nil, List.append_nil, List.append_assoc]
  have hj : j < [z.re, z.im, a, phi].length := hj
  rw [hfields, flatMap_getD _ _ 4 f32Bytes_length j k hk hj, List.getD_eq_getElem _ _ hj]

/-- An emission whose symbols all have their metadata. -/
structure Emission.Whole (e : Emission) (n : Nat) : Prop where
  z : e.z.length = n
  a : e.a.length = n
  phi : e.phi.length = n

theorem emit_whole (m : Modem) : m.emit.1.Whole m.cfg.nds := by
  obtain ⟨hz, ha, hphi, -⟩ := emit_lengths m
  exact ⟨hz, ha, hphi⟩

theorem Emission.Whole.symBytes_length {e : Emission} {n : Nat} (he : e.Whole n) : e.symBytes.length = 16 * n := by
  rw [Emission.symBytes, flatMap_length _ _ 16 fun _ => symbolBytes_length _ _ _, List.length_zip, List.length_zip,
    he.z, he.a, he.phi, Nat.min_self, Nat.min_self]

/-- Field `j` of symbol record `i` reads back as it was emitted. -/
theorem Emission.Whole.readF32_symBytes {e : Emission} {n : Nat} (he : e.Whole n) {s : State}
    (h : Memory.wf s.mem = true) (a : Nat) {i j : Nat} (hi : i < n) (hj : j < 4) :
    (s.writeBytes a e.symBytes).readF32 (a + (16 * i + 4 * j)) = Fp.toF32
      ([(e.z.getD i Cx.zero).re, (e.z.getD i Cx.zero).im, e.a.getD i Fp.zero, e.phi.getD i Fp.zero].getD j Fp.zero) := by
  have hiz : i < e.z.length := he.z ▸ hi
  have hia : i < e.a.length := he.a ▸ hi
  have hip : i < e.phi.length := he.phi ▸ hi
  have hzip : i < (List.zip e.z (List.zip e.a e.phi)).length := by
    rw [List.length_zip, List.length_zip]
    exact lt_min hiz (lt_min hia hip)
  refine readF32_of_readLE (readLE_records h (fun _ => symbolBytes_length _ _ _) hzip (by omega) fun k hk => ?_)
  rw [symbolBytes_getD _ _ _ hj hk, List.getElem_zip, List.getElem_zip, List.getD_eq_getElem _ _ hiz,
    List.getD_eq_getElem _ _ hia, List.getD_eq_getElem _ _ hip]
  rfl

/-- Settles O27: the outcome is `demodulateFrame`, whose two writes store the symbol records and the bits; neither reaches the
other's window. -/
theorem demodulateEmitsAFrame : Obligations.DemodulateEmitsAFrame := by
  unfold Obligations.DemodulateEmitsAFrame
  intro s m hm hwf hv h0 hf m1 hlag
  have b := ModemConfig.bounds_of_valid hv
  have hnds := b.nds
  have he : m1.emit.1.Whole m.cfg.nds := emit_whole m1
  have hsyms := he.symBytes_length
  have hbits : m1.emit.1.bits.length = m.cfg.bpf := by
    rw [(emit_out m1).2.2.2, (emit_lengths m1).2.2.2, demapBits_length, (emit_lengths m1).1]
    exact b.bpf_eq.symm
  have hbytes : (m1.emit.1.bits.map bitByte).length = m.cfg.bpf := (List.length_map _).trans hbits
  have hwf' : Memory.wf (s.writeBytes 0x040000 m1.emit.1.symBytes).mem = true := State.writeBytes_wf hwf
  refine ⟨((s.writeBytes 0x040000 m1.emit.1.symBytes).writeBits 0x060000 m1.emit.1.bits).mem, ?_⟩
  intro m2 t
  refine ⟨?exec, fun i hi => ?symbol, fun k hk => ?bit, fun a ha ha' => ?outside⟩
  case exec =>
    have hemits : m1.emits = true := decide_eq_true hlag
    rw [exec, execDemodulate, withStream_of_good_input hm h0 hf, demodulateFrame_eq hemits]
    rfl
  case symbol =>
    have field {j : Nat} (hj : j < 4) : t.readF32 (0x040000 + (16 * i + 4 * j)) = Fp.toF32
        ([(m2.outZ.getD i Cx.zero).re, (m2.outZ.getD i Cx.zero).im, m2.outA.getD i Fp.zero,
          m2.outPhi.getD i Fp.zero].getD j Fp.zero) :=
      (readF32_mem rfl rfl _).trans ((readF32_writeBytes_outside hwf' (.inl (by omega))).trans
        (he.readF32_symBytes hwf 0x040000 hi hj))
    have him := field (j := 1) (by decide)
    have hamp := field (j := 2) (by decide)
    have hphi := field (j := 3) (by decide)
    rw [show 0x040000 + (16 * i + 4 * 1) = 0x040004 + 16 * i by omega] at him
    rw [show 0x040000 + (16 * i + 4 * 2) = 0x040008 + 16 * i by omega] at hamp
    rw [show 0x040000 + (16 * i + 4 * 3) = 0x04000C + 16 * i by omega] at hphi
    exact ⟨field (j := 0) (by decide), him, hamp, hphi⟩
  case bit => exact (readByte_mem rfl rfl _).trans (writeBits_bit hwf' (hbits ▸ hk))
  case outside =>
    exact (readByte_mem rfl rfl a).trans
      ((State.readByte_writeBytes_outside hwf' (by rwa [hbytes])).trans
        (State.readByte_writeBytes_outside hwf (by rwa [hsyms])))

/-! ## The number of samples to come (R310) -/

/-- R310: `nin` is within one sample of SPF, and SPF is positive. -/
def Modem.NinNear (m : Modem) : Prop :=
  (m.nin + 1 = m.cfg.spf ∨ m.nin = m.cfg.spf ∨ m.nin = m.cfg.spf + 1) ∧ 1 ≤ m.cfg.spf

theorem Modem.NinNear.of_same {m m' : Modem} (h : m.NinNear) (hn : m'.nin = m.nin) (hc : m'.cfg = m.cfg) :
    m'.NinNear := by
  rwa [Modem.NinNear, hn, hc]

theorem Modem.ninNear_of_eq_spf {m : Modem} (h : 1 ≤ m.cfg.spf) (hn : m.nin = m.cfg.spf) : m.NinNear :=
  ⟨.inr (.inl hn), h⟩

/-- An emission asks for SPF samples and the step of fine timing (R301). -/
theorem emit_ninNear {m : Modem} (h : 1 ≤ m.cfg.spf) : m.emit.2.NinNear := by
  have hadj := (fineTiming_spec m).1
  rw [Modem.NinNear, emit_nin, emit_cfg, Modem.frameLen]
  omega

theorem searchModem_cfg (m : Modem) : (searchModem m).cfg = m.cfg := by
  unfold searchModem
  split <;> rfl

theorem applySyncRow_nin (m : Modem) (d : Bool) (r : SyncRow) : (m.applySyncRow d r).nin = m.nin := by cases r <;> rfl

theorem setPolicy_stream (m : Modem) (p : Policy) (d : Bool) :
    (m.setPolicy p d).nin = m.nin ∧ (m.setPolicy p d).cfg = m.cfg := by
  unfold Modem.setPolicy
  split <;> exact ⟨rfl, rfl⟩

theorem ilStep_nin (m : Modem) (good : Bool) : (m.ilStep good).nin = m.nin := by
  unfold Modem.ilStep
  cases ilRow _ _ _ _ _ _ _ <;> rfl

theorem afterAttempt_nin (m : Modem) (berTest : Bool) : (m.afterAttempt berTest).nin = m.nin := by
  unfold Modem.afterAttempt
  dsimp only
  split
  · exact ilStep_nin _ _
  · exact ilStep_nin _ _

/-- Every command keeps R310: CREATE, DEMODULATE and SYNC_SEARCH set `nin`, the others leave it and the configuration. -/
theorem exec_ninNear {i : Instr} {s t : State} (h : exec i s = .next t) (hs : ∀ m, s.modem = some m → m.NinNear) :
    ∀ m, t.modem = some m → m.NinNear := by
  intro m' hm'
  obtain hsame | ⟨rfl, hv⟩ | ⟨m, hm, hcase⟩ := modem_cases h hm'
  · exact hs m' hsame
  · exact Modem.ninNear_of_eq_spf (ModemConfig.bounds_of_valid hv).spf_pos rfl
  have hnear := hs m hm
  have hspf : 1 ≤ m.cfg.spf := hnear.2
  obtain ⟨v, rfl⟩ | ⟨xs, -, ⟨-, rfl⟩ | ⟨-, rfl⟩ | rfl⟩ | ⟨d, ev, rfl⟩ | ⟨d, p, rfl⟩ | ⟨b, t, f, p, d, rfl⟩ |
    ⟨-, -, ⟨-, rfl⟩ | ⟨b, -, rfl⟩⟩ | rfl := hcase
  · exact hnear
  · exact emit_ninNear (m := m.append xs) hspf
  · exact Modem.ninNear_of_eq_spf hspf rfl
  · have hcfg : (searchModem (m.append xs)).cfg = m.cfg := searchModem_cfg _
    exact Modem.ninNear_of_eq_spf (hcfg ▸ hspf) (congrArg ModemConfig.spf hcfg).symm
  · exact hnear.of_same (applySyncRow_nin m d _) (applySyncRow_cfg m d _)
  · obtain ⟨hnin, hcfg⟩ := setPolicy_stream m p d
    exact hnear.of_same hnin hcfg
  · exact hnear
  · exact hnear
  · exact hnear.of_same (afterAttempt_nin m.pushFrame b) (afterAttempt_cfg m.pushFrame b)
  · exact hnear

/-- Settles O32: the modem after a step is the one before, or what a command leaves of it. -/
theorem ninStaysWithinOneSample : Obligations.NinStaysWithinOneSample := by
  unfold Obligations.NinStaysWithinOneSample
  intro s t h hs m hm
  obtain hnone | hsame | ⟨i, s0, hexec, hs0⟩ := step_modem h
  · cases hnone.symm.trans hm
  · exact hs m (hsame ▸ hm)
  · exact exec_ninNear hexec (fun m0 h0 => hs m0 (hs0 ▸ h0)) m hm

/-! ## The samples an emission reads (R292) -/

/-- The step of fine timing is within its window, which is no window where timing has none (R301). -/
theorem Modem.Inv.adj_le_ftWin {m : Modem} (hm : m.Inv) (xs : List C64) :
    (m.append xs).fineTiming.1 ≤ m.cfg.ftWin := by
  by_cases hwin : m.cfg.ftWin = 0
  · rw [(fineTiming_noDrift (m := m.append xs) hwin hm.bounds.timingGain (hm.noDrift hwin)).1]
    exact Int.natCast_nonneg _
  · have hadj := (fineTiming_spec (m.append xs)).1
    omega

theorem natAbs_le_of_mem_fineOffsets {w : Nat} {tau : Int} (h : tau ∈ 0 :: fineOffsets w) : tau.natAbs ≤ w := by
  obtain rfl | h := List.mem_cons.1 h
  · exact Nat.zero_le w
  · exact ((mem_fineOffsets w tau).1 h).2

/-- Settles O33: the distance from F to the end of the stream bounds the buffer on both sides of the frame, the lookahead and
the timing window. -/
theorem emissionReadsOnlyBufferedSamples : Obligations.EmissionReadsOnlyBufferedSamples := by
  unfold Obligations.EmissionReadsOnlyBufferedSamples
  intro m xs hm hx m1 hemits
  obtain ⟨hlo, hhi⟩ : m.cfg.LagOk ((m1.tAbs : Int) - m1.frameStart) := hm.lag_of_emits hx hemits
  have hspf := hm.bounds.spf_pos
  have hlook := hm.bounds.lookahead
  have hwin : m.cfg.lookahead = m.cfg.symLen + m.cfg.ftWin := rfl
  have hbuf : m.cfg.rxbufLen = 3 * m.cfg.spf := rfl
  have hadj : m1.emit.2.frameStart - m1.frameStart - m.cfg.spf = m1.fineTiming.1 := by
    have hspf' : m1.cfg.spf = m.cfg.spf := rfl
    rw [emit_frameStart, Modem.frameLen, hspf']
    omega
  have hstep : m1.fineTiming.1 ≤ m.cfg.ftWin := hm.adj_le_ftWin xs
  have inBuffer {i : Int} (h : m1.frameStart ≤ i) (h' : i < m1.frameStart + m.cfg.spf + m.cfg.lookahead) :
      (m1.tAbs : Int) - m.cfg.rxbufLen ≤ i ∧ i < m1.tAbs := by omega
  refine ⟨hlo, hhi, fun i h h' => inBuffer h h', ?frame, fun tau htau n hn hn' => ?window⟩
  case frame =>
    rw [hadj]
    exact ⟨by omega, fun i h h' => inBuffer h (by omega)⟩
  case window =>
    have htau := natAbs_le_of_mem_fineOffsets htau
    exact inBuffer (by omega) (by omega)

end Sys2Proof.Machine
end

section
/-! The sync machine (43_sync): the row that applies to each state and event (R361), what RUN_SYNC_SM reports of a transition
(R360, R369), what a run of frame events leaves, from Trial and from Synced (R363, R364), and who writes the sync state (R362). -/

namespace Sys2Proof.Machine

/-! ## The row that applies (R361) -/

section Rows
variable {m : Modem} {e : Nat} (d : Bool)

theorem syncStep_unsynced (hp : m.policy = .unsynced) (ev : SyncEvent) : m.syncStep d ev = m.applySyncRow d .row1 := by
  rw [Modem.syncStep, hp]
  rfl

theorem syncStep_searching (hp : m.policy ≠ .unsynced) (hs : m.syncState = .searching) (ev : SyncEvent) :
    m.syncStep d ev = m.applySyncRow d (if m.candValid then .row2 else .row3) := by
  rw [Modem.syncStep, hs]
  cases hpol : m.policy with
  | unsynced => exact absurd hpol hp
  | auto | manual => rfl

theorem syncStep_noFrame (hp : m.policy ≠ .unsynced) (hs : m.syncState ≠ .searching) : m.syncStep d .noFrame = m := by
  rw [Modem.syncStep]
  cases hpol : m.policy with
  | unsynced => exact absurd hpol hp
  | auto | manual =>
    cases hst : m.syncState with
    | searching => exact absurd hst hs
    | trial | synced => rfl

theorem syncStep_trial (hp : m.policy ≠ .unsynced) (hs : m.syncState = .trial) :
    m.syncStep d (.frame e) = m.applySyncRow d
      (if e < m.cfg.uwThresh then (if m.cfg.trialFrames ≤ m.good + 1 then .row5 else .row6) else .row7) := by
  rw [Modem.syncStep, hs]
  cases hpol : m.policy with
  | unsynced => exact absurd hpol hp
  | auto | manual => rfl

theorem syncStep_synced_good (hp : m.policy ≠ .unsynced) (hs : m.syncState = .synced) (he : e < m.cfg.uwThresh) :
    m.syncStep d (.frame e) = m.applySyncRow d .row9 := by
  rw [Modem.syncStep, hs]
  cases hpol : m.policy with
  | unsynced => exact absurd hpol hp
  | auto | manual => rw [syncRow, if_pos he]

theorem syncStep_synced_bad_auto (hp : m.policy = .auto) (hs : m.syncState = .synced) (he : ¬ e < m.cfg.uwThresh) :
    m.syncStep d (.frame e) =
      m.applySyncRow d (if m.cfg.falloutFrames ≤ m.bad + 1 then .row10 else .row11) := by
  rw [Modem.syncStep, hs, hp, syncRow, if_neg he]

theorem syncStep_synced_bad_manual (hp : m.policy = .manual) (hs : m.syncState = .synced) (he : ¬ e < m.cfg.uwThresh) :
    m.syncStep d (.frame e) = m.applySyncRow d .row12 := by
  rw [Modem.syncStep, hs, hp, syncRow, if_neg he]

end Rows

/-- Settles O36: each state and kind of event has its row, whose action the table writes out. -/
theorem syncTransitionsFollowTheTable : Obligations.SyncTransitionsFollowTheTable := by
  unfold Obligations.SyncTransitionsFollowTheTable
  intro m d e c tracks
  refine ⟨fun ev hp => syncStep_unsynced d hp ev, fun ev hp hs hcand => ?row2, fun ev hp hs hcand => ?row3,
    fun hp hs => syncStep_noFrame d hp (by simp [hs]), fun hp hs he hlast => ?row5, fun hp hs he hmore => ?row6,
    fun hp hs he => ?row7, fun hp hs => syncStep_noFrame d hp (by simp [hs]),
    fun hp hs he => syncStep_synced_good d hp hs he, fun hp hs he hlast => ?row10, fun hp hs he hmore => ?row11,
    fun hp hs he => syncStep_synced_bad_manual d hp hs he⟩
  case row2 => exact (syncStep_searching d hp hs ev).trans (by rw [if_pos hcand, Modem.applySyncRow])
  case row3 => exact (syncStep_searching d hp hs ev).trans (by rw [hcand]; rfl)
  case row5 => exact (syncStep_trial d hp hs).trans (by rw [if_pos he, if_pos hlast, Modem.applySyncRow])
  case row6 => exact (syncStep_trial d hp hs).trans (by rw [if_pos he, if_neg (not_le.2 hmore), Modem.applySyncRow])
  case row7 => exact (syncStep_trial d hp hs).trans (by rw [if_neg he]; rfl)
  case row10 => exact (syncStep_synced_bad_auto d hp hs he).trans (by rw [if_pos hlast]; rfl)
  case row11 =>
    exact (syncStep_synced_bad_auto d hp hs he).trans (by rw [if_neg (not_le.2 hmore), Modem.applySyncRow])

/-! ## RUN_SYNC_SM (R360, R369) -/

/-- SYNC_CHANGE, bit 2 of IRQ_PEND, is raised where the two states differ (R369). -/
theorem State.raiseIrqIf_syncChange (s : State) (a b : SyncState) : s.raiseIrqIf (decide (a ≠ b)) irqSyncChange =
    { s with irqPend := if a = b then s.irqPend else s.irqPend ||| 0x4#32 } := by
  rw [State.raiseIrqIf_eq]
  simp only [decide_eq_true_eq, ne_eq, ite_not, irqSyncChange]

theorem ofNat_decide_toNat (p : Prop) [Decidable p] : BitVec.ofNat 32 (decide p).toNat = if p then 1 else 0 := by
  by_cases h : p <;> simp [h]

/-- RUN_SYNC_SM on a configured core, given the modem its transition leads to and the number of that modem's state. -/
theorem exec_runSyncSm {s : State} {m m' : Modem} {src : EventSource} {r : Word} (h : s.modem = some m)
    (hstep : m.syncStep (s.cmdCtrl.getLsbD 1) (syncEvent src s m) = m') (hcode : BitVec.ofNat 32 m'.syncState.code = r) :
    exec (.runSyncSm src) s = .next { s with
      modem := some m', res0 := r, res1 := if m.syncState ≠ .searching ∧ m'.syncState = .searching then 1 else 0,
      busy := false, done := true, err := false, errcode := .none,
      irqPend := (if m'.syncState = m.syncState then s.irqPend else s.irqPend ||| 0x4#32) ||| 0x1#32 } := by
  rw [exec, execRunSyncSm, State.needModem_of_some h, State.discardOnLoss, hstep]
  dsimp only
  rw [State.raiseIrqIf_syncChange, completeOk_eq, ofNat_decide_toNat, hcode]

/-- Settles O37: the two sources differ in the event only. -/
theorem runSyncSmReportsTheTransition : Obligations.RunSyncSmReportsTheTransition := by
  unfold Obligations.RunSyncSmReportsTheTransition
  intro s m hm after d
  have number (x : SyncState) :
      BitVec.ofNat 32 x.code = match x with | .searching => 0#32 | .trial => 1#32 | .synced => 2#32 := by
    cases x <;> rfl
  have report (src : EventSource) : exec (.runSyncSm src) s = .next (after (m.syncStep d (syncEvent src s m))) :=
    exec_runSyncSm hm rfl (number _)
  exact ⟨report .arg0, report .lastFrame⟩

/-! ## Runs of frame events (R363, R364) -/

section Runs
variable {d : Bool} {m : Modem} {es : List Nat}

theorem runEvents_cons (e : Nat) : Spec.runEvents d m (e :: es) = Spec.runEvents d (m.syncStep d (.frame e)) es := rfl

theorem runEvents_concat (e : Nat) : Spec.runEvents d m (es ++ [e]) = (Spec.runEvents d m es).syncStep d (.frame e) :=
  List.foldl_concat ..

/-- Good frames too few for Synced only count up. -/
theorem runEvents_trial_good (hp : m.policy ≠ .unsynced) (hs : m.syncState = .trial)
    (hes : ∀ e ∈ es, e < m.cfg.uwThresh) (hlen : m.good + es.length < m.cfg.trialFrames) :
    Spec.runEvents d m es = { m with good := m.good + es.length } := by
  induction es generalizing m with
  | nil => rfl
  | cons e es ih =>
    obtain ⟨he, hes⟩ := List.forall_mem_cons.1 hes
    rw [List.length_cons, ← Nat.add_assoc, Nat.add_right_comm] at hlen ⊢
    rw [runEvents_cons, syncStep_trial d hp hs, if_pos he, if_neg (by omega)]
    exact ih hp hs hes hlen

/-- Bad frames in Synced under Manual, or too few for a loss of sync under Auto, only count up. -/
theorem runEvents_synced_bad (hs : m.syncState = .synced) (hes : ∀ e ∈ es, ¬ e < m.cfg.uwThresh)
    (hp : m.policy = .manual ∨ m.policy = .auto ∧ m.bad + es.length < m.cfg.falloutFrames) :
    ∃ good, Spec.runEvents d m es = { m with bad := m.bad + es.length, good := good } := by
  induction es generalizing m with
  | nil => exact ⟨m.good, rfl⟩
  | cons e es ih =>
    obtain ⟨he, hes⟩ := List.forall_mem_cons.1 hes
    rw [List.length_cons, ← Nat.add_assoc, Nat.add_right_comm] at hp ⊢
    have hstep : m.syncStep d (.frame e) = { m with bad := m.bad + 1, good := 0 } := by
      obtain hp | ⟨hp, hlen⟩ := hp
      · exact syncStep_synced_bad_manual d hp hs he
      · rw [syncStep_synced_bad_auto d hp hs he, if_neg (by omega), Modem.applySyncRow]
    rw [runEvents_cons, hstep]
    exact ih hs hes hp

end Runs

/-- Settles O38: all frames but the last only count up, and the last brings `bad` to FALLOUT_FRAMES. -/
theorem lossOfSyncNeedsConsecutiveBadFrames : Obligations.LossOfSyncNeedsConsecutiveBadFrames := by
  unfold Obligations.LossOfSyncNeedsConsecutiveBadFrames
  intro m d es hs hbad hpos hes
  have count {fs : List Nat} (hfs : ∀ e ∈ fs, ¬ e < m.cfg.uwThresh)
      (hp : m.policy = .manual ∨ m.policy = .auto ∧ fs.length < m.cfg.falloutFrames) :
      ∃ good, Spec.runEvents d m fs = { m with bad := fs.length, good := good } := by
    have hrun := runEvents_synced_bad (d := d) hs hfs
    rw [hbad, Nat.zero_add] at hrun
    exact hrun hp
  have stays (hp : m.policy = .manual ∨ m.policy = .auto ∧ es.length < m.cfg.falloutFrames) :
      (Spec.runEvents d m es).syncState = .synced ∧ (Spec.runEvents d m es).bad = es.length := by
    obtain ⟨good, hrun⟩ := count hes hp
    rw [hrun]
    exact ⟨hs, rfl⟩
  refine ⟨fun hp hlen => stays (.inr ⟨hp, hlen⟩), fun hp hlen => ?lost, fun hp => stays (.inl hp)⟩
  obtain rfl | ⟨init, e, rfl⟩ := es.eq_nil_or_concat'
  · exact absurd (hlen ▸ hpos) (by decide)
  · obtain ⟨hinit, he⟩ := List.forall_mem_append.1 hes
    rw [List.length_append, List.length_singleton] at hlen
    obtain ⟨good, hrun⟩ := count hinit (.inr ⟨hp, by omega⟩)
    rw [runEvents_concat, hrun, syncStep_synced_bad_auto (m := { m with bad := init.length, good := good }) d hp hs
      (he e (List.mem_singleton_self e)), if_pos hlen.ge]
    rfl

/-- Settles O39: the first frame enters Trial, all good frames but the last only count up, and the last brings `good` to
TRIAL_FRAMES. -/
theorem acquisitionTakesTrialFrames : Obligations.AcquisitionTakesTrialFrames := by
  unfold Obligations.AcquisitionTakesTrialFrames
  intro m d e0 es hp hs hcand hpos hes
  have count {fs : List Nat} (hfs : ∀ e ∈ fs, e < m.cfg.uwThresh) (hlen : fs.length < m.cfg.trialFrames) :
      Spec.runEvents d m (e0 :: fs) =
        { m with candValid := false, good := fs.length, bad := 0, syncState := .trial } := by
    rw [runEvents_cons, syncStep_searching d hp hs, if_pos hcand,
      runEvents_trial_good (m := m.applySyncRow d .row2) hp rfl hfs ((Nat.zero_add _).trans_lt hlen)]
    simp only [Modem.applySyncRow, Nat.zero_add]
  refine ⟨fun hlen => by rw [count hes hlen], fun hlen => ?synced⟩
  obtain rfl | ⟨init, e, rfl⟩ := es.eq_nil_or_concat'
  · exact absurd (hlen ▸ hpos) (by decide)
  · obtain ⟨hinit, he⟩ := List.forall_mem_append.1 hes
    rw [List.length_append, List.length_singleton] at hlen
    rw [← List.cons_append, runEvents_concat, count hinit (by omega),
      syncStep_trial (m := { m with candValid := false, good := init.length, bad := 0, syncState := .trial }) d hp rfl,
      if_pos (he e (List.mem_singleton_self e)), if_pos hlen.ge]
    rfl

/-! ## Who writes the sync state (R362) -/

theorem syncState_of_modem {s t : State} {m m' : Modem} (hs : s.modem = some m) (ht : t.modem = some m')
    (h : m'.syncState = m.syncState) : t.syncState = s.syncState := by
  rw [State.syncState_some ht, State.syncState_some hs, h]

theorem needModem_syncState {s : State} {f : Modem → State} (hf : ∀ m, s.modem = some m → (f m).syncState = s.syncState) :
    (s.needModem f).syncState = s.syncState := by
  unfold State.needModem
  split
  · exact hf _ ‹_›
  · rfl

theorem updateModem_syncState (s : State) {f : Modem → Modem} (hf : ∀ m, (f m).syncState = m.syncState) :
    (s.updateModem f).syncState = s.syncState :=
  needModem_syncState fun m hm => syncState_of_modem hm rfl (hf m)

/-- DEMODULATE and SYNC_SEARCH see the modem with the samples appended, in the same sync state (42_demodulator R291). -/
theorem withStream_syncState {s : State} {f : Modem → State}
    (hf : ∀ m, ∃ m', (f m).modem = some m' ∧ m'.syncState = m.syncState) : (s.withStream f).syncState = s.syncState := by
  refine needModem_syncState fun m hm => ?_
  split_ifs
  · rfl
  · rfl
  · obtain ⟨m', hm', hsync⟩ := hf (m.append (s.inputSamples m.nin))
    exact syncState_of_modem hm hm' hsync

theorem demodulateFrame_sync (s : State) (m : Modem) :
    ∃ m', (s.demodulateFrame m).modem = some m' ∧ m'.syncState = m.syncState := by
  cases hemits : m.emits with
  | true => exact ⟨m.emit.2, by rw [demodulateFrame_eq hemits], emit_sync m⟩
  | false =>
    exact ⟨{ m with outValid := false, nin := m.cfg.spf }, by rw [demodulateFrame_of_not_emits hemits], rfl⟩

theorem searchModem_sync (m : Modem) : (searchModem m).syncState = m.syncState := by
  unfold searchModem
  split <;> rfl

/-- Apart from CREATE and DESTROY, which make and end a modem, two commands write the sync state (R362). -/
theorem exec_syncState {i : Instr} {s t : State} (h : exec i s = .next t) (hcreate : i ≠ .create) (hdestroy : i ≠ .destroy) :
    t.syncState = s.syncState ∨ (∃ src, i = .runSyncSm src) ∨ i = .setSyncPolicy .unsynced := by
  cases i with
  | create => exact absurd rfl hcreate
  | destroy => exact absurd rfl hdestroy
  | runSyncSm src => exact .inr (.inl ⟨src, rfl⟩)
  | setSyncPolicy p =>
    refine or_iff_not_imp_right.2 fun hp => ?_
    have hne : p ≠ .unsynced := fun h => hp (.inr (h ▸ rfl))
    obtain rfl := Host.Outcome.next.inj h
    refine needModem_syncState fun m hm => ?_
    rw [setPolicy_of_ne hne]
    exact syncState_of_modem hm (State.raiseIrqIf_modem _ _ _) rfl
  | modulate =>
    obtain rfl := Host.Outcome.next.inj h
    refine .inl (needModem_syncState fun m hm => ?_)
    split_ifs
    · rfl
    · rfl
    · exact syncState_of_modem hm rfl rfl
  | demodulate =>
    obtain rfl := Host.Outcome.next.inj h
    exact .inl (withStream_syncState (demodulateFrame_sync s))
  | syncSearch =>
    obtain rfl := Host.Outcome.next.inj h
    exact .inl (withStream_syncState fun m => ⟨searchModem m, rfl, searchModem_sync m⟩)
  | ilPush =>
    obtain rfl := Host.Outcome.next.inj h
    refine .inl (needModem_syncState fun m hm => ?_)
    split_ifs
    · rfl
    · dsimp only
      split_ifs
      · exact syncState_of_modem hm rfl (afterAttempt_sync m.pushFrame s.berTestEn)
      · exact syncState_of_modem hm rfl rfl
    · exact syncState_of_modem hm rfl rfl
  | ldpcEncode slot =>
    obtain rfl := Host.Outcome.next.inj h
    split
    · exact .inl rfl
    · exact .inl rfl
  | ldpcDecode slot =>
    obtain rfl := Host.Outcome.next.inj h
    split
    · refine .inl (needModem_syncState fun m hm => ?_)
      dsimp only
      split_ifs <;> rfl
    · exact .inl rfl
  | getNin =>
    obtain rfl := Host.Outcome.next.inj h
    exact .inl (needModem_syncState fun _ _ => rfl)
  | getStats =>
    obtain rfl := Host.Outcome.next.inj h
    exact .inl (needModem_syncState fun _ _ => rfl)
  | berReset =>
    obtain rfl := Host.Outcome.next.inj h
    exact .inl (needModem_syncState fun _ hm => syncState_of_modem hm rfl rfl)
  | setPhaseBw | enableTiming | enableFreq | enablePhase | setDpsk =>
    obtain rfl := Host.Outcome.next.inj h
    exact .inl (updateModem_syncState s fun _ => rfl)

/-- Settles O9: DESTROY leaves no modem, and the host port has no way to the modem. -/
theorem onlyTwoCommandsWriteTheSyncState : Obligations.OnlyTwoCommandsWriteTheSyncState := by
  unfold Obligations.OnlyTwoCommandsWriteTheSyncState
  refine ⟨fun i s t m m' h hm hm' hcreate hne => ?_, fun op s t => hostStep_modem⟩
  have hdestroy : i ≠ .destroy := by
    rintro rfl
    obtain rfl := Host.Outcome.next.inj h
    exact nomatch hm'.symm.trans (destroyBody_modem s)
  refine (exec_syncState h hcreate hdestroy).resolve_left fun hsame => hne ?_
  rwa [State.syncState_some hm, State.syncState_some hm'] at hsame

end Sys2Proof.Machine
end

section
/-! The LDPC code tables and LDPC_ENCODE (44_ldpc R400, R401, R410, R411): which table a slot uses, the parity vector that
completes a codeword, and the bits a command leaves in BIT_OUT. -/

namespace Sys2Proof.Machine

/-! ## The code tables (R400, R401) -/

theorem codeWf_iff_codeConstraints (c : LdpcCode) : codeWf c = true ↔ Spec.CodeConstraints c := codeWf_iff c

/-- A table of `P_CODES` that meets the conditions is the one in use (00_scope R12). -/
theorem codeTable_of_wf {slot : Nat} (hwf : codeWf (Config.pCodes slot) = true)
    (h0 : slot = 0 → (Config.pCodes slot).n = 224 ∧ (Config.pCodes slot).m = 112) :
    codeTable slot = Config.pCodes slot := by
  refine if_pos ?_
  simp only [hwf, Bool.true_and, Bool.or_eq_true, Bool.and_eq_true, decide_eq_true_eq]
  exact or_iff_not_imp_left.2 fun h => h0 (not_not.1 h)

/-- Settles O40: `codeTable` tests exactly these conditions, and its stand-in meets them. -/
theorem codeTablesMeetTheirConstraints : Obligations.CodeTablesMeetTheirConstraints := by
  unfold Obligations.CodeTablesMeetTheirConstraints
  intro slot
  obtain ⟨hwf, hsizes⟩ := codeTable_cases slot
  exact ⟨(codeWf_iff_codeConstraints _).1 hwf, hsizes,
    fun hc h0 => codeTable_of_wf ((codeWf_iff_codeConstraints _).2 hc) h0⟩

/-! ## Completing a codeword (R410, R411) -/

/-- Check `m` of data and parity bits fixes parity bit `m` by the others of its row (R410). -/
theorem checkHolds_append_iff {c : LdpcCode} {d p : List Bool} (hd : d.length = codeK c) {m : Nat}
    (hn : (row c m).Nodup) (hm : codeK c + m ∈ row c m) :
    checkHolds c (d ++ p) m = true ↔ p.getD m false = parityBit c d p m := by
  have hbit (v : Nat) : (d ++ p).getD v false =
      if v < codeK c then d.getD v false else p.getD (v - codeK c) false := by
    split
    case isTrue h => exact List.getD_append _ _ _ _ (hd ▸ h)
    case isFalse h => rw [List.getD_append_right _ _ _ _ (by omega), hd]
  rw [checkHolds, xorBits_split hn hm, hbit (codeK c + m), if_neg (by omega), Nat.add_sub_cancel_left,
    List.map_congr_left fun v _ => hbit v, ← parityBit]
  simp

/-- Parity bit `m` depends on the parity bits before it alone (R401 item 4, R410). -/
theorem parityBit_congr {c : LdpcCode} {m : Nat} (hrow : ∀ v ∈ row c m, v ≤ codeK c + m) (d : List Bool)
    {p p' : List Bool} (h : ∀ j, j < m → p.getD j false = p'.getD j false) :
    parityBit c d p m = parityBit c d p' m := by
  refine congrArg xorBits (List.map_congr_left fun v hv => ?_)
  obtain ⟨hv, hne⟩ := List.mem_filter.1 hv
  have hle := hrow v hv
  have hne : v ≠ codeK c + m := of_decide_eq_true hne
  split
  · rfl
  · exact h _ (by omega)

/-- The encoder's parity bits solve their checks (R410). -/
theorem encodeParity_getD {c : LdpcCode} {m : Nat} (hm : m < c.m) (hrow : ∀ v ∈ row c m, v ≤ codeK c + m)
    (d : List Bool) : (encodeParity c d).getD m false = parityBit c d (encodeParity c d) m := by
  have hget (j : Nat) (hj : j < c.m) : (encodeParity c d).getD j false = parityBit c d (parPre c d j) j :=
    parPre_get c d c.m j hj
  rw [hget m hm]
  exact parityBit_congr hrow d fun j hj => (parPre_get c d m j hj).trans (hget j (hj.trans hm)).symm

/-- R411: the encoder's result is the one parity vector that makes a codeword. -/
theorem passCount_append_iff {c : LdpcCode} (hc : codeWf c = true) {d p : List Bool} (hd : d.length = codeK c)
    (hp : p.length = c.m) : passCount c (d ++ p) = c.m ↔ p = encodeParity c d := by
  obtain ⟨-, -, -, -, hrows, -, -, htri, -⟩ := (codeWf_iff c).1 hc
  have hcheck (p : List Bool) {m : Nat} (hm : m < c.m) :=
    checkHolds_append_iff (p := p) hd (hrows m hm) (htri m hm).1
  rw [passCount_iff]
  constructor
  · intro h
    have hagree (m : Nat) : m < c.m → p.getD m false = (encodeParity c d).getD m false := by
      induction m using Nat.strong_induction_on with
      | _ m ih =>
        intro hm
        rw [(hcheck p hm).1 (h m hm), encodeParity_getD hm (htri m hm).2]
        exact parityBit_congr (htri m hm).2 d fun j hj => ih j hj (hj.trans hm)
    refine List.ext_getElem (hp.trans (encodeParity_length c d).symm) fun m hm hm' => ?_
    rw [← List.getD_eq_getElem p false hm, ← List.getD_eq_getElem _ false hm']
    exact hagree m (hp ▸ hm)
  · rintro rfl m hm
    exact (hcheck _ hm).2 (encodeParity_getD hm (htri m hm).2 d)

/-! ## The bits in BIT_OUT (20_memory R124, R131) -/

theorem bitsAt_length (s : State) (base n : Nat) : (Spec.bitsAt s base n).length = n := by simp [Spec.bitsAt]

section
variable {s t : State} (hwf : Memory.wf s.mem = true) {base n : Nat} {bs : List Bool} (hn : bs.length = n)
  (hmem : t.mem = (s.writeBits base bs).mem) (hpor : t.porCount = s.porCount)
include hwf hn hmem hpor

/-- A bit written to a window is a byte 0 or 1. -/
theorem readByte_of_writeBits {i : Nat} (hi : i < n) :
    t.readByte (base + i) = if bs.getD i false then 1 else 0 :=
  (readByte_mem hmem hpor _).trans (writeBits_bit hwf (hn ▸ hi))

theorem readByte_le_one_of_writeBits {i : Nat} (hi : i < n) : (t.readByte (base + i)).toNat ≤ 1 := by
  rw [readByte_of_writeBits hwf hn hmem hpor hi]
  split <;> decide

/-- Bits written to a window read back. -/
theorem bitsAt_of_writeBits : Spec.bitsAt t base n = bs := by
  refine List.ext_getElem ((bitsAt_length t base n).trans hn.symm) fun i _ hi => ?_
  simp only [Spec.bitsAt, List.getElem_map, List.getElem_range]
  rw [readByte_of_writeBits hwf hn hmem hpor (hn ▸ hi), List.getD_eq_getElem _ _ hi]
  cases bs[i] <;> rfl

theorem sameBytesOutside_of_writeBits : Spec.SameBytesOutside s t base n := fun a ha =>
  (readByte_mem hmem hpor a).trans
    (State.readByte_writeBytes_outside (bs := bs.map bitByte) hwf (by rwa [List.length_map, hn]))

end

/-! ## LDPC_ENCODE (R410, R411) -/

theorem legalSlot_of_lt {slot : BitVec 8} (h : slot.toNat < 3) : legalSlot slot = true := decide_eq_true h

/-- What LDPC_ENCODE leaves, with its bits at their addresses. -/
theorem exec_ldpcEncode {slot : BitVec 8} (hslot : slot.toNat < 3) (s : State) :
    exec (.ldpcEncode slot) s = .next { s with
      mem := (s.writeBits 0x060000 (encodeParity (codeTable slot.toNat)
        (Spec.bitsAt s 0x050000 (codeK (codeTable slot.toNat))))).mem
      res0 := BitVec.ofNat 32 (codeTable slot.toNat).m, busy := false, done := true, err := false, errcode := .none,
      irqPend := s.irqPend ||| 0x1#32 } := by
  rw [exec, execLdpcEncode, if_pos (legalSlot_of_lt hslot), completeOk_eq, readBits_eq_bitsAt]
  rfl

/-- Settles O41: the written vector is `encodeParity`, the only one that completes a codeword. -/
theorem ldpcEncodeCompletesACodeword : Obligations.LdpcEncodeCompletesACodeword := by
  unfold Obligations.LdpcEncodeCompletesACodeword
  intro s slot hslot hwf c d
  have hlen : (encodeParity c d).length = c.m := encodeParity_length c d
  have hone (p : List Bool) (hp : p.length = c.m) : passCount c (d ++ p) = c.m ↔ p = encodeParity c d :=
    passCount_append_iff (codeTable_cases slot.toNat).1 (bitsAt_length s _ _) hp
  refine ⟨(s.writeBits 0x060000 (encodeParity c d)).mem, ?_⟩
  intro t
  have hbits : Spec.bitsAt t 0x060000 c.m = encodeParity c d := bitsAt_of_writeBits hwf hlen rfl rfl
  rw [hbits]
  exact ⟨exec_ldpcEncode hslot s, (hone _ hlen).2 rfl, fun p hp => (hone p hp).1,
    fun i => readByte_le_one_of_writeBits hwf hlen rfl rfl, sameBytesOutside_of_writeBits hwf hlen rfl rfl⟩

end Sys2Proof.Machine
end

section
/-! The rounds of LDPC_DECODE (44_ldpc R421 to R425): the model's lists of messages hold the messages of the spec's recursion
edge by edge, so what its loop returns is the result of `bp_decode`. -/

namespace Sys2Proof.Machine

/-! ## Edges (R400, R401) -/

/-- A row names variable nodes only. -/
theorem lt_of_mem_row {c : LdpcCode} (hc : codeWf c = true) {m v : Nat} (hm : m < c.m) (hv : v ∈ row c m) : v < c.n := by
  obtain ⟨-, -, -, -, -, -, -, htri, ⟨-, -, -, hmn, -⟩, -⟩ := (codeWf_iff c).1 hc
  have hle := (htri m hm).2 v hv
  unfold codeK at hle
  omega

/-- A column names check nodes only, and its edges are edges of their rows. -/
theorem edge_of_mem_col {c : LdpcCode} (hc : codeWf c = true) {m v : Nat} (hv : v < c.n) (hm : m ∈ col c v) :
    m < c.m ∧ v ∈ row c m := by
  obtain ⟨-, hcols, -, ⟨-, hlen⟩, -, -, hedge, -⟩ := (codeWf_iff c).1 hc
  have hmem : c.hCols.getD v [] ∈ c.hCols := by
    rw [List.getD_eq_getElem _ _ (hlen ▸ hv)]
    exact List.getElem_mem _
  have hlt : m < c.m := entries_lt (hcols _ hmem).2 hm
  exact ⟨hlt, (hedge m v hlt hv).2 hm⟩

theorem edgeMessages_congr {c : LdpcCode} {f g : Nat → Nat → F64} (h : ∀ m, m < c.m → ∀ v ∈ row c m, f m v = g m v) :
    edgeMessages c f = edgeMessages c g :=
  List.map_congr_left fun m hm => List.map_congr_left fun v hv => by rw [h m (List.mem_range.1 hm) v hv]

/-- The messages at a variable node, in the order of its column. -/
theorem map_message_edges {c : LdpcCode} (hc : codeWf c = true) (f : Nat → Nat → F64) {v : Nat} (hv : v < c.n)
    {ms : List Nat} (hms : ∀ m ∈ ms, m ∈ col c v) :
    (ms.map fun m => message (edgeMessages c f) m v) = ms.map fun m => f m v :=
  List.map_congr_left fun m hm => by
    obtain ⟨hlt, hrow⟩ := edge_of_mem_col hc hv (hms m hm)
    exact message_edges c f hlt hrow

/-! ## One round (R422 to R424) -/

/-- The decoder's parameters as the spec's formulas take them. -/
def BpParams.args (p : BpParams) : Spec.DecodeArgs := ⟨p.minSum, p.llrMax, p.msScale⟩

/-- The check-node update turns variable messages into the check messages of R422 and R423. -/
theorem map_checkUpdate_edges (c : LdpcCode) (p : BpParams) (q : Nat → Nat → F64) :
    (edgeMessages c q).map (checkUpdate p) = edgeMessages c (Spec.checkMsg c p.args q) := checkUpdate_edges c p q

/-- `L[v]` of a list of LLRs. -/
def llrAt (ls : List F64) (v : Nat) : F64 := ls.getD v Fp.zero

section
variable {c : LdpcCode} (hc : codeWf c = true) (p : BpParams) (ls : List F64)

/-- The check messages of round `t + 1`. -/
def roundChecks (c : LdpcCode) (p : BpParams) (ls : List F64) (t : Nat) : Nat → Nat → F64 :=
  Spec.checkMsg c p.args (Spec.variableMsgs c p.args (llrAt ls) t)

include hc

/-- The variable-node update gives the variable messages of the next round (R424). -/
theorem nextQ_roundChecks (t : Nat) : nextQ c p ls (edgeMessages c (roundChecks c p ls t)) =
    edgeMessages c (Spec.variableMsgs c p.args (llrAt ls) (t + 1)) := by
  rw [nextQ_edges]
  refine edgeMessages_congr fun m hm v hv => ?_
  rw [variableMsg, map_message_edges hc _ (lt_of_mem_row hc hm hv) fun _ h => (List.mem_filter.1 h).1]
  rfl

/-- The hard decisions of a round are the signs of its posteriors (R404, R424). -/
theorem hardBits_roundChecks (t : Nat) : hardBits c ls (edgeMessages c (roundChecks c p ls t)) =
    Spec.hardAfter c p.args (llrAt ls) (t + 1) := by
  refine List.map_congr_left fun v hv => ?_
  rw [posterior, map_message_edges hc _ (List.mem_range.1 hv) fun _ h => h]
  rfl

/-! ## The loop (R425) -/

/-- From the messages of round `d.iters` on the loop stops at the first later round that satisfies every check, or at
the last one allowed. -/
theorem bpRounds_hard (fuel : Nat) (d : Decoded)
    (hd : d.hard = Spec.hardAfter c p.args (llrAt ls) d.iters) :
    let r := bpRounds c p ls fuel (edgeMessages c (Spec.variableMsgs c p.args (llrAt ls) d.iters)) d
    r.hard = Spec.hardAfter c p.args (llrAt ls) r.iters ∧ d.iters ≤ r.iters ∧
    (1 ≤ fuel → d.iters < r.iters) ∧
    ∀ t, d.iters < t → t < r.iters → passCount c (Spec.hardAfter c p.args (llrAt ls) t) ≠ c.m := by
  induction fuel generalizing d with
  | zero => exact ⟨hd, le_refl _, fun h => absurd h (by decide), fun t h1 h2 => absurd h2 (lt_asymm h1)⟩
  | succ fuel ih =>
    rw [bpRounds, map_checkUpdate_edges, ← roundChecks, nextQ_roundChecks hc, hardBits_roundChecks hc]
    dsimp only
    split
    case isTrue =>
      exact ⟨rfl, Nat.le_succ _, fun _ => Nat.lt_succ_self _, fun t h1 h2 => absurd h2 (Nat.not_lt.2 h1)⟩
    case isFalse hfail =>
      obtain ⟨hhard, hle, -, hfirst⟩ := ih ⟨_, d.iters + 1, _⟩ rfl
      refine ⟨hhard, Nat.le_of_succ_le hle, fun _ => hle, fun t h1 h2 => ?_⟩
      obtain rfl | h1 := Nat.eq_or_lt_of_le (Nat.succ_le_of_lt h1)
      · exact hfail
      · exact hfirst t h1 h2

/-- What a decode returns is the result of `bp_decode` (R421 to R425). -/
theorem bpDecode_isDecode (maxIter : Nat) : let r := bpDecode c p ls maxIter
    Spec.IsDecode c p.args ls maxIter r.hard r.iters r.pass := by
  obtain ⟨-, hpass, hlimit, hlast⟩ := bpDecode_spec c p ls maxIter
  obtain ⟨hhard, -, hone, hfirst⟩ := bpRounds_hard hc p (ls.map fun x => Fp.clip x p.llrMax) maxIter
    ⟨_, 0, passCount c (Spec.hardAfter c p.args (Spec.clipped p.args ls) 0)⟩ rfl
  exact { bits := hhard, count := hpass, limit := hlimit, atLeastOne := hone, firstPass := hfirst, lastRound := hlast }

end

end Sys2Proof.Machine
end

section
/-! LDPC_DECODE (44_ldpc R420, R426): what its checks refuse, what it reports of a decode, and what the codec commands depend on
(R428). -/

namespace Sys2Proof.Machine

/-! ## The checks (R420) -/

/-- The error of the first check of R420 that fails, if one does, from the operands and the LLRs. -/
def decodeRefusal (n : Nat) (arg0 arg1 arg2 : Word) (llrs : List F64) : Option ErrCode :=
  if arg2.toNat ≠ n then some .contractViolation
  else if 1 < arg1.toNat ∨ 65535 < arg0.toNat then some .badArgument
  else if ∃ x ∈ llrs, Fp.isNaN x = true then some .contractViolation
  else none

section
variable {s : State} {m : Modem} {slot : BitVec 8} (hslot : slot.toNat < 3) (hm : s.modem = some m)

section
include hslot hm

/-- LDPC_DECODE on a configured core runs its checks, then its decoder (R420). -/
theorem exec_ldpcDecode : let c := codeTable slot.toNat
    exec (.ldpcDecode slot) s = .next
      (match decodeRefusal c.n s.arg0 s.arg1 s.arg2 (Spec.llrsAt s c.n) with
        | some code => Spec.errorOf s code
        | none => s.decodeLlrs m c) := by
  intro c
  rw [exec, execLdpcDecode, if_pos (legalSlot_of_lt hslot), State.needModem_of_some hm, decodeRefusal]
  dsimp only
  by_cases hcount : s.arg2.toNat ≠ c.n
  · rw [if_pos hcount, if_pos hcount, completeError_eq_errorOf]
  rw [if_neg hcount, if_neg hcount]
  by_cases htype : 1 < s.arg1.toNat
  · rw [if_pos htype, if_pos (.inl htype), completeError_eq_errorOf]
  rw [if_neg htype]
  by_cases hlimit : 65535 < s.arg0.toNat
  · rw [if_pos hlimit, if_pos (.inr hlimit), completeError_eq_errorOf]
  rw [if_neg hlimit, if_neg (not_or.2 ⟨htype, hlimit⟩)]
  have hany : (s.readLlrs c.n).any Fp.isNaN = true ↔ ∃ x ∈ Spec.llrsAt s c.n, Fp.isNaN x = true := List.any_eq_true
  by_cases hnan : ∃ x ∈ Spec.llrsAt s c.n, Fp.isNaN x = true
  · rw [if_pos (hany.2 hnan), if_pos hnan, completeError_eq_errorOf]
  · rw [if_neg (mt hany.1 hnan), if_neg hnan]

theorem exec_ldpcDecode_of_refusal {code : ErrCode}
    (h : decodeRefusal (codeTable slot.toNat).n s.arg0 s.arg1 s.arg2 (Spec.llrsAt s (codeTable slot.toNat).n) = some code) :
    exec (.ldpcDecode slot) s = .next (Spec.errorOf s code) := by
  rw [exec_ldpcDecode hslot hm, h]

theorem exec_ldpcDecode_of_no_refusal
    (h : decodeRefusal (codeTable slot.toNat).n s.arg0 s.arg1 s.arg2 (Spec.llrsAt s (codeTable slot.toNat).n) = none) :
    exec (.ldpcDecode slot) s = .next (s.decodeLlrs m (codeTable slot.toNat)) := by
  rw [exec_ldpcDecode hslot hm, h]

end

theorem decodeRefusal_of_ready {c : LdpcCode} (h : Spec.DecodeReady s c) :
    decodeRefusal c.n s.arg0 s.arg1 s.arg2 (Spec.llrsAt s c.n) = none := by
  rw [decodeRefusal, if_neg (not_not.2 h.count), if_neg (not_or.2 ⟨not_lt.2 h.decType, not_lt.2 h.maxIter⟩), if_neg]
  rintro ⟨x, hx, hnan⟩
  exact Bool.false_ne_true ((h.noNaN x hx).symm.trans hnan)

end

/-- Settles O42: the three groups of checks are the branches of `decodeRefusal`. -/
theorem ldpcDecodeChecksInOrder : Obligations.LdpcDecodeChecksInOrder := by
  unfold Obligations.LdpcDecodeChecksInOrder
  intro s m slot hslot hm c
  refine ⟨fun hcount => ?count, fun hcount hargs => ?args, fun hcount htype hlimit hnan => ?nan⟩
  case count => exact exec_ldpcDecode_of_refusal hslot hm (if_pos hcount)
  case args =>
    refine exec_ldpcDecode_of_refusal hslot hm ?_
    rw [decodeRefusal, if_neg (not_not.2 hcount), if_pos hargs]
  case nan =>
    refine exec_ldpcDecode_of_refusal hslot hm ?_
    rw [decodeRefusal, if_neg (not_not.2 hcount), if_neg (not_or.2 ⟨not_lt.2 htype, not_lt.2 hlimit⟩), if_pos hnan]

/-! ## The report (R426) -/

/-- The decoder type of ARG1, 0 or 1, as the spec's formulas take it. -/
theorem bpParams_args (cfg : ModemConfig) {decType : Nat} (h : decType ≤ 1) :
    (bpParams cfg decType).args = ⟨decide (decType = 1), cfg.llrMax, cfg.msScale⟩ := by
  have hminSum : decide (decType ≠ 0) = decide (decType = 1) := decide_eq_decide.2 (by omega)
  rw [BpParams.args, bpParams, hminSum]

/-- Settles O43: the loop returns the result of `bp_decode`, and the report is `decodeLlrs`. -/
theorem ldpcDecodeReportsItsBits : Obligations.LdpcDecodeReportsItsBits := by
  unfold Obligations.LdpcDecodeReportsItsBits
  intro s m slot hslot hm hwf hready c
  let d := bpDecode c (bpParams m.cfg s.arg1.toNat) (Spec.llrsAt s c.n) s.arg0.toNat
  have hc : codeWf c = true := (codeTable_cases slot.toNat).1
  have hdecode := bpDecode_isDecode hc (bpParams m.cfg s.arg1.toNat) (Spec.llrsAt s c.n) s.arg0.toNat
  rw [bpParams_args m.cfg hready.decType] at hdecode
  obtain ⟨hlen, hpass, -, -⟩ : d.hard.length = c.n ∧ d.pass = passCount c d.hard ∧ _ := bpDecode_spec c _ _ _
  refine ⟨(s.writeBits 0x060000 d.hard).mem, d.iters, d.pass, ?_⟩
  intro t
  have hbits : Spec.bitsAt t 0x060000 c.n = d.hard := bitsAt_of_writeBits hwf hlen rfl rfl
  rw [hbits]
  refine ⟨?_, hpass ▸ passCount_le c d.hard, hdecode, fun v => readByte_le_one_of_writeBits hwf hlen rfl rfl,
    sameBytesOutside_of_writeBits hwf hlen rfl rfl⟩
  rw [exec_ldpcDecode_of_no_refusal hslot hm (decodeRefusal_of_ready hready), decodeLlrs_eq s m c d rfl]
  rfl

/-! ## What the codec depends on (R428) -/

/-- Settles O45: both commands leave bits and results that their operands, LLRs and parameters fix. -/
theorem codecReadsOnlyItsInputs : Obligations.CodecReadsOnlyItsInputs := by
  unfold Obligations.CodecReadsOnlyItsInputs
  intro s s' t t' slot hslot hwf hwf' c
  refine ⟨fun hin ht ht' => ?encode, fun m m' hm hm' hmax hscale h0 h1 h2 hllrs ht ht' => ?decode⟩
  case encode =>
    have hdata : Spec.bitsAt s 0x050000 (codeK c) = Spec.bitsAt s' 0x050000 (codeK c) :=
      List.map_congr_left fun i hi => hin i (List.mem_range.1 hi)
    have hlen : (encodeParity c (Spec.bitsAt s' 0x050000 (codeK c))).length = c.m := encodeParity_length c _
    rw [exec_ldpcEncode hslot, hdata] at ht
    rw [exec_ldpcEncode hslot] at ht'
    obtain rfl := Host.Outcome.next.inj ht
    obtain rfl := Host.Outcome.next.inj ht'
    exact ⟨rfl, (bitsAt_of_writeBits hwf hlen rfl rfl).trans (bitsAt_of_writeBits hwf' hlen rfl rfl).symm⟩
  case decode =>
    cases hr : decodeRefusal c.n s'.arg0 s'.arg1 s'.arg2 (Spec.llrsAt s' c.n) with
    | some code =>
      rw [exec_ldpcDecode_of_refusal hslot hm (by rw [h0, h1, h2, hllrs, hr])] at ht
      rw [exec_ldpcDecode_of_refusal hslot hm' hr] at ht'
      obtain rfl := Host.Outcome.next.inj ht
      obtain rfl := Host.Outcome.next.inj ht'
      exact ⟨rfl, rfl, nofun⟩
    | none =>
      let d := bpDecode c (bpParams m'.cfg s'.arg1.toNat) (Spec.llrsAt s' c.n) s'.arg0.toNat
      have hlen : d.hard.length = c.n := (bpDecode_spec c _ _ _).1
      have hd : bpDecode c (bpParams m.cfg s.arg1.toNat) (Spec.llrsAt s c.n) s.arg0.toNat = d := by
        rw [bpParams, hmax, hscale, h0, h1, hllrs]
        rfl
      rw [exec_ldpcDecode_of_no_refusal hslot hm (by rw [h0, h1, h2, hllrs, hr]), decodeLlrs_eq s m c d hd] at ht
      rw [exec_ldpcDecode_of_no_refusal hslot hm' hr, decodeLlrs_eq s' m' c d rfl] at ht'
      obtain rfl := Host.Outcome.next.inj ht
      obtain rfl := Host.Outcome.next.inj ht'
      exact ⟨rfl, rfl, fun _ => ⟨rfl, rfl, rfl, rfl,
        (bitsAt_of_writeBits hwf hlen rfl rfl).trans (bitsAt_of_writeBits hwf' hlen rfl rfl).symm⟩⟩

end Sys2Proof.Machine
end

section
/-! Signs in a min-sum round (44_ldpc R423, R427): where the incoming messages carry the signs of bits that satisfy a check,
so does each outgoing one. -/

namespace Sys2Proof.Fp

/-- A nonzero value's sign is what a comparison with 0 tells. -/
theorem lt_zero_eq {b : Bool} {x : F64} (hx : Signed b x) (h0 : isZero x = false) : lt x zero = b := by
  have hpos := mag_pos h0
  have hkey : key x < key zero ↔ b = true := by
    rw [key_of hx, show key zero = 0 from rfl]
    cases b
    case false => exact iff_of_false (by simp) Bool.false_ne_true
    case true => exact iff_of_true (by simpa using hpos) rfl
  rw [Bool.eq_iff_iff, lt_iff, hkey]
  exact ⟨fun h => h.2.2, fun h => ⟨hx.1, by decide, h⟩⟩

theorem proper_of_finite {x : F64} (hf : isFinite x = true) (h0 : isZero x = false) : Proper (lt x zero) x := by
  simp only [isFinite, Nat.blt, Nat.ble_eq] at hf
  have hnan : isNaN x = false := by
    rw [Bool.eq_false_iff]
    intro h
    simp only [isNaN, Nat.blt, Nat.ble_eq] at h
    omega
  have hinf : isInf x = false := by
    rw [Bool.eq_false_iff]
    intro h
    simp only [isInf, beq_iff_eq] at h
    omega
  exact ⟨⟨hnan, (lt_zero_eq ⟨hnan, rfl⟩ h0).symm⟩, hinf, h0⟩

theorem sgn_eq_pm {b : Bool} {x : F64} (hx : Proper b x) : sgn x = pm b := by
  rw [sgn, lt_zero_eq hx.1 hx.2.2, pm]

theorem foldl_mul_pm (bs : List Bool) (a : Bool) : (bs.map pm).foldl mul (pm a) = pm (bs.foldl Bool.xor a) := by
  induction bs generalizing a with
  | nil => rfl
  | cons b bs ih => rw [List.map_cons, List.foldl_cons, pm_mul, ih, List.foldl_cons]

/-- A product of signs is the sign of their parity. -/
theorem prod_pm (bs : List Bool) : prod (bs.map pm) = pm (Machine.xorBits bs) := by
  cases bs with
  | nil => rfl
  | cons b bs =>
    rw [List.map_cons, prod, foldl_mul_pm, Machine.xorBits, List.foldl_cons, Bool.false_xor]

/-- The least of a positive bound and the magnitudes of nonzero messages is positive. -/
theorem foldl_min_abs {l : List F64} {x : F64} (hx : Proper false x) (hl : ∀ y ∈ l, ∃ b, Proper b y) :
    Proper false (l.foldl (fun acc y => min acc (abs y)) x) := by
  induction l generalizing x with
  | nil => exact hx
  | cons y l ih =>
    obtain ⟨b, hy⟩ := hl y List.mem_cons_self
    exact ih (F_min hx (F_abs hy)) fun z hz => hl z (List.mem_cons_of_mem _ hz)

end Sys2Proof.Fp

namespace Sys2Proof.Machine

open Fp (Proper Signed)

/-- The values a valid configuration scales and clips by are positive (40_control R201 check 19). -/
theorem ModemConfig.proper_of_valid {c : ModemConfig} (h : c.valid = true) :
    Proper false c.llrMax ∧ Proper false c.msScale := by
  simp only [valid, checks, List.all_cons, List.all_nil, id, Bool.and_eq_true, and_true] at h
  obtain ⟨-, -, -, -, -, -, -, -, -, -, -, -, -, -, -, -, -, -, ⟨-, ⟨hscale, hscale0⟩, ⟨hmax, hmax0⟩, -⟩, -⟩ := h
  exact ⟨Fp.F_of_pos hmax hmax0, Fp.F_of_pos hscale hscale0⟩

section
variable {c : LdpcCode} {p : Spec.DecodeArgs} (hms : p.minSum = true) (hmax : Proper false p.llrMax)
  (hscale : Proper false p.msScale) {bits : List Bool}
include hms hmax hscale

/-- A min-sum message carries the parity of the other messages' signs (R423). -/
theorem checkMsg_signed {q : Nat → Nat → F64} {m v : Nat}
    (hq : ∀ u ∈ row c m, Proper (bits.getD u false) (q m u)) :
    Signed (xorBits (((row c m).filter fun u => decide (u ≠ v)).map fun u => bits.getD u false))
      (Spec.checkMsg c p q m v) := by
  have hq : ∀ u ∈ (row c m).filter fun u => decide (u ≠ v), Proper (bits.getD u false) (q m u) :=
    fun u hu => hq u (List.mem_filter.1 hu).1
  rw [Spec.checkMsg, if_pos hms]
  generalize (row c m).filter (fun u => decide (u ≠ v)) = others at hq
  have hsigns : ((others.map (q m)).map Fp.sgn) = (others.map fun u => bits.getD u false).map Fp.pm := by
    rw [List.map_map, List.map_map]
    exact List.map_congr_left fun u hu => Fp.sgn_eq_pm (hq u hu)
  have hmin := Fp.foldl_min_abs (l := others.map (q m)) hmax fun y hy => by
    obtain ⟨u, hu, rfl⟩ := List.mem_map.1 hy
    exact ⟨_, hq u hu⟩
  have hpm := Fp.pm_S (xorBits (others.map fun u => bits.getD u false))
  rw [hsigns, Fp.prod_pm]
  have hscaled := Fp.mul_S hscale.1 hpm.1 (fun _ => hpm.2.2) (fun _ => hscale.2.2)
  have hmsg := Fp.mul_S hscaled hmin.1 (fun _ => hmin.2.2) fun h => absurd (hmin.2.1.symm.trans h) Bool.false_ne_true
  rwa [Bool.false_xor, Bool.xor_false] at hmsg

/-- In a satisfied check the other messages' signs have the parity of the receiving variable's bit. -/
theorem checkMsg_signed_of_checkHolds {q : Nat → Nat → F64} {m v : Nat} (hn : (row c m).Nodup) (hv : v ∈ row c m)
    (hcheck : checkHolds c bits m = true) (hq : ∀ u ∈ row c m, Proper (bits.getD u false) (q m u)) :
    Signed (bits.getD v false) (Spec.checkMsg c p q m v) := by
  have hparity : bits.getD v false =
      xorBits (((row c m).filter fun u => decide (u ≠ v)).map fun u => bits.getD u false) := by
    rw [checkHolds, xorBits_split hn hv] at hcheck
    simpa using hcheck
  rw [hparity]
  exact checkMsg_signed hms hmax hscale hq

/-- The first round keeps the signs of a codeword (R427). -/
theorem hardAfter_one_of_codeword (hc : codeWf c = true) {l : Nat → F64} (hlen : bits.length = c.n)
    (hword : passCount c bits = c.m) (hl : ∀ v, v < c.n → Proper (bits.getD v false) (l v)) :
    Spec.hardAfter c p l 1 = bits := by
  obtain ⟨-, -, -, -, hrows, -⟩ := (codeWf_iff c).1 hc
  have hpost (v : Nat) (hv : v < c.n) :
      Fp.lt (Fp.add (l v) (Fp.sum ((col c v).map fun m => Spec.checkMsg c p (Spec.variableMsgs c p l 0) m v))) 0#64 =
        bits.getD v false := by
    obtain ⟨hsigned, hne⟩ := Fp.post_F (hl v hv)
      ((col c v).map fun m => Spec.checkMsg c p (Spec.variableMsgs c p l 0) m v) fun y hy => by
        obtain ⟨m, hm, rfl⟩ := List.mem_map.1 hy
        obtain ⟨hlt, hrow⟩ := edge_of_mem_col hc hv hm
        exact checkMsg_signed_of_checkHolds hms hmax hscale (hrows m hlt) hrow ((passCount_iff c bits).1 hword m hlt)
          fun u hu => hl u (lt_of_mem_row hc hlt hu)
    exact Fp.lt_zero_eq hsigned hne
  refine List.ext_getElem (by rw [Spec.hardAfter, List.length_map, List.length_range, hlen]) fun v h1 h2 => ?_
  rw [← List.getD_eq_getElem bits false h2, ← hpost v (hlen ▸ h2)]
  simp only [Spec.hardAfter, List.getElem_map, List.getElem_range]

end

/-- Clipping to a positive bound keeps the sign of a finite nonzero LLR (R421). -/
theorem clipped_proper {p : Spec.DecodeArgs} (hmax : Proper false p.llrMax) {ls : List F64} {v : Nat}
    (hv : v < ls.length) (hf : Fp.isFinite (ls.getD v 0#64) = true) (h0 : Fp.isZero (ls.getD v 0#64) = false) :
    Proper (Fp.lt (ls.getD v 0#64) 0#64) (Spec.clipped p ls v) := by
  have hclip : Spec.clipped p ls v = Fp.clip (ls.getD v 0#64) p.llrMax := by
    rw [Spec.clipped, List.getD_eq_getElem _ _ (by rwa [List.length_map]), List.getElem_map, List.getD_eq_getElem _ _ hv]
  rw [hclip]
  exact Fp.F_clip (Fp.proper_of_finite hf h0) hmax

/-- Settles O44: the first round already decides the codeword, so `bp_decode` stops there. -/
theorem minSumDecodingOfACodewordIsIdempotent : Obligations.MinSumDecodingOfACodewordIsIdempotent := by
  unfold Obligations.MinSumDecodingOfACodewordIsIdempotent
  intro s m slot bits hslot hm hinv hwf hready c htype hiter hlen hword hllrs
  have hc : codeWf c = true := (codeTable_cases slot.toNat).1
  obtain ⟨hmax, hscale⟩ := ModemConfig.proper_of_valid hinv.cfgValid
  obtain ⟨mem', iters, pass, hexec, -, hdecode, -, -⟩ := ldpcDecodeReportsItsBits s m slot hslot hm hwf hready
  rw [decide_eq_true htype] at hdecode
  have hfirst : Spec.hardAfter c ⟨true, m.cfg.llrMax, m.cfg.msScale⟩
      (Spec.clipped ⟨true, m.cfg.llrMax, m.cfg.msScale⟩ (Spec.llrsAt s c.n)) 1 = bits :=
    hardAfter_one_of_codeword rfl hmax hscale hc hlen hword fun v hv => by
      obtain ⟨hf, h0, hsign⟩ := hllrs v hv
      rw [← hsign]
      exact clipped_proper hmax (by simpa [Spec.llrsAt] using hv) hf h0
  have hone : iters = 1 := by
    refine le_antisymm (not_lt.1 fun h => hdecode.firstPass 1 le_rfl h ?_) (hdecode.atLeastOne hiter)
    rw [hfirst, hword]
  subst hone
  have hbits := hdecode.bits.trans hfirst
  have hpass : pass = c.m := by rw [hdecode.count, hbits, hword]
  subst hpass
  exact ⟨_, hexec, hbits, rfl, rfl, if_pos rfl, decide_eq_false (lt_irrefl _)⟩

end Sys2Proof.Machine
end


section
/-! The interleaver as 45_interleaver states it: the payload symbols (R450), the LLRs of a codeword (R451, R452), the
interleaver's state machine (R461, R462), a block attempt and its BER count (R453, R470), IL_PUSH (R460) and BER_RESET
(R472). -/

namespace Sys2Proof.Machine

/-! ## The payload symbols (R450) -/

theorem payloadSymbols_eq (c : ModemConfig) :
    payloadSymbols c = (List.range c.nds).filter fun i => decide (2 * i ∉ c.uwPos ∧ 2 * i ∉ c.txtPos) :=
  List.filter_congr fun i _ => by simp [List.contains_eq_mem]

theorem mem_payloadSymbols {c : ModemConfig} {i : Nat} :
    i ∈ payloadSymbols c ↔ i < c.nds ∧ 2 * i ∉ c.uwPos ∧ 2 * i ∉ c.txtPos := by
  rw [payloadSymbols_eq, List.mem_filter, List.mem_range, decide_eq_true_eq]

theorem payloadSymbols_pairwise (c : ModemConfig) : (payloadSymbols c).Pairwise (· < ·) :=
  List.pairwise_lt_range.filter _

/-- Settles O46: the unique word and the text are made of whole symbols. -/
theorem payloadSymbolsAreNpayMany : Obligations.PayloadSymbolsAreNpayMany := by
  unfold Obligations.PayloadSymbolsAreNpayMany
  intro c hv hs
  have b := ModemConfig.bounds_of_valid hv
  refine ⟨payloadSymbols_length hv hs, payloadSymbols_pairwise c, fun i => ?_⟩
  rw [mem_payloadSymbols, ← symbolClosed_pair b.uwClosed, ← symbolClosed_pair b.txtClosed]
  tauto

theorem frameRecord_eq (m : Modem) :
    let psym := (List.range m.cfg.nds).filter fun i => decide (2 * i ∉ m.cfg.uwPos ∧ 2 * i ∉ m.cfg.txtPos)
    m.frameRecord = { z := psym.map fun i => m.outZ.getD i Cx.zero, a := psym.map fun i => m.outA.getD i Fp.zero,
                      sigma2 := m.outSigma2 } := by
  rw [Modem.frameRecord, payloadSymbols_eq]

/-! ## The LLRs of a codeword (R451, R452) -/

/-- IL_PERM names a symbol of the block for each symbol of each codeword (40_control R201 check 20). -/
theorem ModemConfig.Bounds.ilPerm_lt {c : ModemConfig} (h : c.Bounds) {j t : Nat} (hj : j < c.ilFrames)
    (ht : t < c.npay) : c.ilPerm.getD (j * c.npay + t) 0 < c.ilFrames * c.npay := by
  obtain ⟨-, -, hperm, -⟩ := (ilValidCfg_iff c).1 (h.interleaver (Nat.ne_zero_of_lt hj))
  obtain ⟨hlen, hlt, -⟩ := perm_range_iff.1 hperm
  have hidx : j * c.npay + t < c.ilFrames * c.npay :=
    calc j * c.npay + t < j * c.npay + c.npay := Nat.add_lt_add_left ht _
      _ = (j + 1) * c.npay := (Nat.succ_mul _ _).symm
      _ ≤ c.ilFrames * c.npay := Nat.mul_le_mul_right _ hj
  rw [List.getD_eq_getElem _ _ (hlen ▸ hidx)]
  exact hlt _ (List.getElem_mem _)

theorem ModemConfig.decType_le_one_of_valid {c : ModemConfig} (h : c.valid = true) : c.decType ≤ 1 := by
  obtain ⟨-, -, -, -, -, -, -, -, -, -, -, -, -, -, ⟨-, hdec⟩, -⟩ := (validityIsTheTwentyChecks c).1 h
  exact hdec

/-- The padding bits of a configured code are data bits, each named once (44_ldpc R401). -/
theorem ModemConfig.code_pad (c : ModemConfig) :
    (∀ p ∈ c.code.pad, p.1 < c.code.n - c.code.m) ∧ (c.code.pad.map Prod.fst).Nodup := by
  obtain ⟨-, -, -, -, -, -, -, -, -, hpad⟩ := (codeWf_iff _).1 (codeTable_cases c.codeId).1
  exact hpad

section
variable {c : ModemConfig} (hv : c.valid = true) {recs : List IlRecord} {j : Nat} (hj : j < c.ilFrames)
include hv hj

/-- Padding bits of a code lie in its codewords, which have two bits per payload symbol. -/
theorem codewordLlrs_pad {p : Nat} {b : Bool} (hp : (p, b) ∈ c.code.pad) (syms : List BlockSymbol) :
    (codewordLlrs c syms j).getD p 0#64 = if b then Fp.neg c.llrMax else c.llrMax := by
  obtain ⟨hpad, hnodup⟩ := c.code_pad
  have hn := ((ModemConfig.bounds_of_valid hv).il (Nat.ne_zero_of_lt hj)).1
  have hlt := hpad _ hp
  exact (codewordLlrs_get c syms j hnodup).1 p b hp (by omega)

/-- The other LLRs come from the symbol IL_PERM names, in the record that holds it. -/
theorem codewordLlrs_symbol (hlen : recs.length = c.ilFrames)
    (hshape : ∀ r ∈ recs, r.z.length = c.npay ∧ r.a.length = c.npay) {t : Nat} (ht : t < c.npay) :
    let i := c.ilPerm.getD (j * c.npay + t) 0
    let llrs := codewordLlrs c (recs.flatMap IlRecord.symbols) j
    ∃ r, recs[i / c.npay]? = some r ∧
      (2 * t ∉ c.code.pad.map Prod.fst → llrs.getD (2 * t) 0#64 =
        axisLlr c.llrMax (r.z.getD (i % c.npay) Cx.zero).re (r.a.getD (i % c.npay) Fp.zero) r.sigma2) ∧
      (2 * t + 1 ∉ c.code.pad.map Prod.fst → llrs.getD (2 * t + 1) 0#64 =
        axisLlr c.llrMax (r.z.getD (i % c.npay) Cx.zero).im (r.a.getD (i % c.npay) Fp.zero) r.sigma2) := by
  intro i llrs
  have hi : i < recs.length * c.npay := hlen ▸ (ModemConfig.bounds_of_valid hv).ilPerm_lt hj ht
  obtain ⟨r, hr, hsym⟩ := blockSymbol_get hshape hi (Cx.zero, Fp.zero, Fp.one)
  have hllr := (codewordLlrs_get c (recs.flatMap IlRecord.symbols) j c.code_pad.2).2 t ht
  dsimp only at hllr
  rw [hsym] at hllr
  exact ⟨r, hr, hllr⟩

end

/-! ## The interleaver's state machine (R461, R462) -/

section
variable {m : Modem}

theorem ilStep_search (hs : m.ilState = .search) (good : Bool) :
    m.ilStep good = m.applyIlRow (if good then .row1 else .row2) := by
  rw [Modem.ilStep, hs]
  cases good <;> rfl

theorem ilStep_trial (hs : m.ilState = .trial) (good : Bool) : m.ilStep good = m.applyIlRow
    (if good then (if m.cfg.ilTrialBlocks ≤ m.ilGood + 1 then .row3 else .row4) else .row5) := by
  rw [Modem.ilStep, hs]
  cases good <;> rfl

theorem ilStep_synced_good (hs : m.ilState = .synced) : m.ilStep true = m.applyIlRow .row6 := by
  rw [Modem.ilStep, hs]
  rfl

theorem ilStep_synced_bad_auto (hs : m.ilState = .synced) (hp : m.policy = .auto) :
    m.ilStep false = m.applyIlRow (if m.cfg.ilFalloutBlocks ≤ m.ilBad + 1 then .row7 else .row8) := by
  rw [Modem.ilStep, hs, hp]
  rfl

theorem ilStep_synced_bad_manual (hs : m.ilState = .synced) (hp : m.policy = .manual) :
    m.ilStep false = m.applyIlRow .row9 := by
  rw [Modem.ilStep, hs, hp]
  rfl

end

/-- Settles O49: each state and goodness has its row, whose action the table writes out. -/
theorem ilTransitionsFollowTheTable : Obligations.IlTransitionsFollowTheTable := by
  unfold Obligations.IlTransitionsFollowTheTable
  intro m c
  refine ⟨fun hs => ⟨ilStep_search hs true, ilStep_search hs false⟩, fun hs hlast => ?row3, fun hs hmore => ?row4,
    fun hs => ilStep_trial hs false, fun hs => ilStep_synced_good hs, fun hs hp hlast => ?row7, fun hs hp hmore => ?row8,
    fun hs hp => ilStep_synced_bad_manual hs hp⟩
  case row3 => exact (ilStep_trial hs true).trans (by rw [if_pos rfl, if_pos hlast]; rfl)
  case row4 => exact (ilStep_trial hs true).trans (by rw [if_pos rfl, if_neg (not_le.2 hmore)]; rfl)
  case row7 => exact (ilStep_synced_bad_auto hs hp).trans (by rw [if_pos hlast]; rfl)
  case row8 => exact (ilStep_synced_bad_auto hs hp).trans (by rw [if_neg (not_le.2 hmore)]; rfl)

/-! ## A block attempt (R453, R470) -/

/-- A step of the machine leaves what the attempt stored. -/
theorem ilStep_results (good : Bool) (m : Modem) : (m.ilStep good).cfg = m.cfg ∧
    (m.ilStep good).ilDecBits = m.ilDecBits ∧ (m.ilStep good).ilConv = m.ilConv ∧ (m.ilStep good).ilPass = m.ilPass := by
  unfold Modem.ilStep
  cases ilRow m.ilState m.policy good m.ilGood m.ilBad m.cfg.ilTrialBlocks m.cfg.ilFalloutBlocks <;>
    exact ⟨rfl, rfl, rfl, rfl⟩

/-- So does the BER count after it. -/
theorem afterAttempt_results (berTest : Bool) (m : Modem) :
    let m1 := m.storeAttempt m.blockDecodes
    (m.afterAttempt berTest).ilDecBits = m1.ilDecBits ∧ (m.afterAttempt berTest).ilConv = m1.ilConv ∧
      (m.afterAttempt berTest).ilPass = m1.ilPass := by
  intro m1
  obtain ⟨-, hstep⟩ := ilStep_results (goodBlock m.cfg m.blockDecodes) m1
  unfold Modem.afterAttempt
  dsimp only
  split <;> exact hstep

/-- An attempt decodes K data bits of each codeword. -/
theorem storeAttempt_bits_length (m : Modem) :
    (m.storeAttempt m.blockDecodes).ilDecBits.length = m.cfg.ilFrames * codeK m.cfg.code := by
  unfold Modem.storeAttempt
  rw [flatMap_len _ _ (codeK m.cfg.code), blockDecodes_length]
  intro d hd
  rw [List.length_take, (blockDecodes_spec hd).1]
  exact min_eq_left (Nat.sub_le _ _)

/-- The BER count over the bits of whole codewords (R470). -/
theorem berCount_eq {m : Modem} {c : ModemConfig} {bits : List Bool} (hc : m.cfg = c) (hb : m.ilDecBits = bits)
    (h : bits.length = c.ilFrames * codeK c.code) : m.berCount = { m with
      berBits := m.berBits + c.ilFrames * codeK c.code
      berErrs := m.berErrs + ((List.range (c.ilFrames * codeK c.code)).filter fun n =>
        bits.getD n false != c.testPattern.getD (n % codeK c.code) false).length } := by
  subst hc hb
  rw [Modem.berCount, berErrors, h, List.countP_eq_length_filter]

/-- An attempt stores its results and moves the machine, and counts errors where the machine began in synced (R453, R470). -/
theorem afterAttempt_eq (m : Modem) (berTest : Bool) :
    let k := codeK m.cfg.code
    let m1 := m.storeAttempt m.blockDecodes
    let m2 := m1.ilStep (goodBlock m.cfg m.blockDecodes)
    m.afterAttempt berTest = if berTest = true ∧ m.ilState = .synced then { m2 with
        berBits := m2.berBits + m.cfg.ilFrames * k
        berErrs := m2.berErrs + ((List.range (m.cfg.ilFrames * k)).filter fun n =>
          m1.ilDecBits.getD n false != m.cfg.testPattern.getD (n % k) false).length }
      else m2 := by
  intro k m1 m2
  obtain ⟨hcfg, hbits, -⟩ := ilStep_results (goodBlock m.cfg m.blockDecodes) m1
  rw [Modem.afterAttempt, berCount_eq hcfg hbits (storeAttempt_bits_length m)]
  simp only [Bool.and_eq_true, decide_eq_true_eq]
  rfl

/-! ## IL_PUSH (R460) -/

theorem mayPush_iff {m : Modem} :
    m.mayPush = true ↔ m.syncState ≠ .searching ∧ m.outValid = true ∧ m.frameCount ≠ m.ilLast := by
  simp only [Modem.mayPush, Bool.and_eq_true, decide_eq_true_eq, and_assoc]

/-- A push makes an attempt due with a full ring in search, and every IL_FRAMES frames elsewhere. -/
theorem attempts_pushFrame_iff {m : Modem} : m.pushFrame.attempts = true ↔
    m.ilState = .search ∧ m.pushFrame.ilRing.length = m.cfg.ilFrames ∨
      m.ilState ≠ .search ∧ m.ilSince + 1 = m.cfg.ilFrames := by
  rw [Modem.attempts, Bool.or_eq_true, Bool.and_eq_true, Bool.and_eq_true, decide_eq_true_eq, decide_eq_true_eq,
    decide_eq_true_eq, decide_eq_true_eq]
  rfl

/-- The block is full where an attempt is due: in search that is the condition, elsewhere the ring stays full. -/
theorem Modem.Inv.ring_full_of_attempts {m : Modem} (hm : m.Inv) (h : m.pushFrame.attempts = true) :
    m.pushFrame.ilRing.length = m.cfg.ilFrames := by
  obtain ⟨-, hfull⟩ | ⟨hs, -⟩ := attempts_pushFrame_iff.1 h
  · exact hfull
  · rw [pushFrame_ring_length hm.ringLen, hm.ringFull hs]
    exact min_eq_right (Nat.le_succ _)

/-- The records of the ring hold NPAY symbols each, the pushed one too. -/
theorem Modem.Inv.ring_shape_of_push {m : Modem} (hm : m.Inv) :
    ∀ r ∈ m.pushFrame.ilRing, r.z.length = m.cfg.npay ∧ r.a.length = m.cfg.npay := fun r hr => by
  obtain hr | rfl := mem_pushFrame_ring hr
  · exact hm.ringShape r hr
  · simp [Modem.frameRecord, payloadSymbols_length hm.cfgValid hm.cfgShaped]

section
variable {s : State} {m : Modem} (hm : s.modem = some m)
include hm

theorem exec_ilPush_of_no_interleaver (h0 : m.cfg.ilFrames = 0) :
    exec .ilPush s = .next (Spec.errorOf s .contractViolation) := by
  rw [exec, execIlPush, State.needModem_of_some hm, if_pos h0, completeError_eq_errorOf]

variable (h0 : m.cfg.ilFrames ≠ 0) {r : Word}
include h0

theorem exec_ilPush_of_gated (h : m.mayPush = false) (hr : BitVec.ofNat 32 m.ilState.code = r) :
    exec .ilPush s = .next { s with
      modem := some m, res0 := 0, res1 := 0, res2 := r, res3 := 0,
      busy := false, done := true, err := false, errcode := .none, irqPend := s.irqPend ||| 0x1#32 } := by
  rw [exec, execIlPush, State.needModem_of_some hm, if_neg h0, h, if_neg Bool.false_ne_true, completeOk_eq, ← hr]
  rfl

variable (h : m.mayPush = true)
include h

theorem exec_ilPush_of_not_due (hdue : m.pushFrame.attempts = false) (hr : BitVec.ofNat 32 m.ilState.code = r) :
    exec .ilPush s = .next { s with
      modem := some m.pushFrame, res0 := 1, res1 := 0, res2 := r, res3 := 0,
      busy := false, done := true, err := false, errcode := .none, irqPend := s.irqPend ||| 0x1#32 } := by
  rw [exec, execIlPush, State.needModem_of_some hm, if_neg h0, if_pos h]
  dsimp only
  rw [hdue, if_neg Bool.false_ne_true, completeOk_eq, ← hr]
  rfl

/-- IL_BLOCK is bit 3 of IRQ_PEND (60_exceptions R520). -/
theorem exec_ilPush_of_due (hdue : m.pushFrame.attempts = true) {m' : Modem}
    (hm' : m.pushFrame.afterAttempt (s.cmdCtrl.getLsbD 2) = m') (hr : BitVec.ofNat 32 m'.ilState.code = r) :
    exec .ilPush s = .next { s with
      mem := (s.writeBits 0x070000 m'.ilDecBits).mem, modem := some m', nonconv := !m'.ilConv,
      res0 := 1, res1 := 1, res2 := r, res3 := BitVec.ofNat 32 m'.ilPass,
      busy := false, done := true, err := false, errcode := .none, irqPend := (s.irqPend ||| 0x8#32) ||| 0x1#32 } := by
  rw [exec, execIlPush, State.needModem_of_some hm, if_neg h0, if_pos h]
  dsimp only
  rw [if_pos hdue, State.berTestEn, hm', completeOk_eq, ← hr]
  rfl

end

/-- The results of IL_PUSH show the IL state by its number. -/
theorem ilState_code_eq (x : IlState) :
    BitVec.ofNat 32 x.code = match x with | .search => 0#32 | .trial => 1#32 | .synced => 2#32 := by
  cases x <;> rfl

/-- Settles O47: the three ways without an attempt. -/
theorem ilPushWithoutAnAttempt : Obligations.IlPushWithoutAnAttempt := by
  unfold Obligations.IlPushWithoutAnAttempt
  intro s m hm report ring kept
  refine ⟨exec_ilPush_of_no_interleaver hm, fun h1 hgate => ?gated, fun h1 hsync hout hnew hsearch hlater => ?quiet⟩
  case gated =>
    have hmay : m.mayPush = false := by
      rw [Bool.eq_false_iff, ne_eq, mayPush_iff]
      rintro ⟨hsync, hout, hnew⟩
      obtain h | h | h := hgate
      · exact hsync h
      · exact Bool.false_ne_true (h.symm.trans hout)
      · exact hnew h
    exact exec_ilPush_of_gated hm (Nat.ne_zero_of_lt h1) hmay (ilState_code_eq _)
  case quiet =>
    have hdue : m.pushFrame.attempts = false := by
      rw [Bool.eq_false_iff, ne_eq, attempts_pushFrame_iff]
      rintro (⟨hs, hfull⟩ | ⟨hs, hsince⟩)
      · exact hsearch hs hfull
      · exact hlater hs hsince
    exact exec_ilPush_of_not_due hm (Nat.ne_zero_of_lt h1) (mayPush_iff.2 ⟨hsync, hout, hnew⟩) hdue (ilState_code_eq _)

/-- Settles O48: on a full ring each codeword has the LLRs its records give and the decode of R425, and the modem after the
attempt is `afterAttempt` spelled out. -/
theorem ilPushAttemptsABlock : Obligations.IlPushAttemptsABlock := by
  unfold Obligations.IlPushAttemptsABlock
  intro s m hm hwf h1 hsync hout hnew c k ring kept hcond m1 ds bits conv good m2 m3
  have hdue : m.pushFrame.attempts = true := attempts_pushFrame_iff.2 hcond
  have hm3 : m.pushFrame.afterAttempt (s.cmdCtrl.getLsbD 2) = m3 := afterAttempt_eq m.pushFrame _
  have hlen : bits.length = m.cfg.ilFrames * k := storeAttempt_bits_length m.pushFrame
  refine ⟨frameRecord_eq m, fun hinv j hj => ?llrs, (s.writeBits 0x070000 bits).mem, ?exec⟩
  case llrs =>
    intro npay llrs
    have hn : c.n = 2 * npay := by rw [← (hinv.bounds.il (Nat.ne_zero_of_lt h1)).1, Nat.mul_comm]
    refine ⟨⟨_, map_range_get _ _ _ hj, ?decode⟩, (codewordLlrs_length _ _ _).trans hn.symm, hn,
      fun p b hp => codewordLlrs_pad hinv.cfgValid hj hp _, fun t ht => ?symbol⟩
    case decode =>
      rw [← bpParams_args m.cfg (ModemConfig.decType_le_one_of_valid hinv.cfgValid)]
      exact bpDecode_isDecode (codeTable_cases m.cfg.codeId).1 _ _ _
    case symbol =>
      exact codewordLlrs_symbol hinv.cfgValid hj (hinv.ring_full_of_attempts hdue) hinv.ring_shape_of_push ht
  case exec =>
    intro t
    obtain ⟨hbits, hconv, hpass⟩ := afterAttempt_results (s.cmdCtrl.getLsbD 2) m.pushFrame
    rw [hm3] at hbits hconv hpass
    have hstate : m3.ilState = m2.ilState := by
      simp only [m3]
      split <;> rfl
    have hcode : BitVec.ofNat 32 m3.ilState.code = t.res2 := by
      rw [hstate]
      exact ilState_code_eq m2.ilState
    refine ⟨?_, hlen, bitsAt_of_writeBits hwf hlen rfl rfl, fun i => readByte_le_one_of_writeBits hwf hlen rfl rfl,
      sameBytesOutside_of_writeBits hwf hlen rfl rfl⟩
    rw [exec_ilPush_of_due hm (Nat.ne_zero_of_lt h1) (mayPush_iff.2 ⟨hsync, hout, hnew⟩) hdue hm3 hcode, hbits,
      hconv, hpass]
    rfl

/-! ## BER_RESET (R472) -/

/-- Settles O18: the command is one update of the modem. -/
theorem berResetZeroesTheCounters : Obligations.BerResetZeroesTheCounters := by
  unfold Obligations.BerResetZeroesTheCounters
  intro s m hm
  rw [exec, execBerReset, State.needModem_of_some hm, completeOk_eq]

end Sys2Proof.Machine
end

section
/-! The core step and its completion as 60_exceptions states them: which command a step runs (R500), how every command completes
(R501, R503, R520), what a recorded fault stops (R510), and the IRQ line (R520). -/

namespace Sys2Proof.Machine

/-! ## The command a core step runs (R500) -/

theorem step_of_no_turns {s : State} (ht : s.turns = []) : step s = coreStep s := by
  rw [step, ht]

/-- A core step on a word the decoder accepts. -/
theorem coreStep_of_decode {s : State} {i : Instr} (hb : s.busy = true) (hf : s.faulted = false)
    (hd : decode s.cmd = .ok i) : coreStep s = exec i s := by
  have hen : s.coreEnabled = true := by rw [State.coreEnabled, hb, hf]; rfl
  rw [coreStep, if_pos hen, State.fetch, hd]

/-- Settles O5: both ways to a core step, with no turn left and with a turn of its own. -/
theorem stepRunsTheAcceptedCommand : Obligations.StepRunsTheAcceptedCommand := by
  unfold Obligations.StepRunsTheAcceptedCommand
  intro s i hb hf hd
  exact ⟨fun ht => (step_of_no_turns ht).trans (coreStep_of_decode hb hf hd),
    fun rest ht => (step_core ht).trans (coreStep_of_decode (s := { s with turns := rest }) hb hf hd)⟩

/-! ## The pending bits of a completion (R520) -/

theorem syncState_eq_syncOf (s : State) : s.syncState = Spec.syncOf s := by
  unfold Spec.syncOf
  split
  case h_1 m hm => exact State.syncState_some hm
  case h_2 hm => exact State.view_of_none hm _ _

theorem writesSyncState_eq (i : Instr) : writesSyncState i = Spec.writesSyncState i := by
  cases i <;> rfl

theorem getLsbD_or_iff (v w : Word) (b : Nat) :
    (v ||| w).getLsbD b = true ↔ v.getLsbD b = true ∨ w.getLsbD b = true := by
  rw [BitVec.getLsbD_or, Bool.or_eq_true]

/-- A word that is there under a condition only has its bits under that condition. -/
theorem getLsbD_ite_zero_iff (p : Prop) [Decidable p] {w : Word} {k : Nat} (hw : ∀ b, w.getLsbD b = decide (b = k))
    (b : Nat) : (if p then w else 0).getLsbD b = true ↔ b = k ∧ p := by
  by_cases hp : p
  · rw [if_pos hp, hw, decide_eq_true_eq]
    exact (and_iff_left hp).symm
  · rw [if_neg hp]
    exact ⟨fun h => absurd h (by simp), fun h => absurd h.2 hp⟩

theorem completeError_pending (s : State) (code : ErrCode) (b : Nat) :
    (s.completeError code).irqPend.getLsbD b = true ↔ s.irqPend.getLsbD b = true ∨ b = 0 ∨ b = 1 := by
  rw [State.completeError_irqPend, getLsbD_or_iff, getLsbD_or_iff, irqDone_bit, irqErr_bit, decide_eq_true_eq,
    decide_eq_true_eq, or_assoc]

/-- Success sets DONE pending beside what the command's effect set. -/
theorem Kept.completeOk_pending {i : Instr} {s u : State} (h : Kept i s u) (b : Nat) :
    u.completeOk.irqPend.getLsbD b = true ↔ s.irqPend.getLsbD b = true ∨ b = 0 ∨
      (b = 2 ∧ Spec.syncOf u ≠ Spec.syncOf s ∧ Spec.writesSyncState i = true) ∨ (b = 3 ∧ i = .ilPush ∧ u.res1 = 1) := by
  obtain ⟨-, hpend⟩ := h
  rw [State.completeOk_irqPend, hpend, getLsbD_or_iff, getLsbD_or_iff, getLsbD_or_iff,
    getLsbD_ite_zero_iff _ irqSyncChange_bit, getLsbD_ite_zero_iff _ irqIlBlock_bit, irqDone_bit, decide_eq_true_eq,
    syncState_eq_syncOf, syncState_eq_syncOf, writesSyncState_eq]
  tauto

/-! ## Every command completes (R501, R503, R520) -/

/-- What the completion of command `i` on `s` leaves: an idle core that reports success or an error, the host's side as it was,
and exactly the pending bits of R520 added. -/
structure Completion (i : Instr) (s t : State) : Prop where
  idle : t.busy = false
  done : t.done = true
  errCode : t.err = true ↔ t.errcode ≠ .none
  hostSide : Spec.SameHostSide s t
  pending : ∀ b, t.irqPend.getLsbD b = true ↔ s.irqPend.getLsbD b = true ∨ b = 0 ∨ (b = 1 ∧ t.err = true) ∨
    (b = 2 ∧ Spec.syncOf t ≠ Spec.syncOf s ∧ Spec.writesSyncState i = true) ∨
    (b = 3 ∧ i = .ilPush ∧ t.err = false ∧ t.res1 = 1)

/-- An error completion, after an effect that set nothing pending and that R520 asks no SYNC_CHANGE for. -/
theorem Completion.of_error {i : Instr} {s u : State} {code : ErrCode} (hcode : code ≠ .none)
    (hhost : Spec.SameHostSide s u) (hpend : u.irqPend = s.irqPend)
    (hsync : Spec.syncOf u = Spec.syncOf s ∨ Spec.writesSyncState i = false) : Completion i s (u.completeError code) where
  idle := rfl
  done := rfl
  errCode := iff_of_true rfl hcode
  hostSide := hhost
  pending b := by
    have herr : (u.completeError code).err = true := rfl
    have hquiet : ¬ (Spec.syncOf (u.completeError code) ≠ Spec.syncOf s ∧ Spec.writesSyncState i = true) := by
      rintro ⟨hne, hw⟩
      exact hsync.elim hne fun h => Bool.false_ne_true (h.symm.trans hw)
    rw [completeError_pending, hpend, herr]
    simp [hquiet]

theorem Completion.of_success {i : Instr} {s u : State} (h : Kept i s u) : Completion i s u.completeOk where
  idle := rfl
  done := rfl
  errCode := iff_of_false nofun (not_not.2 rfl)
  hostSide := h.1
  pending b := by
    have herr : u.completeOk.err = false := rfl
    have hsync : Spec.syncOf u.completeOk = Spec.syncOf u := rfl
    rw [h.completeOk_pending, herr, hsync]
    simp

/-- The three ways a command completes are completions; the failed CREATE ends a modem, which sets no SYNC_CHANGE. -/
theorem exec_completes (i : Instr) (s : State) : ∃ t, exec i s = .next t ∧ Completion i s t := by
  obtain ⟨-, code, hcode, h⟩ | ⟨rfl, h⟩ | ⟨u, hu, h⟩ := exec_cases i s
  · exact ⟨_, h, .of_error hcode ⟨rfl, rfl, rfl, rfl, rfl, rfl, rfl, rfl, rfl, rfl, rfl, rfl, rfl⟩ rfl (.inl rfl)⟩
  · have hkept : Kept .create s s.destroyBody := destroyBody_kept s nofun rfl
    exact ⟨_, h, .of_error nofun hkept.1 (destroyBody_irqPend s) (.inr rfl)⟩
  · exact ⟨_, h, .of_success hu⟩

/-- No pending bit is cleared. -/
theorem Completion.pending_kept {i : Instr} {s t : State} (h : Completion i s t) : s.irqPend &&& t.irqPend = s.irqPend := by
  refine BitVec.eq_of_getLsbD_eq fun b _ => ?_
  rw [BitVec.getLsbD_and, Bool.and_eq_left_iff_imp]
  exact fun hb => (h.pending b).2 (.inl hb)

/-- Settles O6: the completion of each command; the three statements about single bits follow from the one about all. -/
theorem everyCommandCompletes : Obligations.EveryCommandCompletes := by
  unfold Obligations.EveryCommandCompletes
  intro i s
  obtain ⟨t, ht, hc⟩ := exec_completes i s
  exact ⟨t, ht, hc.idle, hc.done, hc.errCode, (hc.pending 0).2 (.inr (.inl rfl)),
    fun herr => (hc.pending 1).2 (.inr (.inr (.inl ⟨rfl, herr⟩))), hc.pending_kept, hc.hostSide, hc.pending⟩

/-- Settles O7: of the three ways to complete two are errors, and the one of CREATE follows the body of DESTROY. -/
theorem errorsChangeNothingElse : Obligations.ErrorsChangeNothingElse := by
  unfold Obligations.ErrorsChangeNothingElse
  intro i s t ht herr
  obtain ⟨hi, code, -, h⟩ | ⟨hi, h⟩ | ⟨u, -, h⟩ := exec_cases i s <;>
    obtain rfl := Host.Outcome.next.inj (h.symm.trans ht)
  · exact ⟨fun _ => completeError_eq_errorOf s code, fun hcreate => absurd hcreate hi⟩
  · refine ⟨fun hne => absurd hi hne, fun _ => ?_⟩
    rw [completeError_eq_errorOf, destroyBody_eq_destroyed]
  · exact nomatch herr

/-! ## From a CMD write to its completion (R500) -/

/-- A core step with a command pending completes it, whether or not its word is a command. -/
theorem coreStep_completes {s : State} (hb : s.busy = true) (hf : s.faulted = false) :
    ∃ u, coreStep s = .next u ∧ u.busy = false ∧ u.done = true ∧ u.turns = s.turns := by
  cases hd : decode s.cmd with
  | ok i =>
    obtain ⟨u, hu, hc⟩ := exec_completes i s
    obtain ⟨-, -, -, -, -, -, -, -, -, -, hturns, -⟩ := hc.hostSide
    exact ⟨u, (coreStep_of_decode hb hf hd).trans hu, hc.idle, hc.done, hturns⟩
  | error r => exact ⟨_, coreStep_of_reject hb hf hd, rfl, rfl, rfl⟩

/-- Settles O56: the CMD write is a register write on an idle core, and what it leaves has a command pending. -/
theorem commandWritesAreAccepted : Obligations.CommandWritesAreAccepted := by
  unfold Obligations.CommandWritesAreAccepted
  intro s w rest hf hb ht t
  refine ⟨step_writeReg ht hf (by decide) (by decide) (.inl hb), ?_⟩
  obtain ⟨u, hu, hdone⟩ := coreStep_completes (s := { t with turns := rest }) rfl hf
  exact ⟨u, (step_core rfl).trans hu, hdone⟩

/-! ## After a fault (R500, R510, 10_state R77) -/

theorem step_powerOn {s : State} {rest : List Turn} (ht : s.turns = .powerOn :: rest) :
    step s = .next ({ s with turns := rest } : State).powerOn := by
  rw [step, ht]

theorem coreStep_of_faulted {s : State} (hf : s.faulted = true) : coreStep s = .next s := by
  have hen : ¬ s.coreEnabled = true := by simp [State.coreEnabled, hf]
  rw [coreStep, if_neg hen]

theorem hostStep_cmdWrite_of_faulted {s : State} {op : HostOp} (hf : s.faulted = true) (hcmd : op.isCmdWrite = true) :
    State.hostStep op s = .next s := by
  rw [State.hostStep, if_pos hf, if_pos hcmd]

/-- A faulted machine answers a host access with a next state for a CMD write only, which it ignores (log 2). -/
theorem hostStep_next_of_faulted {s t : State} {op : HostOp} (hf : s.faulted = true) (h : State.hostStep op s = .next t) :
    t = s := by
  rw [State.hostStep, if_pos hf] at h
  split at h
  · exact (Host.Outcome.next.inj h).symm
  · cases h

/-- Settles O52: the core is not enabled, the host port answers for the CMD write it ignores, and a power-on reset starts anew. -/
theorem aFaultedCoreTakesNoStep : Obligations.AFaultedCoreTakesNoStep := by
  unfold Obligations.AFaultedCoreTakesNoStep
  intro s rest w hf
  have hrest : ({ s with turns := rest } : State).faulted = true := hf
  refine ⟨fun ht => (step_core ht).trans (coreStep_of_faulted hrest),
    fun ht => (step_of_no_turns ht).trans (coreStep_of_faulted hf),
    fun ht => (step_host ht).trans (hostStep_cmdWrite_of_faulted hrest rfl),
    fun t op ht h => hostStep_next_of_faulted hrest ((step_host ht).symm.trans h),
    fun ht => ⟨_, step_powerOn ht, rfl, rfl⟩⟩

/-! ## The IRQ line (R520) -/

theorem ne_zero_iff_exists_getLsbD (w : Word) : w ≠ 0#32 ↔ ∃ b, b < 32 ∧ w.getLsbD b = true := by
  constructor
  · intro h
    have hset := BitVec.getLsbD_true_ctz_of_ne_zero h
    exact ⟨_, BitVec.lt_of_getLsbD hset, hset⟩
  · rintro ⟨b, -, hset⟩ rfl
    simp at hset

/-- Settles O58: the line is the test of the pending and enabled bits against 0. -/
theorem theIrqLineFollowsEnabledPendingBits : Obligations.TheIrqLineFollowsEnabledPendingBits := by
  unfold Obligations.TheIrqLineFollowsEnabledPendingBits
  intro s
  simp only [State.irqLine, decide_eq_true_eq, ne_zero_iff_exists_getLsbD, BitVec.getLsbD_and, Bool.and_eq_true]

end Sys2Proof.Machine
end

section
/-! Reset and hazards (70_reset): what a power-on reset leaves (R550 to R552), and the latched configuration, which no command
but CREATE and no host access changes (R575, 20_memory R128). -/

namespace Sys2Proof.Machine

/-! ## The values after a power-on reset (R550, R551, R552) -/

theorem reset_readReg {off : Nat} (h : off ≠ 0) : State.reset.readReg off = 0 := by
  unfold State.readReg
  split
  case h_1 => exact absurd rfl h
  all_goals rfl

/-- A power-on reset shows the registers of the reset state: what it keeps and what it counts is in none of them. -/
theorem powerOn_readReg (s : State) (off : Nat) : s.powerOn.readReg off = State.reset.readReg off := rfl

theorem readByte_of_mem_nil {s : State} (h : s.mem = []) (a : Nat) : s.readByte a = Config.porMem s.porCount a := by
  rw [State.readByte, h]
  rfl

theorem irqLine_of_no_pending {s : State} (h : s.irqPend = 0) : s.irqLine = false := by simp [State.irqLine, h]

/-- Settles O57: both states have the same registers and no byte written, so each byte is its draw. -/
theorem powerOnResetGivesTheResetValues : Obligations.PowerOnResetGivesTheResetValues := by
  unfold Obligations.PowerOnResetGivesTheResetValues
  refine ⟨fun s rest ht => ⟨({ s with turns := rest } : State).powerOn, step_powerOn ht, rfl, rfl, rfl, fun off h => ?regs,
      irqLine_of_no_pending rfl, rfl, rfl, rfl, rfl, rfl, rfl, rfl, readByte_of_mem_nil rfl⟩,
    rfl, fun _ => reset_readReg, irqLine_of_no_pending rfl, rfl, rfl, rfl, rfl, rfl, rfl, rfl, _, readByte_of_mem_nil rfl⟩
  case regs => rw [powerOn_readReg, reset_readReg h]

/-- Settles O59: the earlier lemma about the reset state. -/
theorem invariantHoldsAtReset : Obligations.InvariantHoldsAtReset := reset_inv

/-! ## The latched configuration (R575) -/

/-- The core is configured, with `c` as its latched configuration. -/
def State.ConfiguredAs (s : State) (c : ModemConfig) : Prop := ∃ m, s.modem = some m ∧ m.cfg = c

theorem State.ConfiguredAs.cfg_eq {s : State} {c : ModemConfig} {m : Modem} (hs : s.ConfiguredAs c)
    (hm : s.modem = some m) : m.cfg = c := by
  obtain ⟨m', hm', rfl⟩ := hs
  rw [Option.some.inj (hm.symm.trans hm')]

theorem State.ConfiguredAs.needModem {s : State} {c : ModemConfig} (hs : s.ConfiguredAs c) {f : Modem → State}
    (hf : ∀ m, m.cfg = c → (f m).ConfiguredAs c) : (s.needModem f).ConfiguredAs c := by
  obtain ⟨m, hm, hc⟩ := hs
  rw [State.needModem_of_some hm]
  exact hf m hc

theorem State.ConfiguredAs.updateModem {s : State} {c : ModemConfig} (hs : s.ConfiguredAs c) {f : Modem → Modem}
    (hf : ∀ m, (f m).cfg = m.cfg) : (s.updateModem f).ConfiguredAs c :=
  hs.needModem fun m hc => ⟨f m, rfl, (hf m).trans hc⟩

/-- DEMODULATE and SYNC_SEARCH see the modem with the samples appended, under the same configuration (42_demodulator R291). -/
theorem State.ConfiguredAs.withStream {s : State} {c : ModemConfig} (hs : s.ConfiguredAs c) {f : Modem → State}
    (hf : ∀ m, m.cfg = c → (f m).ConfiguredAs c) : (s.withStream f).ConfiguredAs c := by
  refine hs.needModem fun m hc => ?_
  split_ifs
  · exact hs
  · exact hs
  · exact hf (m.append (s.inputSamples m.nin)) hc

theorem demodulateFrame_configuredAs (s : State) {m : Modem} {c : ModemConfig} (hc : m.cfg = c) :
    (s.demodulateFrame m).ConfiguredAs c := by
  cases hemits : m.emits with
  | true => exact ⟨m.emit.2, by rw [demodulateFrame_eq hemits], (emit_cfg m).trans hc⟩
  | false => exact ⟨{ m with outValid := false, nin := m.cfg.spf }, by rw [demodulateFrame_of_not_emits hemits], hc⟩

/-- Apart from CREATE and DESTROY, which make and end a modem, every command leaves the latched configuration (R575). -/
theorem exec_configuredAs {i : Instr} {s t : State} {c : ModemConfig} (h : exec i s = .next t) (hcreate : i ≠ .create)
    (hdestroy : i ≠ .destroy) (hs : s.ConfiguredAs c) : t.ConfiguredAs c := by
  cases i with
  | create => exact absurd rfl hcreate
  | destroy => exact absurd rfl hdestroy
  | modulate =>
    obtain rfl := Host.Outcome.next.inj h
    refine hs.needModem fun m hc => ?_
    split_ifs
    · exact hs
    · exact hs
    · exact ⟨_, rfl, hc⟩
  | demodulate =>
    obtain rfl := Host.Outcome.next.inj h
    exact hs.withStream fun m hc => demodulateFrame_configuredAs s hc
  | syncSearch =>
    obtain rfl := Host.Outcome.next.inj h
    exact hs.withStream fun m hc => ⟨searchModem m, rfl, (searchModem_cfg m).trans hc⟩
  | runSyncSm src =>
    obtain rfl := Host.Outcome.next.inj h
    exact hs.needModem fun m hc => ⟨_, State.raiseIrqIf_modem _ _ _, (applySyncRow_cfg m _ _).trans hc⟩
  | setSyncPolicy p =>
    obtain rfl := Host.Outcome.next.inj h
    exact hs.needModem fun m hc => ⟨_, State.raiseIrqIf_modem _ _ _, (setPolicy_stream m p _).2.trans hc⟩
  | ilPush =>
    obtain rfl := Host.Outcome.next.inj h
    refine hs.needModem fun m hc => ?_
    split_ifs
    · exact hs
    · dsimp only
      split_ifs
      · exact ⟨_, rfl, (afterAttempt_cfg m.pushFrame _).trans hc⟩
      · exact ⟨m.pushFrame, rfl, hc⟩
    · exact ⟨m, rfl, hc⟩
  | ldpcEncode slot =>
    obtain rfl := Host.Outcome.next.inj h
    split
    · exact hs
    · exact hs
  | ldpcDecode slot =>
    obtain rfl := Host.Outcome.next.inj h
    split
    · refine hs.needModem fun m _ => ?_
      dsimp only
      split_ifs <;> exact hs
    · exact hs
  | getNin | getStats =>
    obtain rfl := Host.Outcome.next.inj h
    exact hs.needModem fun _ _ => hs
  | berReset =>
    obtain rfl := Host.Outcome.next.inj h
    exact hs.needModem fun _ hc => ⟨_, rfl, hc⟩
  | setPhaseBw | enableTiming | enableFreq | enablePhase | setDpsk =>
    obtain rfl := Host.Outcome.next.inj h
    exact hs.updateModem fun _ => rfl

/-- Settles O10: DESTROY leaves no modem, and the host port has no way to the modem. -/
theorem configurationStaysLatched : Obligations.ConfigurationStaysLatched := by
  unfold Obligations.ConfigurationStaysLatched
  refine ⟨fun i s t m m' h hcreate hm hm' => ?_, fun op s t h => congrArg _ (hostStep_modem h)⟩
  have hdestroy : i ≠ .destroy := by
    rintro rfl
    obtain rfl := Host.Outcome.next.inj h
    exact nomatch hm'.symm.trans (destroyBody_modem s)
  exact (exec_configuredAs h hcreate hdestroy ⟨m, hm, rfl⟩).cfg_eq hm'

end Sys2Proof.Machine
end
